-- ==== Sys2Proof/Word.lean ====
section
/-! DEFINITION. Bytes and byte sequences: the word type of the block and its plainest arithmetic (00_scope.md R7, R8). -/

namespace Sys2Proof

/-- A byte, an octet: a natural 0..255 (R8). -/
abbrev Byte := BitVec 8

/-- `Bytes`, and also a string value: a finite sequence of octets (R8). -/
abbrev Octets := List Byte

/-- `zeros(n)`: n bytes of value 0x00 (R8). -/
def zeros (n : Nat) : Octets := List.replicate n 0

/-- `sum(b)`: the arithmetic sum of the bytes of b (R8). -/
def octetSum : Octets → Nat
  | [] => 0
  | b :: bs => b.toNat + octetSum bs

/-- The octets of an ASCII text (the codes of R8, log entry 17). -/
def ascii (t : String) : Octets := t.toList.map fun c => BitVec.ofNat 8 c.toNat

end Sys2Proof
end

