-- ==== Sys2Proof/Syntax.lean ====
section
/-! DEFINITION. The syntax: names, external values, selectors, and one constructor of `Instr` per row of the opcode table. -/

namespace Sys2Proof

/-- A name is an octet string (00_scope.md R11). -/
abbrev Name := Octets

/-- The external values that cross the accessor boundary (R11). -/
inductive ExtValue where
  | int (z : Int)
  | list (zs : List Int)
  | str (s : Octets)
deriving DecidableEq, Repr, Inhabited

/-- An ordered list of (name, value) pairs (R11). -/
abbrev Mapping := List (Name × ExtValue)

/-- The four string encodings (30_encoding.md R74). -/
inductive Selector where
  | bin
  | bcdPlus
  | ascii6
  | ascii8
deriving DecidableEq, Repr, Inhabited

/-- One constructor per row of opcode_table.json: the thirteen commands of R72, the four string
header bytes of R74 and the record prologue byte of R80. -/
inductive Instr where
  /-- RESET, 0x01 (R230) -/
  | reset
  /-- GET, 0x02 (R221) -/
  | get (name : Name)
  /-- SET, 0x03 (R222) -/
  | set (name : Name) (value : ExtValue)
  /-- CONTAINS, 0x04 (R227) -/
  | contains (name : Name)
  /-- UPDATE, 0x05 (R228) -/
  | update (mapping : Mapping)
  /-- TO_DICT, 0x06 (R229) -/
  | toDict
  /-- SIZE_PAYLOAD, 0x07 (R181) -/
  | sizePayload
  /-- SIZE_TOTAL, 0x08 (R182) -/
  | sizeTotal
  /-- SERIALIZE, 0x09 (R183) -/
  | serialize
  /-- DESERIALIZE, 0x0A (R190) -/
  | deserialize (buf : Octets)
  /-- FIELD_SIZE, 0x10 (R231) -/
  | fieldSize (name : Name)
  /-- FIELD_SERIALIZE, 0x11 (R232) -/
  | fieldSerialize (name : Name)
  /-- FIELD_DESERIALIZE, 0x12 (R233) -/
  | fieldDeserialize (name : Name) (buf : Octets)
  /-- STR.BIN: a string header byte with selector 0b00 (R74, R141) -/
  | strBin (len : BitVec 6)
  /-- STR.BCD_PLUS: a string header byte with selector 0b01 (R74, R141) -/
  | strBcdPlus (len : BitVec 6)
  /-- STR.ASCII_6BIT: a string header byte with selector 0b10 (R74, R141) -/
  | strAscii6 (len : BitVec 6)
  /-- STR.ASCII_8BIT: a string header byte with selector 0b11 (R74, R141) -/
  | strAscii8 (len : BitVec 6)
  /-- PROLOGUE: the first byte of a record (R80) -/
  | prologue (reserved : BitVec 4) (version : BitVec 4)
deriving DecidableEq, Repr

/-- The operand parts a command may have (R70). The opcode says which of them it takes (R72);
the other parts are not looked at (log entry 10). -/
structure Operands where
  name : Name := []
  value : ExtValue := .int 0
  mapping : Mapping := []
  buf : Octets := []
deriving DecidableEq, Repr

/-- A command as the host issues it: an 8-bit opcode and its operand tuple (R70). -/
structure Command where
  op : Byte
  operands : Operands
deriving DecidableEq, Repr

/-- The three formats of the opcode table: a byte is read as a command's opcode, as a string
header, or as a record prologue, according to where it stands (R72, R74, R80). -/
inductive Format where
  | command
  | stringHeader
  | recordPrologue
deriving DecidableEq, Repr

/-- An encoded instruction: its format, its byte, and a command's operands. -/
structure Encoding where
  format : Format
  byte : Byte
  operands : Operands := {}
deriving DecidableEq, Repr

end Sys2Proof
end

