-- ==== Sys2Proof/Config.lean ====
section
/-! DEFINITION. Config: what the spec leaves open, as uninterpreted constants (no proof can see a value of one), and the
fixed parameters of 00_scope.md R5. SCHEMA, the other parameter, is data and stands in State (log entry 1). -/

namespace Sys2Proof.Config

/-- TEXT_VALID (R5, R8, I1) on the sequences with an octet above 0x7F, of which the spec says nothing.
On 7-bit sequences it must be true: `Machine.textValid` adds that (log entry 3). -/
opaque textValidBeyondAscii : Octets → Bool

/-- VER after the n-th draw of an unspecified state (R192, I2; log entry 4). -/
opaque freeVersion : Nat → BitVec 4

/-- Whether the BitField register of schema entry i is Unset after the n-th draw (R192, R233; log entry 4). -/
opaque freeUnset : Nat → Nat → Bool

/-- Group j of the BitField register of schema entry i after the n-th draw, before it is cut to its
group's width (R192, R233; log entry 4). -/
opaque freeGroup : Nat → Nat → Nat → Nat

/-- SEL[i] after the n-th draw (R192, R233; log entry 4). -/
opaque freeSelector : Nat → Nat → Selector

/-- VAL[i] after the n-th draw (R192, R233; log entry 4). -/
opaque freeOctets : Nat → Nat → Octets

/-- Whether a SERIALIZE that fails after its area_length update, the n-th draw, leaves FR[AL] with its
old value (R187, I4; log entry 6). -/
opaque freeKeepsArea : Nat → Bool

/-- MAX_STR_PAYLOAD (R5). -/
def maxStrPayload : Nat := 63

/-- RECORD_ALIGN (R5). -/
def recordAlign : Nat := 8

/-- DEFAULT_VERSION (R5). -/
def defaultVersion : BitVec 4 := 1

end Sys2Proof.Config
end

