-- ==== Sys2Proof/WellFormed.lean ====
section
/-! DEFINITION. Well-formed instructions: those whose encoding is none that 30_encoding.md R83 calls reserved or that
encoding cannot produce. Every field's width is already its type's. -/

namespace Sys2Proof

/-- R83: the prologue's reserved nibble is written 0 (it is ignored on read), and an ASCII_6BIT
payload length is a multiple of 3. Every other term of `Instr` is well formed: R83 and R84 leave
no other reserved form, and a command's operands may be any structured values (R70). -/
def Instr.wellFormed : Instr → Bool
  | .prologue reserved _ => reserved == 0
  | .strAscii6 len => len.toNat % 3 == 0
  | .reset | .get _ | .set _ _ | .contains _ | .update _ | .toDict | .sizePayload | .sizeTotal
  | .serialize | .deserialize _ | .fieldSize _ | .fieldSerialize _ | .fieldDeserialize _ _
  | .strBin _ | .strBcdPlus _ | .strAscii8 _ => true

end Sys2Proof
end

