-- ==== Sys2Proof/Decode.lean ====
section
/-! DEFINITION. Decode: from an opcode, a string header byte or a prologue byte to an instruction, total, refusing by name;
then the encoder, from the same tables (30_encoding.md R72, R74, R80), and the host's query over the opcode table. -/

namespace Sys2Proof

/-- Why a word decodes to no instruction. -/
inductive DecodeError where
  /-- an opcode that is not in R72 (R83): the block answers IllegalCommandError (R234) -/
  | illegalOpcode (op : Byte)
deriving DecidableEq, Repr

/-- The selector of a header byte's bits 7:6 (R74). -/
def Selector.ofCode (c : BitVec 2) : Selector :=
  if c = 0b00#2 then .bin
  else if c = 0b01#2 then .bcdPlus
  else if c = 0b10#2 then .ascii6
  else .ascii8

/-- The 2-bit code of a selector (R74). -/
def Selector.code : Selector → BitVec 2
  | .bin => 0b00#2
  | .bcdPlus => 0b01#2
  | .ascii6 => 0b10#2
  | .ascii8 => 0b11#2

/-- Bits 7:6 of a string header (R74). -/
def headerSel (h : Byte) : BitVec 2 := h.extractLsb' 6 2

/-- Bits 5:0 of a string header (R74). -/
def headerLen (h : Byte) : BitVec 6 := h.extractLsb' 0 6

/-- The header byte `h = (sel << 6) | n` (R74). -/
def headerByte (sel : Selector) (n : BitVec 6) : Byte := sel.code ++ n

/-- Bits 7:4 of a byte: the prologue's reserved nibble (R80), the first nibble of a BCD_PLUS byte (R76). -/
def highNibble (b : Byte) : BitVec 4 := b.extractLsb' 4 4

/-- Bits 3:0 of a byte: the prologue's version (R80), the second nibble of a BCD_PLUS byte (R76). -/
def lowNibble (b : Byte) : BitVec 4 := b.extractLsb' 0 4

/-- `(hi << 4) | lo` (R76, R80). -/
def nibbles (hi lo : BitVec 4) : Byte := hi ++ lo

/-- The instruction a string header byte stands for: all 256 values decode (R74). -/
def decodeHeader (h : Byte) : Instr :=
  match Selector.ofCode (headerSel h) with
  | .bin => .strBin (headerLen h)
  | .bcdPlus => .strBcdPlus (headerLen h)
  | .ascii6 => .strAscii6 (headerLen h)
  | .ascii8 => .strAscii8 (headerLen h)

/-- The instruction a prologue byte stands for: every value is accepted on read (R80, D16). -/
def decodePrologue (b : Byte) : Instr := .prologue (highNibble b) (lowNibble b)

/-- The command of an opcode and its operands (R72); every other opcode is illegal (R83). -/
def decodeCommand (op : Byte) (x : Operands) : Except DecodeError Instr :=
  match op.toNat with
  | 0x01 => .ok .reset
  | 0x02 => .ok (.get x.name)
  | 0x03 => .ok (.set x.name x.value)
  | 0x04 => .ok (.contains x.name)
  | 0x05 => .ok (.update x.mapping)
  | 0x06 => .ok .toDict
  | 0x07 => .ok .sizePayload
  | 0x08 => .ok .sizeTotal
  | 0x09 => .ok .serialize
  | 0x0A => .ok (.deserialize x.buf)
  | 0x10 => .ok (.fieldSize x.name)
  | 0x11 => .ok (.fieldSerialize x.name)
  | 0x12 => .ok (.fieldDeserialize x.name x.buf)
  | _ => .error (.illegalOpcode op)

/-- Decode an encoded instruction of any of the three formats. -/
def decode (e : Encoding) : Except DecodeError Instr :=
  match e.format with
  | .command => decodeCommand e.byte e.operands
  | .stringHeader => .ok (decodeHeader e.byte)
  | .recordPrologue => .ok (decodePrologue e.byte)

/-- Encode an instruction: R72 for a command, R74 for a string header, R80 for the prologue. -/
def encode : Instr → Encoding
  | .reset => ⟨.command, 0x01, {}⟩
  | .get nm => ⟨.command, 0x02, { name := nm }⟩
  | .set nm e => ⟨.command, 0x03, { name := nm, value := e }⟩
  | .contains nm => ⟨.command, 0x04, { name := nm }⟩
  | .update m => ⟨.command, 0x05, { mapping := m }⟩
  | .toDict => ⟨.command, 0x06, {}⟩
  | .sizePayload => ⟨.command, 0x07, {}⟩
  | .sizeTotal => ⟨.command, 0x08, {}⟩
  | .serialize => ⟨.command, 0x09, {}⟩
  | .deserialize b => ⟨.command, 0x0A, { buf := b }⟩
  | .fieldSize nm => ⟨.command, 0x10, { name := nm }⟩
  | .fieldSerialize nm => ⟨.command, 0x11, { name := nm }⟩
  | .fieldDeserialize nm b => ⟨.command, 0x12, { name := nm, buf := b }⟩
  | .strBin n => ⟨.stringHeader, headerByte .bin n, {}⟩
  | .strBcdPlus n => ⟨.stringHeader, headerByte .bcdPlus n, {}⟩
  | .strAscii6 n => ⟨.stringHeader, headerByte .ascii6 n, {}⟩
  | .strAscii8 n => ⟨.stringHeader, headerByte .ascii8 n, {}⟩
  | .prologue r v => ⟨.recordPrologue, nibbles r v, {}⟩

/-- The format in which the opcode table's word `b` is read when nothing else says where it stands.
The table's three formats share their byte values, so the row with the most fixed bits wins: a
command (mask 0xFF), else the prologue (mask 0xF0), else a string header (mask 0xC0) (log entry 11). -/
def tableFormat (b : Byte) : Format :=
  match decodeCommand b {} with
  | .ok _ => .command
  | .error _ => if highNibble b = 0 then .recordPrologue else .stringHeader

/-- What the decoder reads from a table word of `nbits` bits; a command's operands are empty
(log entry 10). -/
def decodeTableWord (nbits w : Nat) : Option Instr :=
  if nbits = 8 ∧ w < 256 then
    let b : Byte := BitVec.ofNat 8 w
    match decode ⟨tableFormat b, b, {}⟩ with
    | .ok i => some i
    | .error _ => none
  else none

end Sys2Proof
end

