-- ==== Sys2Proof/Machine/State.lean ====
section
/-! DEFINITION. State: the version register, the schema entries with their field registers, the transfer a deserializing
command holds while it runs, the host's commands and the last response; the faults and refusals; the state after reset. -/

namespace Sys2Proof.Machine

/-- The value of a BitField register (10_state.md R26). Its range is `BitVal.legal`. -/
inductive BitVal where
  | unset
  | scalar (v : Nat)
  | tuple (vs : List Nat)
deriving DecidableEq, Repr, Inhabited

/-- A prototype of the schema (R20): a BitField's layout and default, or a string's selector and default. -/
inductive Proto where
  | bit (layout : List Nat) (dflt : BitVal)
  | str (sel : Selector) (dflt : Octets)
deriving DecidableEq, Repr

/-- A schema entry: (name, prototype) (R20). -/
structure Entry where
  name : Name
  proto : Proto
deriving DecidableEq, Repr

/-- SCHEMA: an ordered list of entries (R20). -/
abbrev Schema := List Entry

/-- A field register with the prototype it was instantiated from: `FR[i]` of a BitField entry (R26)
or `(SEL[i], VAL[i])` of a string entry (R27). No command changes the prototype part (R20). -/
inductive Field where
  | bit (layout : List Nat) (dflt : BitVal) (x : BitVal)
  | str (selDflt : Selector) (dflt : Octets) (sel : Selector) (val : Octets)
deriving DecidableEq, Repr

/-- Schema entry i and its register `FR[i]` (R22, R23). -/
structure Slot where
  name : Name
  field : Field
deriving DecidableEq, Repr

/-- Which deserializing command a transfer belongs to: DESERIALIZE or FIELD_DESERIALIZE. -/
inductive Span where
  | record
  | field
deriving DecidableEq, Repr

/-- The transient state of a deserializing command while it runs (R32, R33): its input buffer IN, the
offset `cur` of the next byte, and the schema entry the next bytes are for (the loop index of R190).
It exists between no two commands (R34). -/
structure Xfer where
  span : Span
  input : Octets
  cur : Nat
  entry : Nat
deriving DecidableEq, Repr

/-- `consumed`: the bytes read so far, IN[0..cur) (R33). -/
def Xfer.consumed (t : Xfer) : Octets := t.input.take t.cur

/-- IN[cur..]: the bytes not read yet. -/
def Xfer.rest (t : Xfer) : Octets := t.input.drop t.cur

/-- Why a SCHEMA is ill formed (70_reset_and_hazards.md R352), bit alignment apart. -/
inductive SchemaReason where
  | reservedName
  | duplicateName
  | emptyLayoutOrZeroWidthGroup
  | areaLengthMustHaveOneGroup
  | illegalDefault
  | areaLengthMustBeBitField
deriving DecidableEq, Repr

/-- The offending value a ValueShapeError names (60_exceptions.md R302): "unset", an external value
as it was given, or a number that a check computed or unwrapped (log entry 21). -/
inductive Offender where
  | unset
  | value (e : ExtValue)
  | number (z : Int)
deriving DecidableEq, Repr

/-- The error kinds with the info each records (R301, R302). -/
inductive Err where
  /-- BitAlignmentError (field name, W) -/
  | bitAlignment (name : Name) (width : Nat)
  /-- EncodingLookupError (field name, index, offending octet) -/
  | lookupOctet (name : Name) (index : Nat) (octet : Byte)
  /-- EncodingLookupError (field name, index, offending nibble) -/
  | lookupNibble (name : Name) (index : Nat) (nibble : BitVec 4)
  /-- EncodingLookupError (field name, "length", n) -/
  | lookupLength (name : Name) (n : Nat)
  /-- TextCodecError (field name) -/
  | textCodec (name : Name)
  /-- TextCodecError (field name, index, offending octet), for ASCII_6BIT -/
  | textCodecAt (name : Name) (index : Nat) (octet : Byte)
  /-- ChecksumOrPaddingError (expected bytes, received bytes) -/
  | checksumOrPadding (expected received : Octets)
  /-- FieldAlignmentError ("area_length", value) -/
  | fieldAlignment (name : Name) (value : Int)
  /-- UnknownFieldError (name) -/
  | unknownField (name : Name)
  /-- TruncatedInputError (field name or "prologue", bytes needed, bytes available) -/
  | truncated (site : Name) (needed available : Nat)
  /-- ValueShapeError (register name, the offending value, or "unset") -/
  | valueShape (name : Name) (offender : Offender)
  /-- PayloadShapeError (field name, payload length) -/
  | payloadShape (name : Name) (len : Nat)
  /-- SchemaError (entry name, reason) -/
  | schema (name : Name) (reason : SchemaReason)
  /-- IllegalCommandError (opcode) -/
  | illegalCommand (op : Byte)
deriving DecidableEq, Repr

/-- The result of a command that ends with status OK (30_encoding.md R72). -/
inductive Result where
  | none
  | value (e : ExtValue)
  | flag (b : Bool)
  | mapping (m : Mapping)
  | natural (n : Nat)
  | bytes (b : Octets)
deriving DecidableEq, Repr

/-- The response to a command (R71): OK with its result, or an error with its info. Its status code
is `Response.status` (Flags). -/
inductive Response where
  | ok (r : Result)
  | error (e : Err)
deriving DecidableEq, Repr

/-- The state of the block, with its ports. `ver` and the registers in `slots` are all that persists
from one command to the next (R22). -/
structure State where
  /-- VER, the format-version register (R25) -/
  ver : BitVec 4
  /-- the schema entries in order, each with its register FR[i] (R22, R26, R27) -/
  slots : List Slot
  /-- the transfer of a deserializing command that is running (R33); none between commands (R34) -/
  xfer : Option Xfer
  /-- the commands the host has yet to issue, the next one first (R50; log entry 7) -/
  pending : List Command
  /-- the last response returned to the host (R71); no command reads it (R31; log entry 9) -/
  response : Option Response
  /-- how many unspecified states have been drawn (the model's own; log entries 4 and 5) -/
  draws : Nat
deriving DecidableEq, Repr

/-- The prototype a field register was instantiated from (R20). -/
def Field.proto : Field → Proto
  | .bit layout d _ => .bit layout d
  | .str s d _ _ => .str s d

/-- A field register instantiated fresh from its prototype (R21, R35). -/
def Proto.fresh : Proto → Field
  | .bit layout d => .bit layout d d
  | .str s d => .str s d s d

/-- The schema entry of a slot. -/
def Slot.entry (sl : Slot) : Entry := ⟨sl.name, sl.field.proto⟩

/-- Schema entry i with a fresh register (R21). -/
def Entry.fresh (e : Entry) : Slot := ⟨e.name, e.proto.fresh⟩

/-- SCHEMA of the block (R20). -/
def State.schema (s : State) : Schema := s.slots.map Slot.entry

/-- The block at power-on, instantiated with SCHEMA `sc` (R35, R350): VER is 1, every field register
holds its prototype default, and no command is running. -/
def State.powerOn (sc : Schema) : State where
  ver := Config.defaultVersion
  slots := sc.map Entry.fresh
  xfer := none
  pending := []
  response := none
  draws := 0

/-- The state right after reset (R350), of the block whose SCHEMA is empty (log entry 2): no command
has been issued. The reset state of any other block is `State.powerOn` of its SCHEMA. -/
def State.reset : State := State.powerOn []

/-- What stops the machine. No command faults: an error is a response (R300, R304). -/
inductive Fault where
  /-- Raised by the meanings of the string header bytes and of the prologue byte, when no
  deserializing command is running: such a byte exists only in its IN buffer (R32, R33). Safe: the
  spec gives such a byte no effect, and `step` never fetches one there. Log entry 12. -/
  | noTransfer
  /-- Raised by the same meanings, and by `step`, when the transfer that is open wants something else
  at its place: the prologue, a BitField, the epilogue, or an entry the schema does not have. Safe,
  as above: `step` decodes a byte by what its place wants. Log entry 12. -/
  | misplacedElement
deriving DecidableEq, Repr

/-- Why the model has no meaning for a step. -/
inductive Refusal where
  /-- Raised by an arm of `exec` whose instruction has no meaning yet. Safe. -/
  | notModelled (mnemonic : String)
  /-- Raised by `step` in a state whose SCHEMA fails CHECK_SCHEMA: no block exists, and no command can
  be issued to it (R305, R352). Safe: the spec itself refuses it. Log entry 14. -/
  | schemaRejected (e : Err)
deriving DecidableEq, Repr

/-- An outcome of this machine. -/
abbrev Out := Host.Outcome State Fault Refusal

end Sys2Proof.Machine
end

