-- ==== Sys2Proof/Machine/Flags.lean ====
section
/-! DEFINITION. The block has no flags, condition codes or predicates (10_state.md R31): a command's success or failure is
its response's status. Here are the error kinds, their codes and the status of a response (60_exceptions.md R301). -/

namespace Sys2Proof.Machine

/-- The error kinds of R301. -/
inductive ErrKind where
  | bitAlignmentError
  | encodingLookupError
  | textCodecError
  | checksumOrPaddingError
  | fieldAlignmentError
  | unknownFieldError
  | truncatedInputError
  | valueShapeError
  | payloadShapeError
  | schemaError
  | illegalCommandError
deriving DecidableEq, Repr

/-- The kind of an error (R302). -/
def Err.kind : Err → ErrKind
  | .bitAlignment _ _ => .bitAlignmentError
  | .lookupOctet _ _ _ | .lookupNibble _ _ _ | .lookupLength _ _ => .encodingLookupError
  | .textCodec _ | .textCodecAt _ _ _ => .textCodecError
  | .checksumOrPadding _ _ => .checksumOrPaddingError
  | .fieldAlignment _ _ => .fieldAlignmentError
  | .unknownField _ => .unknownFieldError
  | .truncated _ _ _ => .truncatedInputError
  | .valueShape _ _ => .valueShapeError
  | .payloadShape _ _ => .payloadShapeError
  | .schema _ _ => .schemaError
  | .illegalCommand _ => .illegalCommandError

/-- The code of an error kind (R301). -/
def ErrKind.code : ErrKind → BitVec 8
  | .bitAlignmentError => 1
  | .encodingLookupError => 2
  | .textCodecError => 3
  | .checksumOrPaddingError => 4
  | .fieldAlignmentError => 5
  | .unknownFieldError => 6
  | .truncatedInputError => 7
  | .valueShapeError => 8
  | .payloadShapeError => 9
  | .schemaError => 10
  | .illegalCommandError => 11

/-- The 8-bit status of a response: 0 for OK, or the error's code (30_encoding.md R71). -/
def Response.status : Response → BitVec 8
  | .ok _ => 0
  | .error e => e.kind.code

end Sys2Proof.Machine
end

