-- ==== Sys2Proof/Machine/Ops.lean ====
section
/-! DEFINITION. The shared operations: reading a buffer, ending a command with a result or an error, finding and writing a
register, drawing an unspecified state, the text predicate, and the bit slices of 00_scope.md R7. -/

namespace Sys2Proof.Machine

/-- The special name "area_length" (00_scope.md R11). -/
def nameAreaLength : Name := ascii "area_length"

/-- The special name "format_version" (R11). -/
def nameFormatVersion : Name := ascii "format_version"

/-- The word "prologue" that a TruncatedInputError names in place of a field (60_exceptions.md R302). -/
def namePrologue : Name := ascii "prologue"

/-- `v[lo+w-1 : lo]` as a natural (R7). -/
def bitSlice (v lo w : Nat) : Nat := (v >>> lo) % 2 ^ w

/-- `v[8i+7 : 8i]` as a byte (R7). -/
def byteAt (v i : Nat) : Byte := BitVec.ofNat 8 (bitSlice v (8 * i) 8)

/-- `ceil(a/b)` (R7). -/
def ceilDiv (a b : Nat) : Nat := (a + b - 1) / b

/-- `roundup8(n)` (R7). -/
def roundUp8 (n : Nat) : Nat := Config.recordAlign * ceilDiv n Config.recordAlign

/-- TEXT_VALID (R5, R8): true on every sequence of octets 0x00..0x7F, open elsewhere (log entry 3). -/
def textValid (s : Octets) : Bool := s.all (fun c => decide (c.toNat < 0x80)) || Config.textValidBeyondAscii s

/-- `MemRead` at the front of the bytes not read yet (R9): the first n bytes and the remainder, or
TruncatedInputError with the bytes needed and available (40_bitfield.md R103, 41_string_codec.md R141). -/
def memRead (site : Name) (b : Octets) (n : Nat) : Except Err (Octets × Octets) :=
  if b.length < n then .error (.truncated site n b.length) else .ok (b.take n, b.drop n)

/-- The first octet of s, with its index counted from k, that p refuses. -/
def firstBad (p : Byte → Bool) (k : Nat) : Octets → Option (Nat × Byte)
  | [] => none
  | c :: cs => if p c then firstBad p (k + 1) cs else some (k, c)

/-- `return r`: the command ends with status OK and result r (R9). -/
def State.answer (s : State) (r : Result) : State := { s with response := some (.ok r) }

/-- `raise E(info)`: the command ends with the error as its response; nothing is saved, no handler
runs and no mode changes (60_exceptions.md R300, R307). -/
def State.raise (s : State) (e : Err) : State := { s with response := some (.error e) }

/-- End a command that changes no state with its result or its error. -/
def State.finish (s : State) (r : Except Err Result) : State :=
  match r with
  | .ok v => s.answer v
  | .error e => s.raise e

/-- Schema entry i with this name and its register, the first if several have it: "nm = name_i for some i". -/
def findSlot (nm : Name) : List Slot → Option (Nat × Slot)
  | [] => none
  | sl :: rest =>
    if sl.name = nm then some (0, sl)
    else match findSlot nm rest with
      | some (i, found) => some (i + 1, found)
      | none => none

/-- `FR[i] <- f` for schema entry i, whose slot is sl. -/
def State.putField (s : State) (i : Nat) (sl : Slot) (f : Field) : State :=
  { s with slots := s.slots.set i { sl with field := f } }

/-- A BitField register written with x; its prototype stays. -/
def Field.withBits (x : BitVal) : Field → Field
  | .bit layout d _ => .bit layout d x
  | .str s d sel val => .str s d sel val

/-- `SEL <- sel ; VAL <- v`; the prototype stays. -/
def Field.withString (sel : Selector) (v : Octets) : Field → Field
  | .bit layout d x => .bit layout d x
  | .str s d _ _ => .str s d sel v

/-- The reset value of a field register: its prototype's default (10_state.md R35). -/
def Field.reset (f : Field) : Field := f.proto.fresh

/-- Free values for the groups of a layout, each cut to its group's width, so within its register's
type (R192, I2). -/
def drawGroups (n i j : Nat) : List Nat → List Nat
  | [] => []
  | w :: ws => Config.freeGroup n i j % 2 ^ w :: drawGroups n i (j + 1) ws

/-- A free BitField value: Unset, or any Scalar or Tuple R26 allows for the layout. -/
def drawBits (n i : Nat) (layout : List Nat) : BitVal :=
  if Config.freeUnset n i then .unset
  else match layout with
    | [w] => .scalar (Config.freeGroup n i 0 % 2 ^ w)
    | ws => .tuple (drawGroups n i 0 ws)

/-- The register of schema entry i at the n-th draw: any value within its type (I2, I3). -/
def Field.draw (n i : Nat) : Field → Field
  | .bit layout d _ => .bit layout d (drawBits n i layout)
  | .str s d _ _ => .str s d (Config.freeSelector n i) (Config.freeOctets n i)

/-- Every slot's register drawn, the first slot being schema entry i. -/
def drawSlots (n i : Nat) : List Slot → List Slot
  | [] => []
  | sl :: rest => { sl with field := sl.field.draw n i } :: drawSlots n (i + 1) rest

/-- The unspecified state a failed DESERIALIZE leaves: VER and every field register drawn (R192). -/
def State.drawAll (s : State) : State :=
  { s with ver := Config.freeVersion s.draws, slots := drawSlots s.draws 0 s.slots, draws := s.draws + 1 }

/-- The unspecified state a failed FIELD_DESERIALIZE leaves: the register of schema entry i, whose
slot is sl, drawn, every other one unchanged (R233). -/
def State.drawField (s : State) (i : Nat) (sl : Slot) : State :=
  { s.putField i sl (sl.field.draw s.draws i) with draws := s.draws + 1 }

end Sys2Proof.Machine
end

