-- ==== Sys2Proof/Machine/BitField.lean ====
section
/-! DEFINITION. The bit-field packer/unpacker (40_bitfield.md): BF.SIZE, BF.PACK, BF.UNPACK, and which values a register of
a layout may hold (10_state.md R26). BF.CHECK and BF.VIEW are in Operands. -/

namespace Sys2Proof.Machine

/-- W, the total width of a layout in bits (30_encoding.md R73). -/
def layoutWidth : List Nat → Nat
  | [] => 0
  | w :: ws => w + layoutWidth ws

/-- BF.SIZE: B, the wire length in bytes (R101). -/
def bfSize (layout : List Nat) : Nat := layoutWidth layout / 8

/-- The groups of a register value, none when it is Unset (R102). -/
def BitVal.groups : BitVal → Option (List Nat)
  | .unset => none
  | .scalar v => some [v]
  | .tuple vs => some vs

/-- A Scalar for one group, a Tuple otherwise (R103, R106). -/
def BitVal.ofGroups : List Nat → BitVal
  | [v] => .scalar v
  | vs => .tuple vs

/-- The loop of BF.PACK: `V <- (V << w_j) | v_j` for each group, so group 1 ends up most significant (R102). -/
def packGroups (V : Nat) : List Nat → List Nat → Nat
  | w :: ws, v :: vs => packGroups ((V <<< w) ||| v) ws vs
  | _, _ => V

/-- The B bytes of V, least significant byte first (R102, R56). -/
def wireBytes (B V : Nat) : Octets := (List.range B).map (byteAt V)

/-- BF.PACK (R102). -/
def bfPack (layout : List Nat) (x : BitVal) (name : Name) : Except Err Octets :=
  match x.groups with
  | none => .error (.valueShape name .unset)
  | some vs => .ok (wireBytes (bfSize layout) (packGroups 0 layout vs))

/-- `V | (b[i] << 8i)` over all bytes, byte 0 least significant (R103). -/
def leNat : Octets → Nat
  | [] => 0
  | b :: bs => b.toNat ||| (leNat bs <<< 8)

/-- `v_j = V[lo_j + w_j - 1 : lo_j]` for each group, lo_j being the width of the groups after it (R73, R103). -/
def unpackGroups (V : Nat) : List Nat → List Nat
  | [] => []
  | w :: ws => bitSlice V (layoutWidth ws) w :: unpackGroups V ws

/-- BF.UNPACK: the value and the remainder (R103). -/
def bfUnpack (layout : List Nat) (b : Octets) (name : Name) : Except Err (BitVal × Octets) :=
  match memRead name b (bfSize layout) with
  | .error e => .error e
  | .ok (p, r) => .ok (.ofGroups (unpackGroups (leNat p) layout), r)

/-- Each value below 2 to the power of its group's width, and as many values as groups (R26). -/
def groupsFit : List Nat → List Nat → Bool
  | [], [] => true
  | w :: ws, v :: vs => decide (v < 2 ^ w) && groupsFit ws vs
  | _, _ => false

/-- The values a BitField register of this layout may hold (R26). -/
def BitVal.legal (layout : List Nat) : BitVal → Bool
  | .unset => true
  | .scalar v => decide (layout.length = 1) && groupsFit layout [v]
  | .tuple vs => decide (2 ≤ layout.length) && groupsFit layout vs

end Sys2Proof.Machine
end

