-- ==== Sys2Proof/Machine/StringCodec.lean ====
section
/-! DEFINITION. The four-encoding string codec (41_string_codec.md): sizes, the four payload encodings in both directions,
STR.SERIALIZE and STR.DESERIALIZE. STR.CHECK and STR.VIEW are in Operands. -/

namespace Sys2Proof.Machine

/-- `PAD(s, m)`: spaces appended until the length is a multiple of m (R130). -/
def pad (s : Octets) (m : Nat) : Octets := s ++ List.replicate ((m - s.length % m) % m) 0x20

/-- `bcd(c)`: the BCD_PLUS code of an octet, or none (R76, R130). -/
def bcd (c : Byte) : Option (BitVec 4) :=
  if 0x30 ≤ c.toNat ∧ c.toNat ≤ 0x39 then some (BitVec.ofNat 4 (c.toNat - 0x30))
  else if c = 0x20 then some 0xA
  else if c = 0x2D then some 0xB
  else if c = 0x2E then some 0xC
  else none

/-- `bcdchar(d)`: the octet of a BCD_PLUS code, or none for 0xD, 0xE and 0xF (R76, R130). -/
def bcdChar (d : BitVec 4) : Option Byte :=
  if d.toNat ≤ 9 then some (BitVec.ofNat 8 (0x30 + d.toNat))
  else if d = 0xA then some 0x20
  else if d = 0xB then some 0x2D
  else if d = 0xC then some 0x2E
  else none

/-- UPCASE: 'a'..'z' to 'A'..'Z', every other octet unchanged (R135). -/
def upcase (c : Byte) : Byte := if 0x61 ≤ c.toNat ∧ c.toNat ≤ 0x7A then c - 0x20 else c

/-- ENC_LEN: the encoded payload length (R131). -/
def encLen (sel : Selector) (s : Octets) : Nat :=
  match sel with
  | .bin => s.length
  | .bcdPlus => ceilDiv s.length 2
  | .ascii6 => 3 * ceilDiv s.length 4
  | .ascii8 => s.length

/-- STR.SIZE (R131). -/
def strSize (sel : Selector) (s : Octets) : Nat := 1 + encLen sel s

/-- ENC.BIN (R133). -/
def encBin (s : Octets) : Except Err Octets := .ok s

/-- One byte per pair of characters, the first in the more significant nibble (R134). -/
def packPairs : Octets → Octets
  | a :: b :: rest => nibbles ((bcd a).getD 0) ((bcd b).getD 0) :: packPairs rest
  | _ => []

/-- ENC.BCD: every character checked in string order, then the padded pairs (R134). -/
def encBcd (s : Octets) (name : Name) : Except Err Octets :=
  match firstBad (fun c => (bcd c).isSome) 0 s with
  | some (m, c) => .error (.lookupOctet name m c)
  | none => .ok (packPairs (pad s 2))

/-- Whether an octet has a 6-bit code after UPCASE (R136). -/
def has6BitCode (c : Byte) : Bool := decide (0x20 ≤ (upcase c).toNat) && decide ((upcase c).toNat ≤ 0x5F)

/-- One chunk: V <- k_0 | (k_1 << 6) | (k_2 << 12) | (k_3 << 18), least significant byte first (R136). -/
def pack6 (k0 k1 k2 k3 : Nat) : Octets :=
  let V := k0 ||| (k1 <<< 6) ||| (k2 <<< 12) ||| (k3 <<< 18)
  [byteAt V 0, byteAt V 1, byteAt V 2]

/-- The 6-bit code of an octet (R77). -/
def code6 (c : Byte) : Nat := c.toNat - 0x20

/-- Each 4-character chunk in 3 bytes (R136). -/
def packChunks : Octets → Octets
  | a :: b :: c :: d :: rest => pack6 (code6 a) (code6 b) (code6 c) (code6 d) ++ packChunks rest
  | _ => []

/-- ENC.6BIT: every character checked in string order, the error naming it as it was given; then the
upper-cased text padded to whole chunks (R136; 90_conflicts.md C1). -/
def enc6Bit (s : Octets) (name : Name) : Except Err Octets :=
  match firstBad has6BitCode 0 s with
  | some (m, c) => .error (.textCodecAt name m c)
  | none => .ok (packChunks (pad (s.map upcase) 4))

/-- ENC.8BIT (R137). -/
def enc8Bit (s : Octets) (name : Name) : Except Err Octets :=
  if textValid s then .ok s else .error (.textCodec name)

/-- The payload of a value under a selector (R140). -/
def encPayload (sel : Selector) (s : Octets) (name : Name) : Except Err Octets :=
  match sel with
  | .bin => encBin s
  | .bcdPlus => encBcd s name
  | .ascii6 => enc6Bit s name
  | .ascii8 => enc8Bit s name

/-- STR.SERIALIZE: the length is checked first, then the header and the payload (R140). -/
def strSerialize (sel : Selector) (s : Octets) (name : Name) : Except Err Octets :=
  let n := encLen sel s
  if n > Config.maxStrPayload then .error (.lookupLength name n)
  else match encPayload sel s name with
    | .error e => .error e
    | .ok p => .ok (headerByte sel (BitVec.ofNat 6 n) :: p)

/-- DEC.BIN (R143; 90_conflicts.md C3). -/
def decBin (p : Octets) (name : Name) : Except Err Octets :=
  if textValid p then .ok p else .error (.textCodec name)

/-- The loop of DEC.BCD from payload index j: the high nibble first (R144). -/
def decBcdFrom (name : Name) (j : Nat) : Octets → Except Err Octets
  | [] => .ok []
  | b :: bs =>
    match bcdChar (highNibble b) with
    | none => .error (.lookupNibble name j (highNibble b))
    | some hi =>
      match bcdChar (lowNibble b) with
      | none => .error (.lookupNibble name j (lowNibble b))
      | some lo =>
        match decBcdFrom name (j + 1) bs with
        | .error e => .error e
        | .ok cs => .ok (hi :: lo :: cs)

/-- DEC.BCD (R144). -/
def decBcd (p : Octets) (name : Name) : Except Err Octets := decBcdFrom name 0 p

/-- The character of the 6-bit field m of a chunk: `V[6m+5 : 6m] + 0x20` (R146). -/
def char6 (V m : Nat) : Byte := BitVec.ofNat 8 (bitSlice V (6 * m) 6 + 0x20)

/-- Each 3-byte chunk as 4 characters, in string order (R146). -/
def unpackChunks : Octets → Octets
  | a :: b :: c :: rest =>
    let V := a.toNat ||| (b.toNat <<< 8) ||| (c.toNat <<< 16)
    [char6 V 0, char6 V 1, char6 V 2, char6 V 3] ++ unpackChunks rest
  | _ => []

/-- DEC.6BIT (R146). -/
def dec6Bit (p : Octets) (name : Name) : Except Err Octets :=
  if p.length % 3 = 0 then .ok (unpackChunks p) else .error (.payloadShape name p.length)

/-- DEC.8BIT (R147). -/
def dec8Bit (p : Octets) (name : Name) : Except Err Octets :=
  if textValid p then .ok p else .error (.textCodec name)

/-- The value of a payload under a selector (R141). -/
def decPayload (sel : Selector) (p : Octets) (name : Name) : Except Err Octets :=
  match sel with
  | .bin => decBin p name
  | .bcdPlus => decBcd p name
  | .ascii6 => dec6Bit p name
  | .ascii8 => dec8Bit p name

/-- STR.DESERIALIZE once its header byte, still at the front of b, has been split into the selector
and the length n: the selector, the decoded value and the remainder (R141). -/
def strElement (name : Name) (sel : Selector) (n : Nat) (b : Octets) : Except Err (Selector × Octets × Octets) :=
  match memRead name b (1 + n) with
  | .error e => .error e
  | .ok (hp, r) =>
    match decPayload sel (hp.drop 1) name with
    | .error e => .error e
    | .ok s => .ok (sel, s, r)

/-- STR.DESERIALIZE (R141). -/
def strDeserialize (b : Octets) (name : Name) : Except Err (Selector × Octets × Octets) :=
  match b with
  | [] => .error (.truncated name 1 0)
  | h :: _ => strElement name (Selector.ofCode (headerSel h)) (headerLen h).toNat b

/-- NORM: what a value that serializes reads back as (R151). -/
def norm (sel : Selector) (s : Octets) : Octets :=
  match sel with
  | .bin => s
  | .bcdPlus => pad s 2
  | .ascii6 => pad (s.map upcase) 4
  | .ascii8 => s

end Sys2Proof.Machine
end

