-- ==== Sys2Proof/Machine/Operands.lean ====
section
/-! DEFINITION. Operands: resolving a name operand to a register (43_record_access.md R220), and converting a value operand
to a register value and back: BF.CHECK, BF.VIEW, STR.CHECK, STR.VIEW (40_bitfield.md, 41_string_codec.md). -/

namespace Sys2Proof.Machine

/-- What a name resolves to (R220). -/
inductive Target where
  /-- VERSION: the format-version register -/
  | version
  /-- AREA: the area_length register, schema entry i with slot sl, whose one group has w bits and
  whose value is x -/
  | area (i : Nat) (sl : Slot) (w : Nat) (x : BitVal)
  /-- FIELD(i): schema entry i with slot sl -/
  | field (i : Nat) (sl : Slot)
deriving DecidableEq, Repr

/-- `AL`, when SCHEMA has a one-group BitField named area_length (R28): its index, its slot, the
width of its group and its value. A schema where it has another shape gives no block (R352). -/
def State.areaEntry (s : State) : Option (Nat × Slot × Nat × BitVal) :=
  match findSlot nameAreaLength s.slots with
  | some (i, sl) =>
    match sl.field with
    | .bit [w] _ x => some (i, sl, w, x)
    | _ => none
  | none => none

/-- RESOLVE (R220): the special accessors come first. -/
def resolve (nm : Name) (s : State) : Except Err Target :=
  if nm = nameFormatVersion then .ok .version
  else if nm = nameAreaLength then
    match s.areaEntry with
    | some (i, sl, w, x) => .ok (.area i sl w x)
    | none => .error (.unknownField nm)
  else
    match findSlot nm s.slots with
    | some (i, sl) => .ok (.field i sl)
    | none => .error (.unknownField nm)

/-- `0 <= z < 2^w` (R104). -/
def intFits (w : Nat) (z : Int) : Bool := decide (0 ≤ z) && decide (z < 2 ^ w)

/-- As many integers as groups, each within its group's range (R104). -/
def intsFit : List Nat → List Int → Bool
  | [], [] => true
  | w :: ws, z :: zs => intFits w z && intsFit ws zs
  | _, _ => false

/-- BF.CHECK: an Int for one group, a List of exactly k integers for k groups, each in range (R104). -/
def bfCheck (layout : List Nat) (e : ExtValue) (name : Name) : Except Err BitVal :=
  match layout, e with
  | [w], .int z => if intFits w z then .ok (.scalar z.toNat) else .error (.valueShape name (.value e))
  | [_], _ => .error (.valueShape name (.value e))
  | ws, .list zs => if intsFit ws zs then .ok (.tuple (zs.map Int.toNat)) else .error (.valueShape name (.value e))
  | _, _ => .error (.valueShape name (.value e))

/-- BF.VIEW (R105). -/
def bfView (x : BitVal) (name : Name) : Except Err ExtValue :=
  match x with
  | .unset => .error (.valueShape name .unset)
  | .scalar v => .ok (.int v)
  | .tuple vs => .ok (.list (vs.map Int.ofNat))

/-- STR.CHECK: any octet sequence of any length (R148). -/
def strCheck (e : ExtValue) (name : Name) : Except Err Octets :=
  match e with
  | .str s => .ok s
  | _ => .error (.valueShape name (.value e))

/-- STR.VIEW: the selector is not part of the external value (R149). -/
def strView (val : Octets) : ExtValue := .str val

/-- The external value of a field register (R221, case FIELD). -/
def Slot.view (sl : Slot) : Except Err ExtValue :=
  match sl.field with
  | .bit _ _ x => bfView x sl.name
  | .str _ _ _ val => .ok (strView val)

/-- The field register after SET with this value (R225, R226). -/
def Slot.check (sl : Slot) (e : ExtValue) : Except Err Field :=
  match sl.field with
  | .bit layout d _ =>
    match bfCheck layout e sl.name with
    | .ok x => .ok (.bit layout d x)
    | .error err => .error err
  | .str s d sel _ =>
    match strCheck e sl.name with
    | .ok v => .ok (.str s d sel v)
    | .error err => .error err

end Sys2Proof.Machine
end

