-- ==== Sys2Proof/Machine/Record.lean ====
section
/-! DEFINITION. The record serializer (42_record_framing.md): FSIZE, FSER, the epilogue, and the meanings of SIZE_PAYLOAD,
SIZE_TOTAL, SERIALIZE and DESERIALIZE. -/

namespace Sys2Proof.Machine

/-- FSIZE(i) (R180). -/
def Slot.size (sl : Slot) : Nat :=
  match sl.field with
  | .bit layout _ _ => bfSize layout
  | .str _ _ sel val => strSize sel val

/-- FSER(i) (R180). -/
def Slot.serialize (sl : Slot) : Except Err Octets :=
  match sl.field with
  | .bit layout _ x => bfPack layout x sl.name
  | .str _ _ sel val => strSerialize sel val sl.name

/-- Schema entry i read from the front of b: its slot with the new register, and the remainder (R190, R233). -/
def Slot.parse (sl : Slot) (b : Octets) : Except Err (Slot × Octets) :=
  match sl.field with
  | .bit layout d _ =>
    match bfUnpack layout b sl.name with
    | .error e => .error e
    | .ok (x, r) => .ok ({ sl with field := .bit layout d x }, r)
  | .str s d _ _ =>
    match strDeserialize b sl.name with
    | .error e => .error e
    | .ok (sel, v, r) => .ok ({ sl with field := .str s d sel v }, r)

/-- PROLOGUE: `(0 << 4) | VER` (R80, R180). -/
def prologueByte (ver : BitVec 4) : Byte := nibbles 0 ver

/-- `PAD_COUNT(L) = (-(L + 1)) mod 8` (R180). -/
def padCount (L : Nat) : Nat := ((-((L : Int) + 1)) % (Config.recordAlign : Int)).toNat

/-- `CHECKSUM(p) = (-sum(p)) mod 256` (R180). -/
def checksum (p : Octets) : Byte := BitVec.ofInt 8 (-(octetSum p : Int))

/-- `EPILOGUE(p) = zeros(PAD_COUNT(|p|)) ++ [CHECKSUM(p)]` (R180, R185). -/
def epilogue (p : Octets) : Octets := zeros (padCount p.length) ++ [checksum p]

/-- `FSIZE(0) + ... + FSIZE(n-1)` (R181). -/
def slotsSize : List Slot → Nat
  | [] => 0
  | sl :: rest => sl.size + slotsSize rest

/-- SIZE_PAYLOAD's value (R181). -/
def State.sizePayload (s : State) : Nat := 1 + slotsSize s.slots

/-- SIZE_TOTAL's value (R182). -/
def State.sizeTotal (s : State) : Nat := roundUp8 (s.sizePayload + 1)

/-- The fields' bytes in schema order, or the first error (R183). -/
def serializeSlots : List Slot → Except Err Octets
  | [] => .ok []
  | sl :: rest =>
    match sl.serialize with
    | .error e => .error e
    | .ok b =>
      match serializeSlots rest with
      | .error e => .error e
      | .ok bs => .ok (b ++ bs)

/-- SERIALIZE's first part: `FR[AL] <- Scalar(T div 8)` when AL exists, after its range check (R183, R186). -/
def State.updateArea (s : State) : Except Err State :=
  match s.areaEntry with
  | none => .ok s
  | some (i, sl, w, _) =>
    let u := s.sizeTotal / 8
    if u ≥ 2 ^ w then .error (.valueShape nameAreaLength (.number u))
    else .ok (s.putField i sl (sl.field.withBits (.scalar u)))

/-- SERIALIZE's second part: prologue, fields and epilogue, no register written (R183, R81). -/
def State.recordBytes (s : State) : Except Err Octets :=
  match serializeSlots s.slots with
  | .error e => .error e
  | .ok fs =>
    let p := prologueByte s.ver :: fs
    .ok (p ++ epilogue p)

/-- What a SERIALIZE that fails after the area_length update leaves: FR[AL] as it was in `s`, or as
updated in `s1`, which one being free; nothing else differs (R187, I4; log entry 6). -/
def State.afterFailedSerialize (s s1 : State) : State :=
  if Config.freeKeepsArea s.draws then { s with draws := s.draws + 1 } else { s1 with draws := s.draws + 1 }

/-- `for i = 0..n-1` of DESERIALIZE: every schema entry read in order, with the remainder (R190). -/
def parseSlots : List Slot → Octets → Except Err (List Slot × Octets)
  | [], b => .ok ([], b)
  | sl :: rest, b =>
    match sl.parse b with
    | .error e => .error e
    | .ok (sl', r) =>
      match parseSlots rest r with
      | .error e => .error e
      | .ok (rest', r') => .ok (sl' :: rest', r')

/-- The epilogue check: the bytes after the fields, as far as they go, against the recomputed
epilogue; the remainder after it, or ChecksumOrPaddingError (R190, R191). -/
def checkEpilogue (consumed r : Octets) : Except Err Octets :=
  let exp := epilogue consumed
  let rcv := r.take exp.length
  if rcv = exp then .ok (r.drop exp.length) else .error (.checksumOrPadding exp rcv)

/-- SIZE_PAYLOAD (R181). -/
def execSizePayload (s : State) : Out := .next (s.answer (.natural s.sizePayload))

/-- SIZE_TOTAL (R182). -/
def execSizeTotal (s : State) : Out := .next (s.answer (.natural s.sizeTotal))

/-- SERIALIZE (R183, R186, R187). -/
def execSerialize (s : State) : Out :=
  match s.updateArea with
  | .error e => .next (s.raise e)
  | .ok s1 =>
    match s1.recordBytes with
    | .error e => .next ((s.afterFailedSerialize s1).raise e)
    | .ok out => .next (s1.answer (.bytes out))

/-- DESERIALIZE (R190 to R194): every register loaded and the remainder returned, or the error, with
every register unspecified (R192). -/
def execDeserialize (buf : Octets) (s : State) : Out :=
  match buf with
  | [] => .next (s.drawAll.raise (.truncated namePrologue 1 0))
  | h :: body =>
    match parseSlots s.slots body with
    | .error e => .next (s.drawAll.raise e)
    | .ok (slots', r) =>
      match checkEpilogue (buf.take (buf.length - r.length)) r with
      | .error e => .next (s.drawAll.raise e)
      | .ok remainder =>
        .next ({ s with ver := lowNibble h, slots := slots' }.answer (.bytes remainder))

end Sys2Proof.Machine
end

