-- ==== Sys2Proof/Machine/Access.lean ====
section
/-! DEFINITION. The accessor commands and RESET (43_record_access.md): the meanings of RESET, GET, SET, CONTAINS, UPDATE and
TO_DICT. -/

namespace Sys2Proof.Machine

/-- GET's value (R221). -/
def getValue (nm : Name) (s : State) : Except Err ExtValue :=
  match resolve nm s with
  | .error e => .error e
  | .ok .version => .ok (.int s.ver.toNat)
  | .ok (.area _ _ _ (.scalar v)) => .ok (.int (8 * v))
  | .ok (.area _ _ _ _) => .error (.valueShape nameAreaLength .unset)
  | .ok (.field _ sl) => sl.view

/-- SET.VERSION (R223). -/
def setVersion (e : ExtValue) (s : State) : Except Err State :=
  match e with
  | .int z => if 0 ≤ z ∧ z ≤ 15 then .ok { s with ver := BitVec.ofInt 4 z } else .error (.valueShape nameFormatVersion (.value e))
  | _ => .error (.valueShape nameFormatVersion (.value e))

/-- SET.AREA: the type first, then alignment, then the range (R224). -/
def setArea (i : Nat) (sl : Slot) (w : Nat) (e : ExtValue) (s : State) : Except Err State :=
  match e with
  | .int z =>
    if z % 8 ≠ 0 then .error (.fieldAlignment nameAreaLength z)
    else if z / 8 < 0 ∨ z / 8 ≥ 2 ^ w then .error (.valueShape nameAreaLength (.number z))
    else .ok (s.putField i sl (sl.field.withBits (.scalar (z / 8).toNat)))
  | _ => .error (.valueShape nameAreaLength (.value e))

/-- SET's effect: the state with the one register written, or the error (R222). -/
def setValue (nm : Name) (e : ExtValue) (s : State) : Except Err State :=
  match resolve nm s with
  | .error err => .error err
  | .ok .version => setVersion e s
  | .ok (.area i sl w _) => setArea i sl w e s
  | .ok (.field i sl) =>
    match sl.check e with
    | .error err => .error err
    | .ok f => .ok (s.putField i sl f)

/-- UPDATE's loop: the state the applied entries give, and the error of the first entry that fails (R228). -/
def updateAll : Mapping → State → State × Option Err
  | [], s => (s, none)
  | (nm, e) :: rest, s =>
    match setValue nm e s with
    | .error err => (s, some err)
    | .ok s' => updateAll rest s'

/-- `(name_i, GET(name_i))` for each name, or the first error (R229). -/
def getAll (s : State) : List Name → Except Err Mapping
  | [] => .ok []
  | nm :: rest =>
    match getValue nm s with
    | .error e => .error e
    | .ok v =>
      match getAll s rest with
      | .error e => .error e
      | .ok m => .ok ((nm, v) :: m)

/-- Every register at its reset value (R35, R230). -/
def State.resetRegisters (s : State) : State :=
  { s with ver := Config.defaultVersion, slots := s.slots.map fun sl => { sl with field := sl.field.reset } }

/-- Whether a name is recognised (R227). -/
def recognised (nm : Name) (s : State) : Bool :=
  decide (nm = nameFormatVersion) || decide (nm = nameAreaLength) || (findSlot nm s.slots).isSome

/-- RESET (R230). -/
def execReset (s : State) : Out := .next (s.resetRegisters.answer .none)

/-- GET (R221). -/
def execGet (nm : Name) (s : State) : Out := .next (s.finish ((getValue nm s).map Result.value))

/-- SET (R222): a failed SET changes no register. -/
def execSet (nm : Name) (e : ExtValue) (s : State) : Out :=
  match setValue nm e s with
  | .error err => .next (s.raise err)
  | .ok s' => .next (s'.answer .none)

/-- CONTAINS (R227). -/
def execContains (nm : Name) (s : State) : Out := .next (s.answer (.flag (recognised nm s)))

/-- UPDATE (R228). -/
def execUpdate (m : Mapping) (s : State) : Out :=
  match updateAll m s with
  | (s', some err) => .next (s'.raise err)
  | (s', none) => .next (s'.answer .none)

/-- TO_DICT (R229). -/
def execToDict (s : State) : Out :=
  .next (s.finish ((getAll s (s.slots.map Slot.name)).map Result.mapping))

end Sys2Proof.Machine
end

