-- ==== Sys2Proof/Machine/FieldCommands.lean ====
section
/-! DEFINITION. The field-level commands (43_record_access.md R231 to R233): the meanings of FIELD_SIZE, FIELD_SERIALIZE and
FIELD_DESERIALIZE. They take schema names only: "area_length" names the raw field, "format_version" none (D3). -/

namespace Sys2Proof.Machine

/-- FIELD_SIZE (R231). -/
def execFieldSize (nm : Name) (s : State) : Out :=
  match findSlot nm s.slots with
  | none => .next (s.raise (.unknownField nm))
  | some (_, sl) => .next (s.answer (.natural sl.size))

/-- FIELD_SERIALIZE (R232). -/
def execFieldSerialize (nm : Name) (s : State) : Out :=
  match findSlot nm s.slots with
  | none => .next (s.raise (.unknownField nm))
  | some (_, sl) => .next (s.finish (sl.serialize.map Result.bytes))

/-- FIELD_DESERIALIZE (R233): on a decode error the named register is unspecified. -/
def execFieldDeserialize (nm : Name) (buf : Octets) (s : State) : Out :=
  match findSlot nm s.slots with
  | none => .next (s.raise (.unknownField nm))
  | some (i, sl) =>
    match sl.parse buf with
    | .error e => .next ((s.drawField i sl).raise e)
    | .ok (sl', r) => .next ((s.putField i sl sl'.field).answer (.bytes r))

end Sys2Proof.Machine
end

