-- ==== Sys2Proof/Machine/Wire.lean ====
section
/-! DEFINITION. The wire elements: what the engine does, inside a DESERIALIZE or FIELD_DESERIALIZE, with the next bytes of its
IN buffer, one element at a time (10_state.md R33, 20_memory.md R63, 42_record_framing.md R190); the meanings of the prologue
byte and of the four string header bytes. The commands themselves are atomic (R53) and leave no transfer open (R34). -/

namespace Sys2Proof.Machine

/-- What the engine wants at the place where its open transfer stands (R190). -/
inductive Wanted where
  /-- no transfer is open -/
  | nothing
  /-- the prologue byte of the record -/
  | prologue (t : Xfer)
  /-- the header byte and payload of the string entry in slot sl -/
  | header (t : Xfer) (sl : Slot)
  /-- the bytes of the BitField entry in slot sl -/
  | bits (t : Xfer) (sl : Slot)
  /-- the padding and checksum of the record -/
  | epilogue (t : Xfer)
  /-- a FIELD_DESERIALIZE of an entry the schema does not have: no run reaches it -/
  | astray
deriving DecidableEq, Repr

/-- What the open transfer wants next: the prologue, then each entry in schema order, then the
epilogue; a FIELD_DESERIALIZE wants its one entry (R190, R233). -/
def State.wanted (s : State) : Wanted :=
  match s.xfer with
  | none => .nothing
  | some t =>
    if t.span = .record ∧ t.cur = 0 then .prologue t
    else match s.slots[t.entry]? with
      | some sl =>
        match sl.field with
        | .bit _ _ _ => .bits t sl
        | .str _ _ _ _ => .header t sl
      | none =>
        match t.span with
        | .record => .epilogue t
        | .field => .astray

/-- Begin a DESERIALIZE: its transient state before the prologue (R33). -/
def State.openRecord (s : State) (buf : Octets) : State := { s with xfer := some ⟨.record, buf, 0, 0⟩ }

/-- Begin a FIELD_DESERIALIZE of schema entry i. -/
def State.openField (s : State) (buf : Octets) (i : Nat) : State := { s with xfer := some ⟨.field, buf, 0, i⟩ }

/-- The command of an open transfer ends with an error: the transfer is gone, and what the command
wrote is unspecified (R192 for a record, R233 for the entry in slot sl of a field). -/
def failTransfer (t : Xfer) (sl : Option Slot) (e : Err) (s : State) : State :=
  match t.span, sl with
  | .record, _ => { s.drawAll.raise e with xfer := none }
  | .field, some sl => { (s.drawField t.entry sl).raise e with xfer := none }
  | .field, none => { s.raise e with xfer := none }

/-- The entry's bytes are consumed, r being the remainder: a record goes on to the next entry; a
FIELD_DESERIALIZE ends and returns the remainder (R190, R233). -/
def advanceTransfer (t : Xfer) (r : Octets) (s : State) : State :=
  match t.span with
  | .record => { s with xfer := some { t with cur := t.input.length - r.length, entry := t.entry + 1 } }
  | .field => { s.answer (.bytes r) with xfer := none }

/-- A string field whose header byte is next: its payload is read and decoded, SEL and VAL written
(R141, R190, R233). -/
def stringElement (sel : Selector) (len : BitVec 6) (s : State) : Out :=
  match s.wanted with
  | .header t sl =>
    match strElement sl.name sel len.toNat t.rest with
    | .error e => .next (failTransfer t (some sl) e s)
    | .ok (sel', v, r) => .next (advanceTransfer t r (s.putField t.entry sl (sl.field.withString sel' v)))
  | .nothing => .fault .noTransfer
  | _ => .fault .misplacedElement

/-- STR.BIN (R141, R143). -/
def execStrBin (len : BitVec 6) (s : State) : Out := stringElement .bin len s

/-- STR.BCD_PLUS (R141, R144). -/
def execStrBcdPlus (len : BitVec 6) (s : State) : Out := stringElement .bcdPlus len s

/-- STR.ASCII_6BIT (R141, R146). -/
def execStrAscii6 (len : BitVec 6) (s : State) : Out := stringElement .ascii6 len s

/-- STR.ASCII_8BIT (R141, R147). -/
def execStrAscii8 (len : BitVec 6) (s : State) : Out := stringElement .ascii8 len s

/-- PROLOGUE: `VER <- IN[0][3:0] ; cur <- 1`, the reserved nibble ignored (R80, R190, D16). -/
def execPrologue (_reserved : BitVec 4) (version : BitVec 4) (s : State) : Out :=
  match s.wanted with
  | .prologue t => .next { s with ver := version, xfer := some { t with cur := 1 } }
  | .nothing => .fault .noTransfer
  | _ => .fault .misplacedElement

/-- A BitField of the open transfer: its B bytes are read and FR[i] written (R103, R190, R233). It has
no opcode: its layout says all (R85). -/
def bitsElement (t : Xfer) (sl : Slot) (s : State) : Out :=
  match sl.parse t.rest with
  | .error e => .next (failTransfer t (some sl) e s)
  | .ok (sl', r) => .next (advanceTransfer t r (s.putField t.entry sl sl'.field))

/-- The epilogue of the open transfer: checked, and the command ends (R190, R191). -/
def epilogueElement (t : Xfer) (s : State) : Out :=
  match checkEpilogue t.consumed t.rest with
  | .error e => .next (failTransfer t none e s)
  | .ok remainder => .next { s.answer (.bytes remainder) with xfer := none }

end Sys2Proof.Machine
end

