-- ==== Sys2Proof/Machine/Dispatch.lean ====
section
/-! DEFINITION. Dispatch: one arm per constructor of Instr, each one direct call of its meaning. -/

namespace Sys2Proof.Machine

def exec (i : Instr) (s : State) : Host.Outcome State Fault Refusal :=
  match i with
  | .reset => Sys2Proof.Machine.execReset s
  | .get nm => Sys2Proof.Machine.execGet nm s
  | .set nm e => Sys2Proof.Machine.execSet nm e s
  | .contains nm => Sys2Proof.Machine.execContains nm s
  | .update m => Sys2Proof.Machine.execUpdate m s
  | .toDict => Sys2Proof.Machine.execToDict s
  | .sizePayload => Sys2Proof.Machine.execSizePayload s
  | .sizeTotal => Sys2Proof.Machine.execSizeTotal s
  | .serialize => Sys2Proof.Machine.execSerialize s
  | .deserialize buf => Sys2Proof.Machine.execDeserialize buf s
  | .fieldSize nm => Sys2Proof.Machine.execFieldSize nm s
  | .fieldSerialize nm => Sys2Proof.Machine.execFieldSerialize nm s
  | .fieldDeserialize nm buf => Sys2Proof.Machine.execFieldDeserialize nm buf s
  | .strBin len => Sys2Proof.Machine.execStrBin len s
  | .strBcdPlus len => Sys2Proof.Machine.execStrBcdPlus len s
  | .strAscii6 len => Sys2Proof.Machine.execStrAscii6 len s
  | .strAscii8 len => Sys2Proof.Machine.execStrAscii8 len s
  | .prologue r v => Sys2Proof.Machine.execPrologue r v s

end Sys2Proof.Machine
end

