-- ==== Sys2Proof/Machine/SchemaCheck.lean ====
section
/-! DEFINITION. Instantiation: CHECK_SCHEMA (70_reset_and_hazards.md R352) and the block it gives (R305, R350, R353). -/

namespace Sys2Proof.Machine

/-- The checks on one BitField prototype, in order (R352). -/
def checkBitProto (name : Name) (layout : List Nat) (d : BitVal) : Option Err :=
  if layout = [] ∨ 0 ∈ layout then some (.schema name .emptyLayoutOrZeroWidthGroup)
  else if layoutWidth layout % 8 ≠ 0 then some (.bitAlignment name (layoutWidth layout))
  else if name = nameAreaLength ∧ layout.length ≠ 1 then some (.schema name .areaLengthMustHaveOneGroup)
  else if d.legal layout then none
  else some (.schema name .illegalDefault)

/-- The checks on one entry, given the names of the entries before it (R352). -/
def checkEntry (before : List Name) (e : Entry) : Option Err :=
  if e.name = nameFormatVersion then some (.schema e.name .reservedName)
  else if e.name ∈ before then some (.schema e.name .duplicateName)
  else match e.proto with
    | .bit layout d => checkBitProto e.name layout d
    | .str _ _ => if e.name = nameAreaLength then some (.schema e.name .areaLengthMustBeBitField) else none

/-- CHECK_SCHEMA from one entry on: the first failure, if any (R352). -/
def checkSchemaFrom (before : List Name) : Schema → Option Err
  | [] => none
  | e :: rest =>
    match checkEntry before e with
    | some err => some err
    | none => checkSchemaFrom (before ++ [e.name]) rest

/-- CHECK_SCHEMA: the error that refuses the instantiation, or none (R352). -/
def checkSchema (sc : Schema) : Option Err := checkSchemaFrom [] sc

/-- Instantiate the block and power it on: the reset state, or the error that refuses it, with which
no block exists (R305, R350, R353). -/
def instantiate (sc : Schema) : Except Err State :=
  match checkSchema sc with
  | some err => .error err
  | none => .ok (State.powerOn sc)

end Sys2Proof.Machine
end

