-- ==== Sys2Proof/Machine/Fetch.lean ====
section
/-! DEFINITION. Fetch: what the block does next. There is no program counter (10_state.md R24): the host issues commands one
at a time (R50); inside a deserializing command the next element comes from its IN buffer (R190). -/

namespace Sys2Proof.Machine

/-- What a step does: run an instruction in a state, or an outcome that is no instruction's. -/
inductive Fetched where
  | run (i : Instr) (s : State)
  | direct (o : Out)

/-- The next command, when no transfer is open. None is issued: the block waits (log entry 8). An
opcode not in R72: IllegalCommandError, and no register changes (R234). -/
def fetchCommand (s : State) : Fetched :=
  match s.pending with
  | [] => .direct (.next s)
  | c :: rest =>
    match decode ⟨.command, c.op, c.operands⟩ with
    | .ok i => .run i { s with pending := rest }
    | .error (.illegalOpcode op) => .direct (.next ({ s with pending := rest }.raise (.illegalCommand op)))

/-- A byte the open transfer reads in format f: the instruction it stands for. -/
def fetchByte (f : Format) (b : Byte) (s : State) : Fetched :=
  match decode ⟨f, b, {}⟩ with
  | .ok i => .run i s
  | .error (.illegalOpcode op) => .direct (.next (s.raise (.illegalCommand op)))

/-- What the block does next in a state whose SCHEMA is legal. -/
def fetchNext (s : State) : Fetched :=
  match s.wanted with
  | .nothing => fetchCommand s
  | .prologue t =>
    match t.rest with
    | [] => .direct (.next (failTransfer t none (.truncated namePrologue 1 0) s))
    | b :: _ => fetchByte .recordPrologue b s
  | .header t sl =>
    match t.rest with
    | [] => .direct (.next (failTransfer t (some sl) (.truncated sl.name 1 0) s))
    | b :: _ => fetchByte .stringHeader b s
  | .bits t sl => .direct (bitsElement t sl s)
  | .epilogue t => .direct (epilogueElement t s)
  | .astray => .direct (.fault .misplacedElement)

/-- What the block does next; with a SCHEMA that CHECK_SCHEMA refuses there is no block (R305). -/
def fetch (s : State) : Fetched :=
  match checkSchema s.schema with
  | some e => .direct (.refused (.schemaRejected e))
  | none => fetchNext s

/-- The command the host would issue for an encoded instruction of the command format (R70). -/
def Encoding.toCommand (e : Encoding) : Command := ⟨e.byte, e.operands⟩

/-- The host's program: these commands, to be issued in this order (R50, R235; log entry 7). -/
def State.issue (s : State) (is : List Instr) : State :=
  { s with pending := s.pending ++ is.map fun i => Encoding.toCommand (encode i) }

/-- CONSTRUCT, the pseudo-command: RESET followed by UPDATE (30_encoding.md R87). -/
def construct (m : Mapping) : List Instr := [.reset, .update m]

/-- ROUNDTRIP, the pseudo-command, is SERIALIZE and then this: the DESERIALIZE of the bytes that
SERIALIZE returned, which the host carries over (R87). -/
def roundtripSecond (r : Response) : Option Instr :=
  match r with
  | .ok (.bytes b) => some (.deserialize b)
  | _ => none

/-- The index of the first string entry, counted from k. -/
def firstString (k : Nat) : List Slot → Option Nat
  | [] => none
  | sl :: rest =>
    match sl.field with
    | .str _ _ _ _ => some k
    | .bit _ _ _ => firstString (k + 1) rest

/-- A string entry under a name that no other entry has. -/
def spareString (slots : List Slot) : Slot :=
  ⟨List.replicate ((slots.map fun sl => sl.name.length).foldl (· + ·) 0 + 1) 0x78, .str .bin [] .bin []⟩

/-- A FIELD_DESERIALIZE of the first string entry is running and its IN buffer holds the header byte
b and zeros for the payload; a block without a string entry is given one (log entry 13). -/
def State.withHeader (s : State) (b : Byte) : State :=
  let buf := b :: zeros (headerLen b).toNat
  match firstString 0 s.slots with
  | some i => s.openField buf i
  | none => { s with slots := s.slots ++ [spareString s.slots] }.openField buf s.slots.length

end Sys2Proof.Machine
end

