-- ==== Sys2Proof/Machine/Step.lean ====
section
/-! DEFINITION. The step: one command, or one wire element of a command that is running; and the host's way to place an
instruction where the next step fetches it. -/

namespace Sys2Proof.Machine

/-- One step (20_memory.md R50). -/
def step (s : State) : Host.Outcome State Fault Refusal :=
  match fetch s with
  | .run i s' => exec i s'
  | .direct o => o

/-- `s` with the table word w stored where `step` fetches its next instruction: a command as the one
the host issues next; a prologue byte as the IN buffer of a DESERIALIZE that begins; a string header
as that of a FIELD_DESERIALIZE that begins (log entries 11 and 13). -/
def State.withFetchWord (s : State) (_nbits w : Nat) : State :=
  let b : Byte := BitVec.ofNat 8 w
  match tableFormat b with
  | .command => { s with xfer := none, pending := ⟨b, {}⟩ :: s.pending }
  | .recordPrologue => s.openRecord [b]
  | .stringHeader => s.withHeader b

end Sys2Proof.Machine
end

