-- ==== Sys2Proof/Machine/CommandText.lean ====
section
/-! DEFINITION. The written form of commands (30_encoding.md R86): one command a line, the mnemonic and its operands, as ASCII
octets; and the two pseudo-commands (R87). What R86 does not say is in log entry 16. -/

namespace Sys2Proof.Machine

/-- The value of a hexadecimal digit. -/
def hexDigit (c : Byte) : Option Nat :=
  let n := c.toNat
  if 0x30 ≤ n ∧ n ≤ 0x39 then some (n - 0x30)
  else if 0x41 ≤ n ∧ n ≤ 0x46 then some (n - 0x41 + 10)
  else if 0x61 ≤ n ∧ n ≤ 0x66 then some (n - 0x61 + 10)
  else none

/-- The value of a decimal digit. -/
def decDigit (c : Byte) : Option Nat :=
  let n := c.toNat
  if 0x30 ≤ n ∧ n ≤ 0x39 then some (n - 0x30) else none

/-- Digits in a base, most significant first, added to the value `acc` of those before them. -/
def digitsFrom (digit : Byte → Option Nat) (base acc : Nat) : Octets → Option Nat
  | [] => some acc
  | c :: cs =>
    match digit c with
    | some d => digitsFrom digit base (acc * base + d) cs
    | none => none

/-- A decimal or `0x` natural, at least one digit long. -/
def readNat (w : Octets) : Option Nat :=
  if w.take 2 = ascii "0x" then
    if w.length = 2 then none else digitsFrom hexDigit 16 0 (w.drop 2)
  else if w = [] then none
  else digitsFrom decDigit 10 0 w

/-- A decimal or `0x` integer, optionally with a leading '-' (R86). -/
def readInt (w : Octets) : Option Int :=
  match w with
  | [] => none
  | c :: cs => if c = 0x2D then (readNat cs).map fun n => -(n : Int) else (readNat w).map Int.ofNat

/-- Letters, digits and '_': the characters of a name (R86). -/
def isNameChar (c : Byte) : Bool :=
  let n := c.toNat
  (0x30 ≤ n && n ≤ 0x39) || (0x41 ≤ n && n ≤ 0x5A) || (0x61 ≤ n && n ≤ 0x7A) || n == 0x5F

/-- A name (R86). -/
def readName (w : Octets) : Option Name := if w ≠ [] ∧ w.all isNameChar then some w else none

/-- The tokens of a command line. -/
inductive Token where
  /-- a run of letters, digits, '_' and '-' -/
  | word (w : Octets)
  /-- a "..." literal -/
  | text (s : Octets)
  /-- an h"..." literal -/
  | hex (b : Octets)
  /-- one of the marks , : and the square and curly brackets -/
  | mark (c : Byte)
deriving DecidableEq, Repr

/-- The inside of a "..." literal and what follows it: ASCII octets, and `\xHH` for any octet (R86). -/
def readText : Octets → Option (Octets × Octets)
  | [] => none
  | c :: cs =>
    if c = 0x22 then some ([], cs)
    else if c = 0x5C then
      match cs with
      | x :: hi :: lo :: rest =>
        match hexDigit hi, hexDigit lo, readText rest with
        | some a, some b, some (s, r) => if x = 0x78 then some (BitVec.ofNat 8 (16 * a + b) :: s, r) else none
        | _, _, _ => none
      | _ => none
    else if c.toNat < 0x80 then
      match readText cs with
      | some (s, r) => some (c :: s, r)
      | none => none
    else none

/-- The inside of an h"..." literal and what follows it: hexadecimal byte pairs separated by spaces
(R86). That h"" may be written, for no bytes, is the model's choice (log entry 16). -/
def readHex : Octets → Option (Octets × Octets)
  | [] => none
  | c :: cs =>
    if c = 0x22 then some ([], cs)
    else if c = 0x20 then readHex cs
    else
      match cs with
      | lo :: sep :: rest =>
        match hexDigit c, hexDigit lo with
        | some a, some b =>
          if sep = 0x22 then some ([BitVec.ofNat 8 (16 * a + b)], rest)
          else if sep = 0x20 then
            match readHex rest with
            | some (bs, r) => some (BitVec.ofNat 8 (16 * a + b) :: bs, r)
            | none => none
          else none
        | _, _ => none
      | _ => none

/-- Whether an octet may stand in a word. -/
def isWordChar (c : Byte) : Bool := isNameChar c || c == 0x2D

/-- The marks: ',' ':' and the brackets. -/
def isMark (c : Byte) : Bool :=
  c == 0x2C || c == 0x3A || c == 0x5B || c == 0x5D || c == 0x7B || c == 0x7D

/-- The tokens of a line: blanks separate them, and ';' begins a comment. Every token takes at least
one octet, so the line's length is fuel enough. -/
def tokens : Nat → Octets → Option (List Token)
  | _, [] => some []
  | 0, _ :: _ => none
  | fuel + 1, c :: cs =>
    if c = 0x20 ∨ c = 0x09 then tokens fuel cs
    else if c = 0x3B then some []
    else if c = 0x22 then
      match readText cs with
      | some (s, r) => (tokens fuel r).map (Token.text s :: ·)
      | none => none
    else if c = 0x68 ∧ cs.head? = some 0x22 then
      match readHex (cs.drop 1) with
      | some (b, r) => (tokens fuel r).map (Token.hex b :: ·)
      | none => none
    else if isWordChar c then
      (tokens fuel (cs.dropWhile isWordChar)).map (Token.word (c :: cs.takeWhile isWordChar) :: ·)
    else if isMark c then (tokens fuel cs).map (Token.mark c :: ·)
    else none

/-- The integers of a list after its first, and what follows the list. -/
def moreInts : List Token → Option (List Int × List Token)
  | .mark m :: rest =>
    if m = 0x5D then some ([], rest)
    else if m = 0x2C then
      match rest with
      | .word w :: rest' =>
        match readInt w, moreInts rest' with
        | some z, some (zs, r) => some (z :: zs, r)
        | _, _ => none
      | _ => none
    else none
  | _ => none

/-- A value operand and what follows it (R86). That [] may be written, for the list of no integers, is
the model's choice (log entry 16). -/
def readValue : List Token → Option (ExtValue × List Token)
  | .word w :: r => (readInt w).map fun z => (.int z, r)
  | .text s :: r => some (.str s, r)
  | .mark m :: r =>
    if m = 0x5B then
      match r with
      | .word w :: r' =>
        match readInt w, moreInts r' with
        | some z, some (zs, r'') => some (.list (z :: zs), r'')
        | _, _ => none
      | .mark m' :: r' => if m' = 0x5D then some (.list [], r') else none
      | _ => none
    else none
  | _ => none

/-- The entries of a mapping from a name on, to the mapping's end, which ends the line (R86). -/
def readEntries : Nat → List Token → Option Mapping
  | 0, _ => none
  | fuel + 1, .word w :: .mark m :: r =>
    if m = 0x3A then
      match readName w, readValue r with
      | some nm, some (v, [.mark e]) => if e = 0x7D then some [(nm, v)] else none
      | some nm, some (v, .mark e :: r') => if e = 0x2C then (readEntries fuel r').map ((nm, v) :: ·) else none
      | _, _ => none
    else none
  | _, _ => none

/-- A mapping operand, which ends the line (R86). That it may be written without entries, for the
empty mapping of R228, is the model's choice (log entry 16). -/
def readMapping : List Token → Option Mapping
  | [.mark a, .mark b] => if a = 0x7B ∧ b = 0x7D then some [] else none
  | .mark a :: r => if a = 0x7B then readEntries r.length r else none
  | _ => none

/-- What a line holds. -/
inductive Line where
  /-- nothing, or a comment alone -/
  | blank
  | command (i : Instr)
  /-- the pseudo-command CONSTRUCT (R87) -/
  | construct (m : Mapping)
  /-- the pseudo-command ROUNDTRIP (R87) -/
  | roundtrip
deriving DecidableEq, Repr

/-- A command without operands. -/
def readBare (w : Octets) : Option Line :=
  if w = ascii "RESET" then some (.command .reset)
  else if w = ascii "TO_DICT" then some (.command .toDict)
  else if w = ascii "SIZE_PAYLOAD" then some (.command .sizePayload)
  else if w = ascii "SIZE_TOTAL" then some (.command .sizeTotal)
  else if w = ascii "SERIALIZE" then some (.command .serialize)
  else if w = ascii "ROUNDTRIP" then some .roundtrip
  else none

/-- A command whose one operand is a name. -/
def readNamed (w : Octets) (nm : Name) : Option Line :=
  if w = ascii "GET" then some (.command (.get nm))
  else if w = ascii "CONTAINS" then some (.command (.contains nm))
  else if w = ascii "FIELD_SIZE" then some (.command (.fieldSize nm))
  else if w = ascii "FIELD_SERIALIZE" then some (.command (.fieldSerialize nm))
  else none

/-- The command a line's tokens write (R86). -/
def readTokens : List Token → Option Line
  | [] => some .blank
  | [.word w] => readBare w
  | [.word w, .word n] =>
    match readName n with
    | some nm => readNamed w nm
    | none => none
  | [.word w, .hex b] => if w = ascii "DESERIALIZE" then some (.command (.deserialize b)) else none
  | .word w :: .word n :: .mark c :: r =>
    if c = 0x2C then
      match readName n with
      | some nm =>
        if w = ascii "SET" then
          match readValue r with
          | some (v, []) => some (.command (.set nm v))
          | _ => none
        else if w = ascii "FIELD_DESERIALIZE" then
          match r with
          | [.hex b] => some (.command (.fieldDeserialize nm b))
          | _ => none
        else none
      | none => none
    else none
  | .word w :: r =>
    if w = ascii "UPDATE" then (readMapping r).map fun m => .command (.update m)
    else if w = ascii "CONSTRUCT" then (readMapping r).map .construct
    else none
  | _ => none

/-- The command written on a line, if it is one (R86). -/
def readLine (line : Octets) : Option Line :=
  match tokens line.length line with
  | some ts => readTokens ts
  | none => none

/-- The commands the host issues for a line; ROUNDTRIP's second command, `roundtripSecond`, is issued
with the bytes the first one returned (R87). -/
def Line.commands : Line → List Instr
  | .blank => []
  | .command i => [i]
  | .construct m => Sys2Proof.Machine.construct m
  | .roundtrip => [.serialize]

end Sys2Proof.Machine
end

