-- ==== Sys2Proof/Safety.lean ====
section
/-! DEFINITION. Safety: the states the block can be in, and what a safe step is. -/

namespace Sys2Proof.Machine

/-- A register holds a value R26 allows for its layout; a string register may hold any octets (R27). -/
def Field.legal : Field → Bool
  | .bit layout _ x => x.legal layout
  | .str _ _ _ _ => true

/-- An open transfer stands inside its buffer and its schema: a record before its prologue is at entry
0, and a FIELD_DESERIALIZE is at an entry the schema has (R33, R190, R233). -/
def Xfer.legal (n : Nat) (t : Xfer) : Bool :=
  decide (t.cur ≤ t.input.length) &&
    match t.span with
    | .record => decide (t.entry ≤ n) && (decide (t.cur ≠ 0) || decide (t.entry = 0))
    | .field => decide (t.entry < n)

/-- Every register of the state holds a legal value. -/
def State.registersLegal (s : State) : Bool := s.slots.all fun sl => sl.field.legal

/-- The transfer, if one is open, is legal. -/
def State.xferLegal (s : State) : Bool :=
  match s.xfer with
  | none => true
  | some t => t.legal s.slots.length

/-- The invariant of the block: its SCHEMA passes CHECK_SCHEMA (R352), every register holds a value
R25 to R27 allow, and an open transfer is legal. -/
abbrev State.Inv (s : State) : Prop :=
  checkSchema s.schema = none ∧ s.registersLegal = true ∧ s.xferLegal = true

/-- A command, as opposed to a wire element (R70). -/
def isCommand (i : Instr) : Bool := decide ((encode i).format = .command)

/-- A safe step: the block goes on, whatever the command's response is (60_exceptions.md R304). -/
def State.Safe (s : State) : Prop := ∃ s', step s = .next s'

end Sys2Proof.Machine
end

