-- ==== Sys2Proof/Certificates/Slice0/Obligations.lean ====
section
/-! DEFINITION. The statements for the provers, each `def Obligations.<Name> : Prop`, with the few words they are stated in. -/

open Sys2Proof
open Sys2Proof.Machine

namespace Sys2Proof.Claims

/-- The thirteen command opcodes of 30_encoding.md R72. -/
def legalOpcodes : List Byte :=
  [0x01, 0x02, 0x03, 0x04, 0x05, 0x06, 0x07, 0x08, 0x09, 0x0A, 0x10, 0x11, 0x12]

/-- The characters a selector can encode: R134, R136, R137 (BIN takes any, R133). -/
def CanEncode (sel : Selector) (val : Octets) : Prop :=
  match sel with
  | .bin => True
  | .bcdPlus => ∀ c ∈ val, (0x30 ≤ c.toNat ∧ c.toNat ≤ 0x39) ∨ c = 0x20 ∨ c = 0x2D ∨ c = 0x2E
  | .ascii6 => ∀ c ∈ val, 0x20 ≤ (upcase c).toNat ∧ (upcase c).toNat ≤ 0x5F
  | .ascii8 => textValid val = true

/-- The wire length of a schema entry, from R73, R75 and R131 in so many words. -/
def wireLength (sl : Slot) : Nat :=
  match sl.field with
  | .bit layout _ _ => layout.sum / 8
  | .str _ _ .bin val => 1 + val.length
  | .str _ _ .bcdPlus val => 1 + (val.length + 1) / 2
  | .str _ _ .ascii6 val => 1 + 3 * ((val.length + 3) / 4)
  | .str _ _ .ascii8 val => 1 + val.length

/-- A register that FSER can turn into bytes: a BitField that is set; a string whose encoded length is
at most 63 and whose characters its selector can encode (R102, R140). -/
def Serializable (sl : Slot) : Prop :=
  match sl.field with
  | .bit _ _ x => x ≠ .unset
  | .str _ _ sel val => encLen sel val ≤ 63 ∧ CanEncode sel val

/-- The value TO_DICT shows of a schema entry, none for an Unset BitField; area_length in bytes (R221, R229). -/
def shown (sl : Slot) : Option ExtValue :=
  match sl.field with
  | .bit _ _ .unset => none
  | .bit _ _ (.scalar v) => some (.int (if sl.name = nameAreaLength then 8 * v else v))
  | .bit _ _ (.tuple vs) => some (.list (vs.map Int.ofNat))
  | .str _ _ _ val => some (.str val)

/-- The active selector of a string register. -/
def selectorOf (sl : Slot) : Option Selector :=
  match sl.field with
  | .bit _ _ _ => none
  | .str _ _ sel _ => some sel

/-- A register as a round trip leaves it (R195): a string's value in NORM form, a BitField as it is. -/
def normSlot (sl : Slot) : Slot :=
  match sl.field with
  | .bit _ _ _ => sl
  | .str sd d sel val => { sl with field := .str sd d sel (norm sel val) }

/-- The packed integer of a layout's groups by R73: group j stands lo_j bits up, lo_j being the width
of the groups after it. -/
def packedInteger : List Nat → List Nat → Nat
  | _ :: ws, v :: vs => v * 2 ^ ws.sum + packedInteger ws vs
  | _, _ => 0

/-- The w bits of v, most significant first. -/
def bitsMsbFirst (w v : Nat) : List Bool := ((List.range w).map v.testBit).reverse

/-- The BCD_PLUS characters with their codes: the table of R76, row for row. -/
def bcdTable : List (Byte × Nat) :=
  [(0x30, 0), (0x31, 1), (0x32, 2), (0x33, 3), (0x34, 4), (0x35, 5), (0x36, 6), (0x37, 7), (0x38, 8), (0x39, 9),
   (0x20, 0xA), (0x2D, 0xB), (0x2E, 0xC)]

/-- The three bytes of an ASCII_6BIT chunk of four characters in 0x20..0x5F: the byte table of R77. -/
def chunkBytes (a b c d : Byte) : Octets :=
  [ BitVec.ofNat 8 ((a.toNat - 0x20) + 64 * ((b.toNat - 0x20) % 4)),
    BitVec.ofNat 8 ((b.toNat - 0x20) / 4 + 16 * ((c.toNat - 0x20) % 16)),
    BitVec.ofNat 8 ((c.toNat - 0x20) / 16 + 4 * (d.toNat - 0x20)) ]

/-- The registers as the first part of SERIALIZE leaves them: FR[AL], when AL exists, holds
SIZE_TOTAL div 8 (R183, R186). -/
def areaFilled (s : State) : List Slot :=
  match s.areaEntry with
  | none => s.slots
  | some (i, sl, _, _) => s.slots.set i { sl with field := sl.field.withBits (.scalar (s.sizeTotal / 8)) }

/-- The range check of SERIALIZE passes: SIZE_TOTAL div 8 fits the area_length field, if there is one (R183). -/
def AreaFits (s : State) : Prop := ∀ i sl w x, s.areaEntry = some (i, sl, w, x) → s.sizeTotal / 8 < 2 ^ w

/-- What an error inside a transfer leaves (R192, R233, R300; log entry 12): the error is the response
and the transfer is gone, SCHEMA and the host's commands are unchanged; in a FIELD_DESERIALIZE so are
VER and every register but that of its entry. -/
def EndsTransfer (s u : State) (t : Xfer) (e : Err) : Prop :=
  u.response = some (.error e) ∧ u.xfer = none ∧ u.schema = s.schema ∧ u.pending = s.pending ∧
  (t.span = .field → u.ver = s.ver ∧ ∀ j, j ≠ t.entry → u.slots[j]? = s.slots[j]?)

end Sys2Proof.Claims

open Sys2Proof.Claims

/-! ### Encodings -/

/-- Decoding an encoded instruction gives it back, whatever its operands; and each of the 256 header
bytes and of the 256 prologue bytes decodes to an instruction that encodes to it, so that no bit of
one is lost (R72, R74, R80). -/
def Obligations.DecodeAndEncodeAgree : Prop :=
  (∀ i : Instr, decode (encode i) = .ok i) ∧
  ∀ b : Byte, encode (decodeHeader b) = ⟨.stringHeader, b, {}⟩ ∧ encode (decodePrologue b) = ⟨.recordPrologue, b, {}⟩

/-- Words written out from the spec's encodings decode to what they stand for: `0000 1010` is
DESERIALIZE (R72); `01 000001`, `11 000010`, `10 000011` and `00 111111` are headers (R74, V-S1 to
V-S3, R153); `0010 0001` is a prologue of version 1 with reserved nibble 2 (R80). -/
def Obligations.SpecWordsDecode : Prop :=
  decode ⟨.command, 0b00001010, { buf := [0xAA] }⟩ = .ok (.deserialize [0xAA]) ∧
  decode ⟨.command, 0b00000011, { name := [0x66], value := .int 5 }⟩ = .ok (.set [0x66] (.int 5)) ∧
  decode ⟨.command, 0b00010010, { name := [0x66], buf := [1] }⟩ = .ok (.fieldDeserialize [0x66] [1]) ∧
  decode ⟨.stringHeader, 0b01000001, {}⟩ = .ok (.strBcdPlus 1) ∧
  decode ⟨.stringHeader, 0b11000010, {}⟩ = .ok (.strAscii8 2) ∧
  decode ⟨.stringHeader, 0b10000011, {}⟩ = .ok (.strAscii6 3) ∧
  decode ⟨.stringHeader, 0b00111111, {}⟩ = .ok (.strBin 63) ∧
  decode ⟨.recordPrologue, 0b00100001, {}⟩ = .ok (.prologue 2 1)

/-- An opcode not in R72 raises IllegalCommandError and changes no state (R234); the status is 11, the
code of R301. That the host's commands stand in State as a list, from which this one is then gone, is
the model's choice (log entry 7). -/
def Obligations.IllegalOpcodeRaisesAndChangesNothing : Prop :=
  ∀ (s : State) (c : Command) (rest : List Command),
    checkSchema s.schema = none → s.xfer = none → s.pending = c :: rest → c.op ∉ legalOpcodes →
    step s = .next { s with pending := rest, response := some (.error (.illegalCommand c.op)) } ∧
    (Response.error (.illegalCommand c.op)).status = 11

/-! ### The step -/

/-- When the next command decodes to i, the step is exec of i (R50). That the commands stand in State as
a list from which the step takes the first is the model's choice (log entry 7). -/
def Obligations.StepRunsDecodedCommand : Prop :=
  ∀ (s : State) (c : Command) (rest : List Command) (i : Instr),
    checkSchema s.schema = none → s.xfer = none → s.pending = c :: rest →
    decode ⟨.command, c.op, c.operands⟩ = .ok i →
    step s = exec i { s with pending := rest }

/-- Inside a deserializing command, where a string header or the prologue is wanted, the step is exec
of the instruction that the byte at cur decodes to (R190; log entry 12). -/
def Obligations.StepRunsDecodedWireByte : Prop :=
  ∀ (s : State) (t : Xfer) (b : Byte) (r : Octets), checkSchema s.schema = none → t.rest = b :: r →
    (∀ sl, s.wanted = .header t sl → step s = exec (decodeHeader b) s) ∧
    (s.wanted = .prologue t → step s = exec (decodePrologue b) s)

/-- What a step does that is no instruction's. An idle block waits (the model's choice, log entry 8).
Inside a deserializing command, whose elements are steps by the model's choice (log entry 12), the
step does what R190 and R233 say. A BitField of B bytes: its register takes the value BF.PACK turns
back into those bytes; a DESERIALIZE goes on behind them with the next entry, a FIELD_DESERIALIZE ends
and answers the bytes there. The epilogue: when it is the one recomputed over the consumed bytes the
command ends and answers the bytes after it, otherwise it ends with ChecksumOrPaddingError. Too few
bytes for a prologue, a string header or a BitField end the command with TruncatedInputError. -/
def Obligations.StepOutsideInstructions : Prop :=
  ∀ s : State, checkSchema s.schema = none →
    (s.xfer = none → s.pending = [] → step s = .next s) ∧
    (∀ (t : Xfer) (nm : Name) (layout : List Nat) (d x : BitVal), s.wanted = .bits t ⟨nm, .bit layout d x⟩ →
      (∀ p r : Octets, t.rest = p ++ r → p.length = layout.sum / 8 →
        ∃ x', x' ≠ .unset ∧ x'.legal layout = true ∧ bfPack layout x' nm = .ok p ∧
          step s = match t.span with
            | .record => .next { s with
                slots := s.slots.set t.entry ⟨nm, .bit layout d x'⟩
                xfer := some { t with cur := t.cur + layout.sum / 8, entry := t.entry + 1 } }
            | .field => .next { s with
                slots := s.slots.set t.entry ⟨nm, .bit layout d x'⟩
                xfer := none
                response := some (.ok (.bytes r)) }) ∧
      (t.rest.length < layout.sum / 8 →
        ∃ u, step s = .next u ∧ EndsTransfer s u t (.truncated nm (layout.sum / 8) t.rest.length))) ∧
    (∀ t : Xfer, s.wanted = .epilogue t →
      let exp := zeros (padCount t.consumed.length) ++ [checksum t.consumed]
      (∀ r, t.rest = exp ++ r → step s = .next { s with xfer := none, response := some (.ok (.bytes r)) }) ∧
      (t.rest.take exp.length ≠ exp →
        ∃ u, step s = .next u ∧ EndsTransfer s u t (.checksumOrPadding exp (t.rest.take exp.length)))) ∧
    (∀ t : Xfer, s.wanted = .prologue t → t.rest = [] →
      ∃ u, step s = .next u ∧ EndsTransfer s u t (.truncated namePrologue 1 0)) ∧
    (∀ (t : Xfer) (sl : Slot), s.wanted = .header t sl → t.rest = [] →
      ∃ u, step s = .next u ∧ EndsTransfer s u t (.truncated sl.name 1 0))

/-- R305: a SCHEMA that fails CHECK_SCHEMA gives no block, the model refuses it, and no command can
be issued to it. -/
def Obligations.IllegalSchemaGivesNoBlock : Prop :=
  ∀ (sc : Schema) (e : Err), checkSchema sc = some e →
    instantiate sc = .error e ∧ ∀ s : State, s.schema = sc → step s = .refused (.schemaRejected e)

/-- What CHECK_SCHEMA accepts (R352): unique names, none of them format_version; every BitField with
at least one group, no empty group, a width sum that is a multiple of 8 and a default R26 allows; an
area_length entry that is a BitField of one group. -/
def Obligations.LegalSchemasCharacterised : Prop :=
  ∀ sc : Schema, checkSchema sc = none ↔
    (sc.map Entry.name).Nodup ∧ ∀ e ∈ sc, e.name ≠ nameFormatVersion ∧
      match e.proto with
      | .bit layout d =>
        layout ≠ [] ∧ 0 ∉ layout ∧ layout.sum % 8 = 0 ∧ (e.name = nameAreaLength → layout.length = 1) ∧
          d.legal layout = true
      | .str _ _ => e.name ≠ nameAreaLength

/-! ### Reset -/

/-- R35: at power-on VER is 1, every register holds its prototype's default, and no transfer exists. -/
def Obligations.PowerOnGivesPrototypeDefaults : Prop :=
  ∀ sc : Schema, (State.powerOn sc).ver = 1 ∧ (State.powerOn sc).xfer = none ∧ (State.powerOn sc).schema = sc ∧
    (∀ (i : Nat) (nm : Name) (layout : List Nat) (d : BitVal), sc[i]? = some ⟨nm, .bit layout d⟩ → (State.powerOn sc).slots[i]? = some ⟨nm, .bit layout d d⟩) ∧
    (∀ (i : Nat) (nm : Name) (sel : Selector) (d : Octets), sc[i]? = some ⟨nm, .str sel d⟩ → (State.powerOn sc).slots[i]? = some ⟨nm, .str sel d sel d⟩)

/-- R230: RESET gives every register its power-on value (R350), from any state, and answers OK. -/
def Obligations.ResetGivesThePowerOnState : Prop :=
  ∀ s : State, exec .reset s =
    .next { s with
      ver := 1
      slots := (State.powerOn s.schema).slots
      response := some (.ok .none) }

/-- The invariant holds at State.reset, the reset state of the block with the empty SCHEMA (log entry 2). -/
def Obligations.InvariantHoldsAtReset : Prop := State.reset.Inv

/-- The invariant holds at the power-on state of every legal SCHEMA (R35, R350, R352). -/
def Obligations.InvariantHoldsAtPowerOn : Prop :=
  ∀ sc : Schema, checkSchema sc = none → (State.powerOn sc).Inv

/-! ### The bit-field packer/unpacker -/

/-- R108: BF.UNPACK inverts BF.PACK both ways, and the packed length is BF.SIZE. -/
def Obligations.BitFieldPackAndUnpackAreInverse : Prop :=
  ∀ (layout : List Nat) (name : Name), layout ≠ [] → layout.sum % 8 = 0 →
    (∀ x : BitVal, x ≠ .unset → x.legal layout = true →
      ∃ p, bfPack layout x name = .ok p ∧ p.length = bfSize layout ∧
        ∀ r, bfUnpack layout (p ++ r) name = .ok (x, r)) ∧
    (∀ b : Octets, bfSize layout ≤ b.length →
      ∃ x, bfUnpack layout b name = .ok (x, b.drop (bfSize layout)) ∧ x ≠ .unset ∧ x.legal layout = true ∧
        bfPack layout x name = .ok (b.take (bfSize layout)))

/-- Where BF.PACK puts the groups (R73): byte i of the wire form is V[8i+7 : 8i], where V has group j
at its place lo_j; so group 1 is most significant and byte 0 least. -/
def Obligations.PackedBytesHoldTheGroupsInPlace : Prop :=
  ∀ (layout vs : List Nat) (name : Name), layout ≠ [] → layout.sum % 8 = 0 → groupsFit layout vs = true →
    ∃ p, bfPack layout (BitVal.ofGroups vs) name = .ok p ∧ p.length = layout.sum / 8 ∧
      ∀ i < layout.sum / 8, p[i]? = some (BitVec.ofNat 8 (packedInteger layout vs / 2 ^ (8 * i)))

/-- R107: BF.PACK is the source's two steps. The groups' bits, most significant first, one after the
other, make a stream of B bytes; the order of those bytes is then reversed, over the whole field. -/
def Obligations.PackIsTheReversedBitStream : Prop :=
  ∀ (layout vs : List Nat) (name : Name), layout ≠ [] → layout.sum % 8 = 0 → groupsFit layout vs = true →
    ∃ stream : Octets, (stream.map fun b => bitsMsbFirst 8 b.toNat).flatten = (List.zipWith bitsMsbFirst layout vs).flatten ∧
      bfPack layout (BitVal.ofGroups vs) name = .ok stream.reverse

/-! ### The string codec -/

/-- R151: the round-trip laws of the string codec. -/
def Obligations.StringCodecRoundTrips : Prop :=
  (∀ (sel : Selector) (s : Octets) (name : Name) (b : Octets), strSerialize sel s name = .ok b →
    ∀ (r : Octets) (name' : Name),
      strDeserialize (b ++ r) name' = .ok (sel, norm sel s, r) ∨
      (sel = .bin ∧ textValid s = false ∧ strDeserialize (b ++ r) name' = .error (.textCodec name'))) ∧
  (∀ (b : Octets) (name : Name) (sel : Selector) (s r : Octets), strDeserialize b name = .ok (sel, s, r) →
    ∀ name', strSerialize sel s name' = .ok (b.take (b.length - r.length)))

/-- A string serializes exactly when its encoded length is at most 63 and its selector can encode its
characters, and then its length is STR.SIZE (R131, R140). -/
def Obligations.StringSerializeSucceedsExactly : Prop :=
  ∀ (sel : Selector) (s : Octets) (name : Name),
    ((∃ b, strSerialize sel s name = .ok b) ↔ encLen sel s ≤ 63 ∧ CanEncode sel s) ∧
    ∀ b, strSerialize sel s name = .ok b → b.length = strSize sel s

/-- R153: the 63-byte limit gives each encoding a largest value. A longer one is refused for its
encoded length, which the error names (R140, R302), before any character is looked at; a value that is
not longer is not refused for its length. -/
def Obligations.LongestSerializableStrings : Prop :=
  ∀ (sel : Selector) (s : Octets) (name : Name),
    let longest := match sel with
      | .bin => 63
      | .bcdPlus => 126
      | .ascii6 => 84
      | .ascii8 => 63
    (longest < s.length → strSerialize sel s name = .error (.lookupLength name (encLen sel s))) ∧
    (s.length ≤ longest → ∀ n, strSerialize sel s name ≠ .error (.lookupLength name n))

/-- How the encodings lay a value out in its payload (R76 to R78). BIN and ASCII_8BIT: one octet a
byte, unchanged and in order, valid text or TextCodecError, but for ENC.BIN, which checks nothing
(R133, R137, R143, R147; 90_conflicts.md C3). BCD_PLUS: the codes of R76, two characters a byte, the
first in the high nibble, byte after byte, an odd last one padded with a space (R134, R144).
ASCII_6BIT: the byte table of R77, chunk after chunk, letters upper-cased, a short last chunk padded
with spaces (R136, R146). -/
def Obligations.PayloadLayouts : Prop :=
  ∀ name : Name,
    (∀ s : Octets, encPayload .bin s name = .ok s) ∧
    (∀ s : Octets, encPayload .ascii8 s name = if textValid s then .ok s else .error (.textCodec name)) ∧
    (∀ (sel : Selector) (p : Octets), sel = .bin ∨ sel = .ascii8 →
      decPayload sel p name = if textValid p then .ok p else .error (.textCodec name)) ∧
    (encPayload .bcdPlus [] name = .ok [] ∧ decPayload .bcdPlus [] name = .ok []) ∧
    (∀ x ∈ bcdTable, ∀ y ∈ bcdTable, ∀ s p : Octets,
      (encPayload .bcdPlus s name = .ok p →
        encPayload .bcdPlus (x.1 :: y.1 :: s) name = .ok (BitVec.ofNat 8 (16 * x.2 + y.2) :: p)) ∧
      (decPayload .bcdPlus p name = .ok s →
        decPayload .bcdPlus (BitVec.ofNat 8 (16 * x.2 + y.2) :: p) name = .ok (x.1 :: y.1 :: s))) ∧
    (∀ x ∈ bcdTable, encPayload .bcdPlus [x.1] name = .ok [BitVec.ofNat 8 (16 * x.2 + 0xA)]) ∧
    (encPayload .ascii6 [] name = .ok [] ∧ decPayload .ascii6 [] name = .ok []) ∧
    (∀ a b c d : Byte, (∀ x ∈ [a, b, c, d], 0x20 ≤ x.toNat ∧ x.toNat ≤ 0x5F) → ∀ s p : Octets,
      (encPayload .ascii6 s name = .ok p →
        encPayload .ascii6 (a :: b :: c :: d :: s) name = .ok (chunkBytes a b c d ++ p)) ∧
      (decPayload .ascii6 p name = .ok s →
        decPayload .ascii6 (chunkBytes a b c d ++ p) name = .ok (a :: b :: c :: d :: s))) ∧
    (∀ s : Octets, s.length % 4 ≠ 0 → encPayload .ascii6 s name = encPayload .ascii6 (s ++ [0x20]) name) ∧
    (∀ (s s' : Octets) (c : Byte), 0x61 ≤ c.toNat → c.toNat ≤ 0x7A →
      encPayload .ascii6 (s ++ c :: s') name = encPayload .ascii6 (s ++ (c - 0x20) :: s') name)

/-- The error of a string that does not serialize (R134, R136, R137, R140, R303): of a value short
enough, the first character its selector cannot encode, at its place in the string; for ASCII_8BIT,
that it is not valid text. -/
def Obligations.EncodersNameTheFirstBadCharacter : Prop :=
  ∀ (good rest : Octets) (c : Byte) (name : Name),
    (encLen .bcdPlus (good ++ c :: rest) ≤ 63 → CanEncode .bcdPlus good → ¬ CanEncode .bcdPlus [c] →
      strSerialize .bcdPlus (good ++ c :: rest) name = .error (.lookupOctet name good.length c)) ∧
    (encLen .ascii6 (good ++ c :: rest) ≤ 63 → CanEncode .ascii6 good → ¬ CanEncode .ascii6 [c] →
      strSerialize .ascii6 (good ++ c :: rest) name = .error (.textCodecAt name good.length c)) ∧
    (∀ s : Octets, s.length ≤ 63 → strSerialize .ascii8 s name =
      if textValid s then .ok (headerByte .ascii8 (BitVec.ofNat 6 s.length) :: s) else .error (.textCodec name))

/-- What FIELD_DESERIALIZE answers to a string field's malformed bytes (R141, R143, R144, R146, R147): an
input that ends inside the header or the payload, a BIN or ASCII_8BIT payload that is not valid text, a
BCD_PLUS nibble above 0xC, the high one first, and an ASCII_6BIT payload that is no whole number of
chunks. -/
def Obligations.MalformedStringInputIsRefused : Prop :=
  ∀ (s : State) (i : Nat) (nm : Name) (sd sel0 : Selector) (d v0 : Octets),
    checkSchema s.schema = none → s.slots[i]? = some ⟨nm, .str sd d sel0 v0⟩ →
    (∃ t, exec (.fieldDeserialize nm []) s = .next t ∧ t.response = some (.error (.truncated nm 1 0))) ∧
    (∀ (sel : Selector) (n : BitVec 6) (p : Octets), p.length < n.toNat →
      ∃ t, exec (.fieldDeserialize nm (headerByte sel n :: p)) s = .next t ∧
        t.response = some (.error (.truncated nm (1 + n.toNat) (1 + p.length)))) ∧
    (∀ (n : BitVec 6) (p r : Octets), p.length = n.toNat → n.toNat % 3 ≠ 0 →
      ∃ t, exec (.fieldDeserialize nm (headerByte .ascii6 n :: (p ++ r))) s = .next t ∧
        t.response = some (.error (.payloadShape nm n.toNat))) ∧
    (∀ (sel : Selector) (n : BitVec 6) (p r : Octets), sel = .bin ∨ sel = .ascii8 → p.length = n.toNat →
      ∃ t, exec (.fieldDeserialize nm (headerByte sel n :: (p ++ r))) s = .next t ∧
        t.response = some (if textValid p then .ok (.bytes r) else .error (.textCodec nm))) ∧
    (∀ (n : BitVec 6) (good more r : Octets) (b : Byte), (good ++ b :: more).length = n.toNat →
      (∀ g ∈ good, (highNibble g).toNat ≤ 0xC ∧ (lowNibble g).toNat ≤ 0xC) →
      (0xC < (highNibble b).toNat →
        ∃ t, exec (.fieldDeserialize nm (headerByte .bcdPlus n :: (good ++ b :: more ++ r))) s = .next t ∧
          t.response = some (.error (.lookupNibble nm good.length (highNibble b)))) ∧
      ((highNibble b).toNat ≤ 0xC → 0xC < (lowNibble b).toNat →
        ∃ t, exec (.fieldDeserialize nm (headerByte .bcdPlus n :: (good ++ b :: more ++ r))) s = .next t ∧
          t.response = some (.error (.lookupNibble nm good.length (lowNibble b)))))

/-! ### The accessor commands -/

/-- R221: GET answers the value of the register a name resolves to (R220) and writes no register. -/
def Obligations.GetReadsTheNamedRegister : Prop :=
  ∀ s : State, checkSchema s.schema = none →
    exec (.get nameFormatVersion) s = .next { s with response := some (.ok (.value (.int s.ver.toNat))) } ∧
    (∀ (i w v : Nat) (d : BitVal), s.slots[i]? = some ⟨nameAreaLength, .bit [w] d (.scalar v)⟩ →
      exec (.get nameAreaLength) s = .next { s with response := some (.ok (.value (.int (8 * v)))) }) ∧
    (∀ (i : Nat) (nm : Name) (layout : List Nat) (d : BitVal), s.slots[i]? = some ⟨nm, .bit layout d .unset⟩ →
      exec (.get nm) s = .next { s with response := some (.error (.valueShape nm .unset)) }) ∧
    (∀ (i v : Nat) (nm : Name) (layout : List Nat) (d : BitVal), nm ≠ nameAreaLength → s.slots[i]? = some ⟨nm, .bit layout d (.scalar v)⟩ →
      exec (.get nm) s = .next { s with response := some (.ok (.value (.int v))) }) ∧
    (∀ (i : Nat) (nm : Name) (layout vs : List Nat) (d : BitVal), nm ≠ nameAreaLength → s.slots[i]? = some ⟨nm, .bit layout d (.tuple vs)⟩ →
      exec (.get nm) s = .next { s with response := some (.ok (.value (.list (vs.map Int.ofNat)))) }) ∧
    (∀ (i : Nat) (nm : Name) (sd sel : Selector) (d val : Octets), s.slots[i]? = some ⟨nm, .str sd d sel val⟩ →
      exec (.get nm) s = .next { s with response := some (.ok (.value (.str val))) }) ∧
    (∀ nm, nm ≠ nameFormatVersion → (∀ sl ∈ s.slots, sl.name ≠ nm) →
      exec (.get nm) s = .next { s with response := some (.error (.unknownField nm)) })

/-- R223: SET "format_version" writes VER for an Int 0..15, and refuses every other value. -/
def Obligations.SetVersionWritesVer : Prop :=
  ∀ s : State,
    (∀ v : BitVec 4, exec (.set nameFormatVersion (.int v.toNat)) s =
      .next { s with ver := v, response := some (.ok .none) }) ∧
    (∀ e : ExtValue, (∀ v : BitVec 4, e ≠ .int v.toNat) → exec (.set nameFormatVersion e) s =
      .next { s with response := some (.error (.valueShape nameFormatVersion (.value e))) })

/-- R224: SET "area_length" takes a length in bytes, a multiple of 8 that fits the field, and refuses
every other value: its type first, then its alignment, then its range. -/
def Obligations.SetAreaLengthTakesBytes : Prop :=
  ∀ (s : State) (i w : Nat) (d x : BitVal), checkSchema s.schema = none →
    s.slots[i]? = some ⟨nameAreaLength, .bit [w] d x⟩ →
    (∀ u : Nat, u < 2 ^ w → exec (.set nameAreaLength (.int (8 * u))) s =
      .next { s with
        slots := s.slots.set i ⟨nameAreaLength, .bit [w] d (.scalar u)⟩
        response := some (.ok .none) }) ∧
    (∀ e : ExtValue, (∀ z, e ≠ .int z) → exec (.set nameAreaLength e) s =
      .next { s with response := some (.error (.valueShape nameAreaLength (.value e))) }) ∧
    (∀ z : Int, ¬ (8 ∣ z) → exec (.set nameAreaLength (.int z)) s =
      .next { s with response := some (.error (.fieldAlignment nameAreaLength z)) }) ∧
    (∀ z : Int, 8 ∣ z → z < 0 ∨ 8 * 2 ^ w ≤ z → exec (.set nameAreaLength (.int z)) s =
      .next { s with response := some (.error (.valueShape nameAreaLength (.number z))) })

/-- R225: SET on a BitField entry writes a Scalar from an Int or a Tuple from a List when the value
has the layout's shape and range (R104); otherwise the register keeps its old value. -/
def Obligations.SetBitFieldChecksShapeAndRange : Prop :=
  ∀ (s : State) (i : Nat) (nm : Name) (layout : List Nat) (d x : BitVal), checkSchema s.schema = none →
    nm ≠ nameAreaLength → s.slots[i]? = some ⟨nm, .bit layout d x⟩ →
    (∀ w v : Nat, layout = [w] → v < 2 ^ w → exec (.set nm (.int v)) s =
      .next { s with slots := s.slots.set i ⟨nm, .bit layout d (.scalar v)⟩, response := some (.ok .none) }) ∧
    (∀ vs : List Nat, 2 ≤ layout.length → groupsFit layout vs = true → exec (.set nm (.list (vs.map Int.ofNat))) s =
      .next { s with slots := s.slots.set i ⟨nm, .bit layout d (.tuple vs)⟩, response := some (.ok .none) }) ∧
    (∀ e : ExtValue, (∀ w v : Nat, layout = [w] → v < 2 ^ w → e ≠ .int v) →
      (∀ vs : List Nat, 2 ≤ layout.length → groupsFit layout vs = true → e ≠ .list (vs.map Int.ofNat)) →
      exec (.set nm e) s = .next { s with response := some (.error (.valueShape nm (.value e))) })

/-- R226: SET on a string entry writes VAL[i], of any length, and leaves SEL[i]; a value that is no
Str is refused. -/
def Obligations.SetStringKeepsTheSelector : Prop :=
  ∀ (s : State) (i : Nat) (nm : Name) (sd sel : Selector) (d val : Octets), checkSchema s.schema = none →
    s.slots[i]? = some ⟨nm, .str sd d sel val⟩ →
    (∀ v : Octets, exec (.set nm (.str v)) s =
      .next { s with slots := s.slots.set i ⟨nm, .str sd d sel v⟩, response := some (.ok .none) }) ∧
    (∀ e : ExtValue, (∀ v, e ≠ .str v) → exec (.set nm e) s =
      .next { s with response := some (.error (.valueShape nm (.value e))) })

/-- A name that is neither special nor a schema name: SET, GET and the field commands raise
UnknownFieldError and change no register (R220, R231 to R233); so do GET and SET of area_length when
SCHEMA has no such entry, and the field commands of format_version (D3, D18). -/
def Obligations.UnknownNamesAreRefused : Prop :=
  ∀ (s : State) (nm : Name) (e : ExtValue) (buf : Octets), (∀ sl ∈ s.slots, sl.name ≠ nm) →
    let refused : Out := .next { s with response := some (.error (.unknownField nm)) }
    (nm ≠ nameFormatVersion → exec (.get nm) s = refused ∧ exec (.set nm e) s = refused) ∧
    exec (.fieldSize nm) s = refused ∧ exec (.fieldSerialize nm) s = refused ∧
    exec (.fieldDeserialize nm buf) s = refused

/-- R227: CONTAINS is true for the two special names, present or not in SCHEMA, and for the schema
names, and false for every other name; it writes no register. -/
def Obligations.ContainsReportsRecognisedNames : Prop :=
  ∀ (s : State) (nm : Name), exec (.contains nm) s =
    .next { s with response := some (.ok (.flag (decide
      (nm = nameFormatVersion ∨ nm = nameAreaLength ∨ ∃ sl ∈ s.slots, sl.name = nm)))) }

/-- R228: UPDATE is SET of its entries in order; the first that fails ends it, the ones before it
staying applied; the empty mapping does nothing. -/
def Obligations.UpdateIsSetInOrder : Prop :=
  ∀ s : State,
    exec (.update []) s = .next { s with response := some (.ok .none) } ∧
    ∀ (nm : Name) (e : ExtValue) (m : Mapping) (t : State), exec (.set nm e) s = .next t →
      (t.response = some (.ok .none) → exec (.update ((nm, e) :: m)) s = exec (.update m) t) ∧
      (∀ err, t.response = some (.error err) → exec (.update ((nm, e) :: m)) s = .next t)

/-- UPDATE of VER and a string register writes both and nothing else (R228, with R223 and R226). -/
def Obligations.UpdateWritesTwoRegisters : Prop :=
  ∀ (s : State) (i : Nat) (nm : Name) (sd sel : Selector) (d val v : Octets) (ver : BitVec 4),
    checkSchema s.schema = none → s.slots[i]? = some ⟨nm, .str sd d sel val⟩ →
    exec (.update [(nameFormatVersion, .int ver.toNat), (nm, .str v)]) s =
      .next { s with
        ver := ver
        slots := s.slots.set i ⟨nm, .str sd d sel v⟩
        response := some (.ok .none) }

/-- R229: TO_DICT answers every entry's name and value in schema order, area_length in bytes; the
first Unset BitField makes it raise ValueShapeError; it writes no register. -/
def Obligations.ToDictSnapshotsEveryEntry : Prop :=
  ∀ s : State, checkSchema s.schema = none → s.registersLegal = true →
    (∀ m : Mapping, m.map (fun p => (p.1, some p.2)) = s.slots.map (fun sl => (sl.name, shown sl)) →
      exec .toDict s = .next { s with response := some (.ok (.mapping m)) }) ∧
    (∀ (pre post : List Slot) (sl : Slot), s.slots = pre ++ sl :: post → (∀ p ∈ pre, shown p ≠ none) →
      shown sl = none →
      exec .toDict s = .next { s with response := some (.error (.valueShape sl.name .unset)) })

/-! ### The record commands -/

/-- R181, R182: SIZE_PAYLOAD is 1 and every entry's wire length; SIZE_TOTAL is the least multiple of 8
above it; neither writes a register. -/
def Obligations.SizesCountPrologueFieldsAndEpilogue : Prop :=
  ∀ s : State, ∃ total : Nat,
    exec .sizePayload s = .next { s with response := some (.ok (.natural (1 + (s.slots.map wireLength).sum))) } ∧
    exec .sizeTotal s = .next { s with response := some (.ok (.natural total)) } ∧
    8 ∣ total ∧ 1 + (s.slots.map wireLength).sum + 1 ≤ total ∧ total ≤ 1 + (s.slots.map wireLength).sum + 8

/-- SERIALIZE succeeds whenever every register but FR[AL] is serializable and the length fits
area_length (R183, R186): it writes FR[AL], when there is one, Unset or not, and no other register. -/
def Obligations.SerializeCompletes : Prop :=
  ∀ s : State, checkSchema s.schema = none → (∀ sl ∈ s.slots, sl.name ≠ nameAreaLength → Serializable sl) →
    (∀ (i w : Nat) (d x : BitVal), s.slots[i]? = some ⟨nameAreaLength, .bit [w] d x⟩ → s.sizeTotal / 8 < 2 ^ w →
      ∃ out, out.length = s.sizeTotal ∧ exec .serialize s =
        .next { s with
          slots := s.slots.set i ⟨nameAreaLength, .bit [w] d (.scalar (s.sizeTotal / 8))⟩
          response := some (.ok (.bytes out)) }) ∧
    ((∀ sl ∈ s.slots, sl.name ≠ nameAreaLength) →
      ∃ out, out.length = s.sizeTotal ∧ exec .serialize s = .next { s with response := some (.ok (.bytes out)) })

/-- R188: what a successful SERIALIZE answers: SIZE_TOTAL bytes, a multiple of 8, that sum to 0 modulo
256, beginning with VER; and area_length, when there is one, holds their number in 8-byte units. -/
def Obligations.SerializedRecordsAreFramed : Prop :=
  ∀ (s t : State) (out : Octets), exec .serialize s = .next t → t.response = some (.ok (.bytes out)) →
    out.length = s.sizeTotal ∧ out.length % 8 = 0 ∧ octetSum out % 256 = 0 ∧
    out[0]? = some (BitVec.ofNat 8 s.ver.toNat) ∧
    ∀ i sl w x, s.areaEntry = some (i, sl, w, x) →
      ∃ sl' u, t.areaEntry = some (i, sl', w, .scalar u) ∧ 8 * u = out.length

/-- The bytes of a record (R81, R180): the prologue, the fields in schema order, PAD_COUNT zero bytes,
and the checksum of the payload; the fields are FSER of the registers that SERIALIZE leaves. -/
def Obligations.SerializedBytesFollowTheFrame : Prop :=
  ∀ (s t : State) (out : Octets), exec .serialize s = .next t → t.response = some (.ok (.bytes out)) →
    ∃ parts : List Octets, t.slots.map Slot.serialize = parts.map Except.ok ∧
      let payload := BitVec.ofNat 8 s.ver.toNat :: parts.flatten
      out = payload ++ zeros (padCount (1 + parts.flatten.length)) ++ [checksum payload]

/-- R187, with the order of R183 and R303. A SERIALIZE whose length does not fit area_length raises
ValueShapeError and changes no register. One that passes the range check fails with the first error of
FSER in schema order. Any failed one answers no bytes and leaves VER and every register but FR[AL],
which is as it was or, past the range check, may hold the new length. -/
def Obligations.FailedSerializeLeavesRegisters : Prop :=
  ∀ s : State,
    (∀ i sl w x, s.areaEntry = some (i, sl, w, x) → 2 ^ w ≤ s.sizeTotal / 8 → exec .serialize s =
      .next { s with response := some (.error (.valueShape nameAreaLength (.number (s.sizeTotal / 8 : Nat)))) }) ∧
    (∀ (pre post : List Slot) (sl : Slot) (e : Err), AreaFits s → areaFilled s = pre ++ sl :: post →
      (∀ p ∈ pre, ∃ b, p.serialize = .ok b) → sl.serialize = .error e →
      ∃ t, exec .serialize s = .next t ∧ t.response = some (.error e)) ∧
    ∀ (t : State) (e : Err), exec .serialize s = .next t → t.response = some (.error e) →
      t.ver = s.ver ∧ (t.slots = s.slots ∨ (AreaFits s ∧ t.slots = areaFilled s))

/-- A second SERIALIZE answers the same bytes and leaves the same state (R64). -/
def Obligations.SerializeTwiceIsSerializeOnce : Prop :=
  ∀ (s t : State) (out : Octets), exec .serialize s = .next t → t.response = some (.ok (.bytes out)) →
    exec .serialize t = .next t

/-- R186: after a SERIALIZE, GET "area_length" returns SIZE_TOTAL. -/
def Obligations.AreaLengthReadsTheTotalAfterSerialize : Prop :=
  ∀ (s t : State) (out : Octets), exec .serialize s = .next t → t.response = some (.ok (.bytes out)) →
    s.areaEntry ≠ none →
    exec (.get nameAreaLength) t = .next { t with response := some (.ok (.value (.int s.sizeTotal))) }

/-- DESERIALIZE of a record whose fields parse loads VER and every register, and answers the bytes
after the epilogue, when the epilogue is the one recomputed over the payload (R190, R193); otherwise
it raises ChecksumOrPaddingError with the bytes expected and received (R191). -/
def Obligations.DeserializeLoadsWhenTheEpilogueAgrees : Prop :=
  ∀ (s : State) (v : Byte) (fs tail : Octets) (slots' : List Slot),
    parseSlots s.slots (fs ++ tail) = .ok (slots', tail) →
    let exp := zeros (padCount (1 + fs.length)) ++ [checksum (v :: fs)]
    (∀ r, tail = exp ++ r → exec (.deserialize (v :: (fs ++ tail))) s =
      .next { s with
        ver := lowNibble v
        slots := slots'
        response := some (.ok (.bytes r)) }) ∧
    (tail.take exp.length ≠ exp → ∃ t, exec (.deserialize (v :: (fs ++ tail))) s = .next t ∧
      t.response = some (.error (.checksumOrPadding exp (tail.take exp.length))))

/-- R82: the padding is zero, so the checksum over all the bytes before it is the checksum over the
payload alone; and it is the one byte that makes the sum a multiple of 256. The padding makes the
record a whole number of 8-byte units (R81, R185). -/
def Obligations.EpilogueBalancesThePayload : Prop :=
  ∀ p : Octets, epilogue p = zeros (padCount p.length) ++ [checksum p] ∧
    checksum (p ++ zeros (padCount p.length)) = checksum p ∧
    (∀ c : Byte, (octetSum p + c.toNat) % 256 = 0 ↔ c = checksum p) ∧
    padCount p.length ≤ 7 ∧ (p ++ epilogue p).length % 8 = 0

/-- A DESERIALIZE that succeeds gives the same registers and remainder from any state of the same
SCHEMA: its result depends only on IN and SCHEMA (R190). -/
def Obligations.DeserializeForgetsTheOldRegisters : Prop :=
  ∀ (s s' t : State) (buf r : Octets), s.schema = s'.schema → exec (.deserialize buf) s = .next t →
    t.response = some (.ok (.bytes r)) →
    exec (.deserialize buf) s' = .next { s' with ver := t.ver, slots := t.slots, response := t.response }

/-- How a DESERIALIZE fails before its epilogue, and what a failed one leaves (R190, R192, R303): no
prologue byte raises TruncatedInputError, and the first field that does not parse raises its error;
afterwards the registers are within their types, whatever they are, and SCHEMA is unchanged. The
values are free: nothing here rests on them. -/
def Obligations.FailedDeserializeLeavesLegalRegisters : Prop :=
  ∀ s : State, checkSchema s.schema = none →
    (∃ t, exec (.deserialize []) s = .next t ∧ t.response = some (.error (.truncated namePrologue 1 0))) ∧
    (∀ (pre post : List Slot) (sl : Slot) (v : Byte) (b r : Octets) (pre' : List Slot) (e : Err),
      s.slots = pre ++ sl :: post → parseSlots pre b = .ok (pre', r) → sl.parse r = .error e →
      ∃ t, exec (.deserialize (v :: b)) s = .next t ∧ t.response = some (.error e)) ∧
    ∀ (t : State) (buf : Octets) (e : Err), exec (.deserialize buf) s = .next t → t.response = some (.error e) →
      t.registersLegal = true ∧ t.schema = s.schema ∧ t.xfer = s.xfer ∧ t.pending = s.pending

/-- R195: a record that SERIALIZE produced, with any bytes after it, read back from any state of the
same SCHEMA: it restores VER, every BitField and every selector, the strings in NORM form, and
answers those bytes, and TO_DICT is as it was when every string was in NORM form already; or it fails
with TextCodecError, when a BIN value is not valid text. -/
def Obligations.RoundTripRestoresTheRecord : Prop :=
  ∀ (s t s' : State) (out r : Octets), s.Inv → exec .serialize s = .next t →
    t.response = some (.ok (.bytes out)) → s'.schema = s.schema →
    ∃ t', exec (.deserialize (out ++ r)) s' = .next t' ∧
      ((t'.response = some (.ok (.bytes r)) ∧ t'.ver = s.ver ∧ t'.slots = t.slots.map normSlot ∧
          (t.slots.map normSlot = t.slots → ∀ q, exec .toDict t = .next q → exec .toDict t' = .next { t' with response := q.response })) ∨
       (∃ sl ∈ s.slots, ∃ sd d val, sl.field = .str sd d .bin val ∧ textValid val = false ∧
          t'.response = some (.error (.textCodec sl.name))))

/-! ### The field commands -/

/-- R231, and R232 with it: FIELD_SIZE answers a schema entry's wire length; FIELD_SERIALIZE answers
FSER's bytes, that many, when the register is serializable, and raises FSER's error otherwise
(ValueShapeError for an Unset BitField, EncodingLookupError or TextCodecError for a string); neither
writes a register, area_length's among them; a name not in SCHEMA raises UnknownFieldError. -/
def Obligations.FieldSizeAndFieldSerializeAgree : Prop :=
  ∀ s : State, checkSchema s.schema = none →
    (∀ (i : Nat) (sl : Slot), s.slots[i]? = some sl →
      exec (.fieldSize sl.name) s = .next { s with response := some (.ok (.natural (wireLength sl))) } ∧
      (Serializable sl → ∃ b, sl.serialize = .ok b ∧ b.length = wireLength sl ∧
        exec (.fieldSerialize sl.name) s = .next { s with response := some (.ok (.bytes b)) }) ∧
      (¬ Serializable sl → ∃ e, sl.serialize = .error e ∧
        (match sl.field with
          | .bit _ _ _ => e = .valueShape sl.name .unset
          | .str _ _ _ _ => e.kind = .encodingLookupError ∨ e.kind = .textCodecError) ∧
        exec (.fieldSerialize sl.name) s = .next { s with response := some (.error e) })) ∧
    (∀ nm, (∀ sl ∈ s.slots, sl.name ≠ nm) →
      exec (.fieldSize nm) s = .next { s with response := some (.error (.unknownField nm)) } ∧
      exec (.fieldSerialize nm) s = .next { s with response := some (.error (.unknownField nm)) })

/-- FIELD_DESERIALIZE of a BitField entry (R233): B bytes become the register's value, the one BF.PACK
turns back into them, and the rest is answered; fewer than B bytes raise TruncatedInputError. -/
def Obligations.FieldDeserializeLoadsBitField : Prop :=
  ∀ (s : State) (i : Nat) (nm : Name) (layout : List Nat) (d x : BitVal), checkSchema s.schema = none →
    s.slots[i]? = some ⟨nm, .bit layout d x⟩ →
    (∀ p r : Octets, p.length = bfSize layout →
      ∃ x', x' ≠ .unset ∧ x'.legal layout = true ∧ bfPack layout x' nm = .ok p ∧
        exec (.fieldDeserialize nm (p ++ r)) s =
          .next { s with
            slots := s.slots.set i ⟨nm, .bit layout d x'⟩
            response := some (.ok (.bytes r)) }) ∧
    (∀ b : Octets, b.length < bfSize layout → ∃ t, exec (.fieldDeserialize nm b) s = .next t ∧
      t.response = some (.error (.truncated nm (bfSize layout) b.length)))

/-- FIELD_DESERIALIZE of a string entry (R233): the header's selector and the decoded payload become
SEL[i] and VAL[i], and the rest is answered. -/
def Obligations.FieldDeserializeLoadsString : Prop :=
  ∀ (s : State) (i : Nat) (nm : Name) (sd sel0 sel : Selector) (d v0 v p r : Octets) (n : BitVec 6),
    checkSchema s.schema = none → s.slots[i]? = some ⟨nm, .str sd d sel0 v0⟩ →
    p.length = n.toNat → decPayload sel p nm = .ok v →
    exec (.fieldDeserialize nm (headerByte sel n :: (p ++ r))) s =
      .next { s with
        slots := s.slots.set i ⟨nm, .str sd d sel v⟩
        response := some (.ok (.bytes r)) }

/-- FIELD_DESERIALIZE touches no register but the one it names, also when it fails, and that one stays
within its type with its prototype (R233, I3). -/
def Obligations.FieldDeserializeTouchesOneRegister : Prop :=
  ∀ (s t : State) (nm : Name) (buf : Octets), checkSchema s.schema = none → s.registersLegal = true →
    exec (.fieldDeserialize nm buf) s = .next t →
    t.ver = s.ver ∧ t.schema = s.schema ∧ t.registersLegal = true ∧
    ∀ (j : Nat) (sl : Slot), s.slots[j]? = some sl → sl.name ≠ nm → t.slots[j]? = some sl

/-! ### The wire elements -/

/-- A string header byte met inside a DESERIALIZE or FIELD_DESERIALIZE (R141, R190, R233; log entry
12): its payload is decoded and SEL and VAL of the entry are written; then a DESERIALIZE goes on behind
the payload, and a FIELD_DESERIALIZE ends and answers the bytes there. -/
def Obligations.StringHeadersLoadTheirEntry : Prop :=
  ∀ (s : State) (t : Xfer) (nm : Name) (sd sel0 : Selector) (d v0 v p r : Octets) (n : BitVec 6),
    s.wanted = .header t ⟨nm, .str sd d sel0 v0⟩ → p.length = n.toNat →
    let loaded (sel : Selector) : Out :=
      match t.span with
      | .record => .next { s with
          slots := s.slots.set t.entry ⟨nm, .str sd d sel v⟩
          xfer := some { t with cur := t.cur + 1 + n.toNat, entry := t.entry + 1 } }
      | .field => .next { s with
          slots := s.slots.set t.entry ⟨nm, .str sd d sel v⟩
          xfer := none
          response := some (.ok (.bytes r)) }
    (t.rest = headerByte .bin n :: (p ++ r) → decBin p nm = .ok v → exec (.strBin n) s = loaded .bin) ∧
    (t.rest = headerByte .bcdPlus n :: (p ++ r) → decBcd p nm = .ok v → exec (.strBcdPlus n) s = loaded .bcdPlus) ∧
    (t.rest = headerByte .ascii6 n :: (p ++ r) → dec6Bit p nm = .ok v → exec (.strAscii6 n) s = loaded .ascii6) ∧
    (t.rest = headerByte .ascii8 n :: (p ++ r) → dec8Bit p nm = .ok v → exec (.strAscii8 n) s = loaded .ascii8)

/-- The prologue byte met at the start of a DESERIALIZE (R80, R190; log entry 12): VER becomes its
version nibble whatever the reserved one is, and the transfer goes on behind it. -/
def Obligations.PrologueLoadsVersion : Prop :=
  ∀ (s : State) (t : Xfer) (reserved version : BitVec 4), s.wanted = .prologue t →
    exec (.prologue reserved version) s = .next { s with ver := version, xfer := some { t with cur := 1 } }

/-- A wire element has no place between commands: where no transfer is open, executing one faults
(R33, R34; the model's choice, log entry 12). -/
def Obligations.WireElementsNeedATransfer : Prop :=
  ∀ (i : Instr) (s : State), isCommand i = false → s.xfer = none → exec i s = .fault .noTransfer

/-- DESERIALIZE, which is atomic (R53), is the walk over the wire elements in the order of R190: from its
transient state before the prologue, at most one step for each entry and two more reach the state exec
gives. That a wire element is a step of its own is the model's choice (log entry 12). -/
def Obligations.DeserializeIsTheElementWalk : Prop :=
  ∀ (s t : State) (buf : Octets), checkSchema s.schema = none → s.xfer = none →
    exec (.deserialize buf) s = .next t →
    ∃ k, k ≤ s.slots.length + 2 ∧ Host.Core.run Sys2Proof.core k (s.openRecord buf) = .next t

/-- FIELD_DESERIALIZE (R233) is one wire element: what exec does at once, one step does from the transient
state that openField makes. Wire elements and that state are the model's choice (log entry 12). -/
def Obligations.FieldDeserializeIsOneElement : Prop :=
  ∀ (s : State) (i : Nat) (sl : Slot) (buf : Octets), checkSchema s.schema = none → s.xfer = none →
    s.slots[i]? = some sl → step (s.openField buf i) = exec (.fieldDeserialize sl.name buf) s

/-! ### The whole machine -/

/-- The status codes (R71, R301): 0 for OK, and one of 1 to 11 for each error kind. -/
def Obligations.StatusCodesFollowTheTable : Prop :=
  (∀ r, (Response.ok r).status = 0) ∧
  ∀ e : Err, (Response.error e).status =
    match e with
    | .bitAlignment _ _ => 1
    | .lookupOctet _ _ _ => 2
    | .lookupNibble _ _ _ => 2
    | .lookupLength _ _ => 2
    | .textCodec _ => 3
    | .textCodecAt _ _ _ => 3
    | .checksumOrPadding _ _ => 4
    | .fieldAlignment _ _ => 5
    | .unknownField _ => 6
    | .truncated _ _ _ => 7
    | .valueShape _ _ => 8
    | .payloadShape _ _ => 9
    | .schema _ _ => 10
    | .illegalCommand _ => 11

/-- The invariant (R25 to R28, R352): every step from a state that meets it gives a state that does. -/
def Obligations.EveryStepKeepsTheInvariant : Prop :=
  ∀ s s' : State, s.Inv → step s = .next s' → s'.Inv

/-- From every state that meets the invariant the block goes on: an error response stops nothing (R304).
That an idle block goes on too, by a step to the same state, is the model's choice (log entry 8). -/
def Obligations.NoStepStopsTheBlock : Prop :=
  ∀ s : State, s.Inv → s.Safe

/-- No instruction changes SCHEMA (R20): the entries' names and prototypes are the same after it, in
every state. -/
def Obligations.NoInstructionChangesSchema : Prop :=
  ∀ (i : Instr) (s t : State), exec i s = .next t → t.schema = s.schema

/-- Every command ends with a response, opens no transfer and leaves an open one as it is, and leaves the
host's later commands alone (R34, R50, R300; log entries 7 and 12). -/
def Obligations.EveryCommandAnswers : Prop :=
  ∀ (i : Instr) (s : State), isCommand i = true →
    ∃ t r, exec i s = .next t ∧ t.response = some r ∧ t.xfer = s.xfer ∧ t.pending = s.pending

/-- R31: no command reads an earlier response. -/
def Obligations.NoCommandReadsAResponse : Prop :=
  ∀ (i : Instr) (s : State) (q : Option Response), isCommand i = true →
    exec i { s with response := q } = exec i s

/-- The commands without side effects (R64): they write no register, and issued twice they answer the
same both times. -/
def Obligations.ReadersHaveNoSideEffects : Prop :=
  ∀ (i : Instr) (s t : State),
    (match i with
      | .get _ | .contains _ | .toDict | .sizePayload | .sizeTotal | .fieldSize _ | .fieldSerialize _ => True
      | _ => False) →
    exec i s = .next t → t = { s with response := t.response } ∧ exec i t = .next t

/-- VER changes only under RESET, a SET or UPDATE that names format_version, DESERIALIZE, or inside
one; a selector only under RESET, DESERIALIZE and FIELD_DESERIALIZE, or inside one: SET and UPDATE
never change one (R25, R27, R30). -/
def Obligations.OnlyTheseInstructionsWriteVerAndSelectors : Prop :=
  ∀ (i : Instr) (s t : State), exec i s = .next t →
    (t.ver ≠ s.ver →
      i = .reset ∨ (∃ e, i = .set nameFormatVersion e) ∨
      (∃ m, i = .update m ∧ nameFormatVersion ∈ m.map Prod.fst) ∨ (∃ b, i = .deserialize b) ∨ isCommand i = false) ∧
    (t.slots.map selectorOf ≠ s.slots.map selectorOf →
      i = .reset ∨ (∃ b, i = .deserialize b) ∨ (∃ nm b, i = .fieldDeserialize nm b) ∨ isCommand i = false)
end

