-- ==== Sys2Proof/Laws/State.lean ====
section
/-! SUPPORT. Laws of State: for each update of the state, each field after it, true by rfl and a simp lemma, so that no proof
unfolds a record update. -/

namespace Sys2Proof.Machine

@[simp] theorem State.answer_ver (s : State) (r : Result) : (s.answer r).ver = s.ver := rfl
@[simp] theorem State.answer_slots (s : State) (r : Result) : (s.answer r).slots = s.slots := rfl
@[simp] theorem State.answer_xfer (s : State) (r : Result) : (s.answer r).xfer = s.xfer := rfl
@[simp] theorem State.answer_pending (s : State) (r : Result) : (s.answer r).pending = s.pending := rfl
@[simp] theorem State.answer_response (s : State) (r : Result) : (s.answer r).response = some (.ok r) := rfl
@[simp] theorem State.answer_draws (s : State) (r : Result) : (s.answer r).draws = s.draws := rfl

@[simp] theorem State.raise_ver (s : State) (e : Err) : (s.raise e).ver = s.ver := rfl
@[simp] theorem State.raise_slots (s : State) (e : Err) : (s.raise e).slots = s.slots := rfl
@[simp] theorem State.raise_xfer (s : State) (e : Err) : (s.raise e).xfer = s.xfer := rfl
@[simp] theorem State.raise_pending (s : State) (e : Err) : (s.raise e).pending = s.pending := rfl
@[simp] theorem State.raise_response (s : State) (e : Err) : (s.raise e).response = some (.error e) := rfl
@[simp] theorem State.raise_draws (s : State) (e : Err) : (s.raise e).draws = s.draws := rfl

@[simp] theorem State.putField_ver (s : State) (i : Nat) (sl : Slot) (f : Field) : (s.putField i sl f).ver = s.ver := rfl
@[simp] theorem State.putField_slots (s : State) (i : Nat) (sl : Slot) (f : Field) : (s.putField i sl f).slots = s.slots.set i { sl with field := f } := rfl
@[simp] theorem State.putField_xfer (s : State) (i : Nat) (sl : Slot) (f : Field) : (s.putField i sl f).xfer = s.xfer := rfl
@[simp] theorem State.putField_pending (s : State) (i : Nat) (sl : Slot) (f : Field) : (s.putField i sl f).pending = s.pending := rfl
@[simp] theorem State.putField_response (s : State) (i : Nat) (sl : Slot) (f : Field) : (s.putField i sl f).response = s.response := rfl
@[simp] theorem State.putField_draws (s : State) (i : Nat) (sl : Slot) (f : Field) : (s.putField i sl f).draws = s.draws := rfl

@[simp] theorem State.drawAll_ver (s : State) : (s.drawAll).ver = Config.freeVersion s.draws := rfl
@[simp] theorem State.drawAll_slots (s : State) : (s.drawAll).slots = drawSlots s.draws 0 s.slots := rfl
@[simp] theorem State.drawAll_xfer (s : State) : (s.drawAll).xfer = s.xfer := rfl
@[simp] theorem State.drawAll_pending (s : State) : (s.drawAll).pending = s.pending := rfl
@[simp] theorem State.drawAll_response (s : State) : (s.drawAll).response = s.response := rfl
@[simp] theorem State.drawAll_draws (s : State) : (s.drawAll).draws = s.draws + 1 := rfl

@[simp] theorem State.drawField_ver (s : State) (i : Nat) (sl : Slot) : (s.drawField i sl).ver = s.ver := rfl
@[simp] theorem State.drawField_slots (s : State) (i : Nat) (sl : Slot) : (s.drawField i sl).slots = s.slots.set i { sl with field := sl.field.draw s.draws i } := rfl
@[simp] theorem State.drawField_xfer (s : State) (i : Nat) (sl : Slot) : (s.drawField i sl).xfer = s.xfer := rfl
@[simp] theorem State.drawField_pending (s : State) (i : Nat) (sl : Slot) : (s.drawField i sl).pending = s.pending := rfl
@[simp] theorem State.drawField_response (s : State) (i : Nat) (sl : Slot) : (s.drawField i sl).response = s.response := rfl
@[simp] theorem State.drawField_draws (s : State) (i : Nat) (sl : Slot) : (s.drawField i sl).draws = s.draws + 1 := rfl

@[simp] theorem State.resetRegisters_ver (s : State) : (s.resetRegisters).ver = Config.defaultVersion := rfl
@[simp] theorem State.resetRegisters_slots (s : State) : (s.resetRegisters).slots = s.slots.map fun sl => { sl with field := sl.field.reset } := rfl
@[simp] theorem State.resetRegisters_xfer (s : State) : (s.resetRegisters).xfer = s.xfer := rfl
@[simp] theorem State.resetRegisters_pending (s : State) : (s.resetRegisters).pending = s.pending := rfl
@[simp] theorem State.resetRegisters_response (s : State) : (s.resetRegisters).response = s.response := rfl
@[simp] theorem State.resetRegisters_draws (s : State) : (s.resetRegisters).draws = s.draws := rfl

@[simp] theorem State.openRecord_ver (s : State) (buf : Octets) : (s.openRecord buf).ver = s.ver := rfl
@[simp] theorem State.openRecord_slots (s : State) (buf : Octets) : (s.openRecord buf).slots = s.slots := rfl
@[simp] theorem State.openRecord_xfer (s : State) (buf : Octets) : (s.openRecord buf).xfer = some ⟨.record, buf, 0, 0⟩ := rfl
@[simp] theorem State.openRecord_pending (s : State) (buf : Octets) : (s.openRecord buf).pending = s.pending := rfl
@[simp] theorem State.openRecord_response (s : State) (buf : Octets) : (s.openRecord buf).response = s.response := rfl
@[simp] theorem State.openRecord_draws (s : State) (buf : Octets) : (s.openRecord buf).draws = s.draws := rfl

@[simp] theorem State.openField_ver (s : State) (buf : Octets) (i : Nat) : (s.openField buf i).ver = s.ver := rfl
@[simp] theorem State.openField_slots (s : State) (buf : Octets) (i : Nat) : (s.openField buf i).slots = s.slots := rfl
@[simp] theorem State.openField_xfer (s : State) (buf : Octets) (i : Nat) : (s.openField buf i).xfer = some ⟨.field, buf, 0, i⟩ := rfl
@[simp] theorem State.openField_pending (s : State) (buf : Octets) (i : Nat) : (s.openField buf i).pending = s.pending := rfl
@[simp] theorem State.openField_response (s : State) (buf : Octets) (i : Nat) : (s.openField buf i).response = s.response := rfl
@[simp] theorem State.openField_draws (s : State) (buf : Octets) (i : Nat) : (s.openField buf i).draws = s.draws := rfl

@[simp] theorem State.issue_ver (s : State) (is : List Instr) : (s.issue is).ver = s.ver := rfl
@[simp] theorem State.issue_slots (s : State) (is : List Instr) : (s.issue is).slots = s.slots := rfl
@[simp] theorem State.issue_xfer (s : State) (is : List Instr) : (s.issue is).xfer = s.xfer := rfl
@[simp] theorem State.issue_pending (s : State) (is : List Instr) : (s.issue is).pending = s.pending ++ is.map fun i => Encoding.toCommand (encode i) := rfl
@[simp] theorem State.issue_response (s : State) (is : List Instr) : (s.issue is).response = s.response := rfl
@[simp] theorem State.issue_draws (s : State) (is : List Instr) : (s.issue is).draws = s.draws := rfl

/-- Ending a command that changes no state leaves every field but the response. -/
theorem State.finish_eq (s : State) (r : Except Err Result) :
    s.finish r = { s with response := some (match r with | .ok v => .ok v | .error e => .error e) } := by
  cases r <;> rfl

@[simp] theorem State.answer_response_irrelevant (s : State) (q : Option Response) (r : Result) :
    State.answer { s with response := q } r = s.answer r := rfl

@[simp] theorem State.raise_response_irrelevant (s : State) (q : Option Response) (e : Err) :
    State.raise { s with response := q } e = s.raise e := rfl

@[simp] theorem State.powerOn_ver (sc : Schema) : (State.powerOn sc).ver = Config.defaultVersion := rfl
@[simp] theorem State.powerOn_slots (sc : Schema) : (State.powerOn sc).slots = sc.map Entry.fresh := rfl
@[simp] theorem State.powerOn_xfer (sc : Schema) : (State.powerOn sc).xfer = none := rfl
@[simp] theorem State.powerOn_pending (sc : Schema) : (State.powerOn sc).pending = [] := rfl

/-- Instantiating a prototype and reading it back gives the prototype. -/
@[simp] theorem Proto.fresh_proto (p : Proto) : p.fresh.proto = p := by cases p <;> rfl

@[simp] theorem Entry.fresh_entry (e : Entry) : e.fresh.entry = e := by cases e; simp [Entry.fresh, Slot.entry]

@[simp] theorem Field.withBits_proto (x : BitVal) (f : Field) : (f.withBits x).proto = f.proto := by cases f <;> rfl
@[simp] theorem Field.withString_proto (sel : Selector) (v : Octets) (f : Field) :
    (f.withString sel v).proto = f.proto := by cases f <;> rfl
@[simp] theorem Field.draw_proto (n i : Nat) (f : Field) : (f.draw n i).proto = f.proto := by cases f <;> rfl
@[simp] theorem Field.reset_proto (f : Field) : f.reset.proto = f.proto := by cases f <;> rfl

end Sys2Proof.Machine
end

