-- ==== Sys2Proof/Laws/Ops.lean ====
section
/-! SUPPORT. Laws of the shared operations: one lemma for each that says once what it can do. -/

namespace Sys2Proof.Machine

/-- The two special names differ (R11). -/
@[simp] theorem nameAreaLength_ne_nameFormatVersion : nameAreaLength ≠ nameFormatVersion := by decide

@[simp] theorem nameFormatVersion_ne_nameAreaLength : nameFormatVersion ≠ nameAreaLength := by decide

/-- Every 7-bit sequence is valid text (R8). -/
theorem textValid_of_ascii {s : Octets} (h : ∀ c ∈ s, c.toNat < 0x80) : textValid s = true := by
  simp only [textValid, Bool.or_eq_true, List.all_eq_true, decide_eq_true_eq]
  exact .inl h

/-- A read succeeds exactly when the bytes are there, and splits them off (R9). -/
theorem memRead_ok_iff {site : Name} {b : Octets} {n : Nat} {p r : Octets} :
    memRead site b n = .ok (p, r) ↔ n ≤ b.length ∧ p = b.take n ∧ r = b.drop n := by
  unfold memRead
  split
  · simp; omega
  · simp only [Except.ok.injEq, Prod.mk.injEq]
    constructor
    · rintro ⟨rfl, rfl⟩; exact ⟨by omega, rfl, rfl⟩
    · rintro ⟨-, rfl, rfl⟩; exact ⟨rfl, rfl⟩

/-- A read past the end raises TruncatedInputError with the bytes needed and available (R9). -/
theorem memRead_error_iff {site : Name} {b : Octets} {n : Nat} {e : Err} :
    memRead site b n = .error e ↔ b.length < n ∧ e = .truncated site n b.length := by
  unfold memRead
  split <;> simp_all [eq_comm]

/-- A read of bytes that are at the front succeeds, whatever follows them. -/
theorem memRead_append (site : Name) (p r : Octets) : memRead site (p ++ r) p.length = .ok (p, r) := by
  rw [memRead_ok_iff]; simp

/-- firstBad answers none exactly when every octet passes. -/
theorem firstBad_none_iff {p : Byte → Bool} {s : Octets} {k : Nat} :
    firstBad p k s = none ↔ ∀ c ∈ s, p c = true := by
  induction s generalizing k with
  | nil => simp [firstBad]
  | cons c cs ih => by_cases h : p c <;> simp [firstBad, h, ih]

/-- firstBad's answer is the first octet that fails, at its index. -/
theorem firstBad_some {p : Byte → Bool} {s : Octets} {k m : Nat} {c : Byte} (h : firstBad p k s = some (m, c)) :
    ∃ j, m = k + j ∧ s[j]? = some c ∧ p c = false ∧ ∀ c' ∈ s.take j, p c' = true := by
  induction s generalizing k with
  | nil => simp [firstBad] at h
  | cons a as ih =>
    by_cases ha : p a
    · simp only [firstBad, ha, if_true] at h
      obtain ⟨j, rfl, hj, hc, hall⟩ := ih h
      exact ⟨j + 1, by omega, by simpa using hj, hc, by simpa [ha] using hall⟩
    · simp only [firstBad, ha, Bool.false_eq_true, if_false, Option.some.injEq, Prod.mk.injEq] at h
      obtain ⟨rfl, rfl⟩ := h
      exact ⟨0, rfl, by simp, by simpa using ha, by simp⟩

/-- findSlot's answer is the first slot of that name, at its index. -/
theorem findSlot_some {nm : Name} {slots : List Slot} {i : Nat} {sl : Slot} (h : findSlot nm slots = some (i, sl)) :
    slots[i]? = some sl ∧ sl.name = nm ∧ ∀ sl' ∈ slots.take i, sl'.name ≠ nm := by
  induction slots generalizing i with
  | nil => simp [findSlot] at h
  | cons a as ih =>
    simp only [findSlot] at h
    by_cases ha : a.name = nm
    · simp only [ha, if_true, Option.some.injEq, Prod.mk.injEq] at h
      obtain ⟨rfl, rfl⟩ := h
      exact ⟨by simp, ha, by simp⟩
    · simp only [ha, if_false] at h
      cases hf : findSlot nm as with
      | none => simp [hf] at h
      | some q =>
        obtain ⟨j, sl'⟩ := q
        simp only [hf, Option.some.injEq, Prod.mk.injEq] at h
        obtain ⟨rfl, rfl⟩ := h
        obtain ⟨h1, h2, h3⟩ := ih hf
        exact ⟨by simpa using h1, h2, by simpa [ha] using h3⟩

/-- findSlot answers none exactly when no slot has that name. -/
theorem findSlot_none_iff {nm : Name} {slots : List Slot} :
    findSlot nm slots = none ↔ ∀ sl ∈ slots, sl.name ≠ nm := by
  induction slots with
  | nil => simp [findSlot]
  | cons a as ih =>
    by_cases ha : a.name = nm
    · simp [findSlot, ha]
    · cases hf : findSlot nm as <;> simp_all [findSlot]

/-- A slot whose name no earlier slot has is the one findSlot finds. -/
theorem findSlot_of_first {nm : Name} {slots : List Slot} {i : Nat} {sl : Slot} (h : slots[i]? = some sl)
    (hn : sl.name = nm) (hf : ∀ sl' ∈ slots.take i, sl'.name ≠ nm) : findSlot nm slots = some (i, sl) := by
  induction slots generalizing i with
  | nil => simp at h
  | cons a as ih =>
    cases i with
    | zero => simp_all [findSlot]
    | succ i =>
      have ha : a.name ≠ nm := hf a (by simp)
      have := ih (by simpa using h) (fun sl' hs => hf sl' (by simp [hs]))
      simp [findSlot, ha, this]

/-- Drawing keeps the number of slots. -/
@[simp] theorem drawSlots_length (n i : Nat) (slots : List Slot) : (drawSlots n i slots).length = slots.length := by
  induction slots generalizing i with
  | nil => rfl
  | cons a as ih => simp [drawSlots, ih]

/-- The slot at index j of drawn slots. -/
theorem drawSlots_getElem? (n i j : Nat) (slots : List Slot) :
    (drawSlots n i slots)[j]? = slots[j]?.map fun sl => { sl with field := sl.field.draw n (i + j) } := by
  induction slots generalizing i j with
  | nil => simp [drawSlots]
  | cons a as ih =>
    cases j with
    | zero => simp [drawSlots]
    | succ j => simp [drawSlots, ih, Nat.add_assoc, Nat.add_comm 1 j]

/-- Drawing changes no schema entry. -/
theorem drawSlots_entry (n i : Nat) (slots : List Slot) :
    (drawSlots n i slots).map Slot.entry = slots.map Slot.entry := by
  induction slots generalizing i with
  | nil => rfl
  | cons a as ih => simp [drawSlots, ih, Slot.entry]

/-- Writing a register whose slot is at its index, with a field of the same prototype, changes no
schema entry. -/
theorem State.putField_schema {s : State} {i : Nat} {sl : Slot} {f : Field} (h : s.slots[i]? = some sl)
    (hf : f.proto = sl.field.proto) : (s.putField i sl f).schema = s.schema := by
  obtain ⟨hi, rfl⟩ := List.getElem?_eq_some_iff.mp h
  apply List.ext_getElem?
  intro j
  by_cases hj : i = j
  · subst hj
    simp [State.schema, Slot.entry, hf, hi]
  · simp [State.schema, hj]

/-- What is wanted when no transfer is open. -/
@[simp] theorem State.wanted_of_no_transfer {s : State} (h : s.xfer = none) : s.wanted = .nothing := by
  simp [State.wanted, h]

/-- When a string header is wanted, its transfer is open and its slot is the string entry the
transfer is at. -/
theorem State.wanted_header {s : State} {t : Xfer} {sl : Slot} (h : s.wanted = .header t sl) :
    s.xfer = some t ∧ s.slots[t.entry]? = some sl ∧ (t.span = .record → t.cur ≠ 0) ∧
      ∃ sd d sel v, sl.field = .str sd d sel v := by
  unfold State.wanted at h
  split at h
  · cases h
  · rename_i t' ht
    split at h
    · cases h
    · rename_i hn
      split at h
      · rename_i sl' hs
        split at h
        · cases h
        · rename_i sd d sel v hf
          cases h
          exact ⟨ht, hs, fun hr hc => hn ⟨hr, hc⟩, sd, d, sel, v, hf⟩
      · split at h <;> cases h

/-- When the prologue is wanted, the open transfer is a record's, before its first byte. -/
theorem State.wanted_prologue {s : State} {t : Xfer} (h : s.wanted = .prologue t) :
    s.xfer = some t ∧ t.span = .record ∧ t.cur = 0 := by
  unfold State.wanted at h
  split at h
  · cases h
  · split at h
    · rename_i t' ht hr
      cases h
      exact ⟨ht, hr⟩
    · split at h
      · split at h <;> cases h
      · split at h <;> cases h

/-- A SERIALIZE that fails late leaves the state before or after its area_length update, but for the
count of draws (R187). -/
theorem State.afterFailedSerialize_cases (s s1 : State) :
    s.afterFailedSerialize s1 = { s with draws := s.draws + 1 } ∨
    s.afterFailedSerialize s1 = { s1 with draws := s.draws + 1 } := by
  unfold State.afterFailedSerialize
  split
  · exact .inl rfl
  · exact .inr rfl

/-- The next command of an idle block is fetched and taken from the host's list. -/
theorem fetchCommand_cons {s : State} {c : Command} {rest : List Command} {i : Instr} (h : s.pending = c :: rest)
    (hd : decode ⟨.command, c.op, c.operands⟩ = .ok i) : fetchCommand s = .run i { s with pending := rest } := by
  simp [fetchCommand, h, hd]

end Sys2Proof.Machine
end

