-- ==== Sys2Proof/Laws/PerInstr.lean ====
section
/-! SUPPORT. A family of statements about each instruction as syntax: its encoding has the fixed bits of its row of
opcode_table.json. -/

namespace Sys2Proof.Laws.TableBits

/-- The format, mask and match of an instruction's row in opcode_table.json. -/
def row : Instr → Format × Byte × Byte
  | .reset => (.command, 0xFF, 0x01)
  | .get _ => (.command, 0xFF, 0x02)
  | .set _ _ => (.command, 0xFF, 0x03)
  | .contains _ => (.command, 0xFF, 0x04)
  | .update _ => (.command, 0xFF, 0x05)
  | .toDict => (.command, 0xFF, 0x06)
  | .sizePayload => (.command, 0xFF, 0x07)
  | .sizeTotal => (.command, 0xFF, 0x08)
  | .serialize => (.command, 0xFF, 0x09)
  | .deserialize _ => (.command, 0xFF, 0x0A)
  | .fieldSize _ => (.command, 0xFF, 0x10)
  | .fieldSerialize _ => (.command, 0xFF, 0x11)
  | .fieldDeserialize _ _ => (.command, 0xFF, 0x12)
  | .strBin _ => (.stringHeader, 0xC0, 0x00)
  | .strBcdPlus _ => (.stringHeader, 0xC0, 0x40)
  | .strAscii6 _ => (.stringHeader, 0xC0, 0x80)
  | .strAscii8 _ => (.stringHeader, 0xC0, 0xC0)
  | .prologue _ _ => (.recordPrologue, 0xF0, 0x00)

/-- A well-formed instruction's encoding is in its row's format and has its row's fixed bits. -/
def Statement (i : Instr) : Prop :=
  i.wellFormed = true → (encode i).format = (row i).1 ∧ (encode i).byte &&& (row i).2.1 = (row i).2.2

/-- A command's opcode is fixed in all its bits. -/
theorem and_ones (b : Byte) : b &&& 0xFF = b := BitVec.and_allOnes

theorem reset : Statement .reset := fun _ => ⟨rfl, and_ones 0x01⟩
theorem get (nm : Name) : Statement (.get nm) := fun _ => ⟨rfl, and_ones 0x02⟩
theorem set (nm : Name) (e : ExtValue) : Statement (.set nm e) := fun _ => ⟨rfl, and_ones 0x03⟩
theorem contains (nm : Name) : Statement (.contains nm) := fun _ => ⟨rfl, and_ones 0x04⟩
theorem update (m : Mapping) : Statement (.update m) := fun _ => ⟨rfl, and_ones 0x05⟩
theorem toDict : Statement .toDict := fun _ => ⟨rfl, and_ones 0x06⟩
theorem sizePayload : Statement .sizePayload := fun _ => ⟨rfl, and_ones 0x07⟩
theorem sizeTotal : Statement .sizeTotal := fun _ => ⟨rfl, and_ones 0x08⟩
theorem serialize : Statement .serialize := fun _ => ⟨rfl, and_ones 0x09⟩
theorem deserialize (buf : Octets) : Statement (.deserialize buf) := fun _ => ⟨rfl, and_ones 0x0A⟩
theorem fieldSize (nm : Name) : Statement (.fieldSize nm) := fun _ => ⟨rfl, and_ones 0x10⟩
theorem fieldSerialize (nm : Name) : Statement (.fieldSerialize nm) := fun _ => ⟨rfl, and_ones 0x11⟩
theorem fieldDeserialize (nm : Name) (buf : Octets) : Statement (.fieldDeserialize nm buf) := fun _ => ⟨rfl, and_ones 0x12⟩

/-- The top two bits of a header byte are its selector's code, whatever its length. -/
theorem headerByte_and_mask (sel : Selector) (n : BitVec 6) : headerByte sel n &&& 0xC0 = headerByte sel 0 := by
  revert n
  cases sel <;> decide

theorem strBin (n : BitVec 6) : Statement (.strBin n) := fun _ => ⟨rfl, headerByte_and_mask .bin n⟩
theorem strBcdPlus (n : BitVec 6) : Statement (.strBcdPlus n) := fun _ => ⟨rfl, headerByte_and_mask .bcdPlus n⟩
theorem strAscii6 (n : BitVec 6) : Statement (.strAscii6 n) := fun _ => ⟨rfl, headerByte_and_mask .ascii6 n⟩
theorem strAscii8 (n : BitVec 6) : Statement (.strAscii8 n) := fun _ => ⟨rfl, headerByte_and_mask .ascii8 n⟩

theorem prologue (r v : BitVec 4) : Statement (.prologue r v) := by
  intro h
  obtain rfl : r = 0 := by simpa [Instr.wellFormed] using h
  refine ⟨rfl, ?_⟩
  revert v
  decide

end Sys2Proof.Laws.TableBits
end

