-- ==== Sys2Proof/Laws/Schema.lean ====
section
/-! SUPPORT. Laws of a legal SCHEMA: what CHECK_SCHEMA's success says of the entries, and so what a name finds and resolves to. -/

namespace Sys2Proof.Machine

/-- A success of the checks from one entry on, taken apart: the entry passes, and so do the rest. -/
theorem checkSchemaFrom_cons_none {before : List Name} {e : Entry} {rest : Schema} :
    checkSchemaFrom before (e :: rest) = none ↔
      checkEntry before e = none ∧ checkSchemaFrom (before ++ [e.name]) rest = none := by
  cases h : checkEntry before e <;> simp [checkSchemaFrom, h]

/-- An entry that passes is not named format_version, and no entry before it has its name. -/
theorem checkEntry_none_name {before : List Name} {e : Entry} (h : checkEntry before e = none) :
    e.name ≠ nameFormatVersion ∧ e.name ∉ before := by
  unfold checkEntry at h
  split at h
  · cases h
  · split at h
    · cases h
    · exact ⟨‹_›, ‹_›⟩

/-- The names of a SCHEMA that passes: none is format_version, none was there before, all differ. -/
theorem checkSchemaFrom_none_names {before : List Name} {sc : Schema} (h : checkSchemaFrom before sc = none) :
    (∀ e ∈ sc, e.name ≠ nameFormatVersion ∧ e.name ∉ before) ∧ (sc.map Entry.name).Nodup := by
  induction sc generalizing before with
  | nil => simp
  | cons e rest ih =>
    obtain ⟨he, hr⟩ := checkSchemaFrom_cons_none.mp h
    obtain ⟨h1, h2⟩ := ih hr
    have hn := checkEntry_none_name he
    refine ⟨?_, ?_⟩
    · intro e' he'
      rcases List.mem_cons.mp he' with rfl | hm
      · exact hn
      · exact ⟨(h1 e' hm).1, fun hb => (h1 e' hm).2 (by simp [hb])⟩
    · rw [List.map_cons, List.nodup_cons]
      refine ⟨?_, h2⟩
      intro hm
      obtain ⟨e', he', hee⟩ := List.mem_map.mp hm
      exact (h1 e' he').2 (by simp [hee])

/-- Every prototype of a SCHEMA that passes passes its own checks. -/
theorem checkSchemaFrom_none_proto {before : List Name} {sc : Schema} (h : checkSchemaFrom before sc = none)
    {e : Entry} (he : e ∈ sc) :
    match e.proto with
    | .bit layout d => checkBitProto e.name layout d = none
    | .str _ _ => e.name ≠ nameAreaLength := by
  induction sc generalizing before with
  | nil => simp at he
  | cons e' rest ih =>
    obtain ⟨h', hr⟩ := checkSchemaFrom_cons_none.mp h
    rcases List.mem_cons.mp he with rfl | hm
    · unfold checkEntry at h'
      split at h'
      · cases h'
      · split at h'
        · cases h'
        · cases hp : e.proto with
          | bit layout d => simpa [hp] using h'
          | str sel d =>
            by_cases ha : e.name = nameAreaLength <;> simp_all
    · exact ih hr hm

/-- What a BitField prototype that passes is (R352). -/
theorem checkBitProto_none {name : Name} {layout : List Nat} {d : BitVal} (h : checkBitProto name layout d = none) :
    layout ≠ [] ∧ 0 ∉ layout ∧ layoutWidth layout % 8 = 0 ∧ (name = nameAreaLength → layout.length = 1) ∧
      d.legal layout = true := by
  unfold checkBitProto at h
  split at h
  · cases h
  split at h
  · cases h
  split at h
  · cases h
  split at h
  · rename_i h1 h2 h3 h4
    push Not at h1 h2 h3
    exact ⟨h1.1, h1.2, h2, h3, h4⟩
  · cases h

theorem State.schema_names (s : State) : s.schema.map Entry.name = s.slots.map Slot.name := by
  simp [State.schema, Slot.entry, Function.comp_def]

/-- In a block of a legal SCHEMA, a slot is the one its name finds. -/
theorem findSlot_of_legal {s : State} {i : Nat} {sl : Slot} (h : checkSchema s.schema = none)
    (hs : s.slots[i]? = some sl) : findSlot sl.name s.slots = some (i, sl) := by
  have hnd := (checkSchemaFrom_none_names h).2
  rw [State.schema_names] at hnd
  refine findSlot_of_first hs rfl ?_
  intro sl' hm heq
  obtain ⟨j, hj⟩ := List.mem_iff_getElem?.mp hm
  have hj' : j < i := by
    have := (List.getElem?_eq_some_iff.mp hj).1
    simp at this; omega
  have hjs : s.slots[j]? = some sl' := by rwa [List.getElem?_take, if_pos hj'] at hj
  have hi : (s.slots.map Slot.name)[i]? = some sl.name := by simp [hs]
  have hj2 : (s.slots.map Slot.name)[j]? = some sl.name := by simp [hjs, heq]
  have := (List.nodup_iff_getElem?_ne_getElem?.mp hnd) j i hj' (List.getElem?_eq_some_iff.mp hi).1
  exact this (by rw [hj2, hi])

/-- In a block of a legal SCHEMA no slot is named format_version. -/
theorem slot_name_ne_formatVersion {s : State} {sl : Slot} (h : checkSchema s.schema = none) (hm : sl ∈ s.slots) :
    sl.name ≠ nameFormatVersion :=
  ((checkSchemaFrom_none_names h).1 sl.entry (List.mem_map_of_mem hm)).1

/-- A schema name other than area_length resolves to its entry (R220). -/
theorem resolve_field {s : State} {i : Nat} {sl : Slot} (h : checkSchema s.schema = none)
    (hs : s.slots[i]? = some sl) (ha : sl.name ≠ nameAreaLength) : resolve sl.name s = .ok (.field i sl) := by
  have hv := slot_name_ne_formatVersion h (List.mem_of_getElem? hs)
  simp [resolve, hv, ha, findSlot_of_legal h hs]

/-- area_length, when SCHEMA has it, resolves to its special accessor (R220, R28). -/
theorem resolve_area {s : State} {i w : Nat} {d x : BitVal} (h : checkSchema s.schema = none)
    (hs : s.slots[i]? = some ⟨nameAreaLength, .bit [w] d x⟩) :
    resolve nameAreaLength s = .ok (.area i ⟨nameAreaLength, .bit [w] d x⟩ w x) := by
  have hf := findSlot_of_legal h hs
  simp only at hf
  simp [resolve, State.areaEntry, hf]

/-- The name format_version resolves to VER (R220). -/
@[simp] theorem resolve_version (s : State) : resolve nameFormatVersion s = .ok .version := by simp [resolve]

/-- A name that no slot has and that is not format_version resolves to nothing (R220). -/
theorem resolve_unknown {s : State} {nm : Name} (hv : nm ≠ nameFormatVersion) (h : ∀ sl ∈ s.slots, sl.name ≠ nm) :
    resolve nm s = .error (.unknownField nm) := by
  have hf := findSlot_none_iff.mpr h
  by_cases ha : nm = nameAreaLength
  · subst ha; simp [resolve, State.areaEntry, hf]
  · simp [resolve, hv, ha, hf]

end Sys2Proof.Machine
end

