-- ==== Sys2Proof/Tests/Slice0.lean ====
section
/-! SUPPORT. The model's own tests: well-formedness, decoding of words written from the spec's encodings, the worked vectors
of 95_test_vectors.md, one step on a small state each, and a witness for the hypotheses of each statement. -/

open Sys2Proof
open Sys2Proof.Machine
open Sys2Proof.Claims

namespace Sys2Proof.Tests

/-- Schema A of 95_test_vectors.md section 5. -/
def schemaA : Schema :=
  [ ⟨ascii "area_length", .bit [8] (.scalar 0)⟩, ⟨ascii "pair", .bit [4, 12] (.tuple [0, 0])⟩,
    ⟨ascii "u", .bit [8] .unset⟩, ⟨ascii "mfr", .str .ascii6 []⟩ ]

/-- The block of schema A, freshly reset. -/
def blockA : State := State.powerOn schemaA

/-- The block of P4: one ASCII_8BIT field. -/
def blockS : State := State.powerOn [⟨ascii "s", .str .ascii8 []⟩]

/-- The block with only an 8-bit area_length. -/
def blockL : State := State.powerOn [⟨ascii "area_length", .bit [8] (.scalar 0)⟩]

/-- The block with one BitField of layout (16). -/
def blockF : State := State.powerOn [⟨ascii "f", .bit [16] (.scalar 0)⟩]

/-- The response a step of one instruction gives. -/
def answerOf (i : Instr) (s : State) : Option Response :=
  match exec i s with
  | .next t => t.response
  | _ => none

/-- What an instruction leaves of the registers. -/
def fieldsAfter (i : Instr) (s : State) : List Field :=
  match exec i s with
  | .next t => t.slots.map fun sl => sl.field
  | _ => []

/-- What an instruction leaves in VER. -/
def verAfter (i : Instr) (s : State) : Option (BitVec 4) :=
  match exec i s with
  | .next t => some t.ver
  | _ => none

/-! ### Well-formedness and the schema checks: an ill-formed term for each check -/

theorem test_wellFormed_refuses_reserved_nibble : (Instr.prologue 2 1).wellFormed = false := by decide
theorem test_wellFormed_refuses_partial_chunk : (Instr.strAscii6 2).wellFormed = false := by decide
theorem test_wellFormed_accepts : (Instr.prologue 0 1).wellFormed = true ∧ (Instr.strAscii6 3).wellFormed = true ∧
    (Instr.strBin 63).wellFormed = true ∧ (Instr.get []).wellFormed = true := by decide

/-- V-I1, V-I2, V-I3, V-I4. -/
theorem test_schema_alignment_and_names :
    checkSchema [⟨ascii "f", .bit [4] (.scalar 0)⟩] = some (.bitAlignment (ascii "f") 4) ∧
    checkSchema [⟨ascii "f", .bit [4, 4, 4] (.tuple [0, 0, 0])⟩] = some (.bitAlignment (ascii "f") 12) ∧
    checkSchema [⟨ascii "f", .bit [8] (.scalar 0)⟩, ⟨ascii "f", .bit [8] (.scalar 0)⟩] =
      some (.schema (ascii "f") .duplicateName) ∧
    checkSchema [⟨ascii "format_version", .bit [8] (.scalar 0)⟩] =
      some (.schema (ascii "format_version") .reservedName) := by decide

/-- V-I5 to V-I9. -/
theorem test_schema_shapes_and_defaults :
    checkSchema [⟨ascii "area_length", .bit [4, 4] (.tuple [0, 0])⟩] =
      some (.schema (ascii "area_length") .areaLengthMustHaveOneGroup) ∧
    checkSchema [⟨ascii "area_length", .str .bin []⟩] =
      some (.schema (ascii "area_length") .areaLengthMustBeBitField) ∧
    checkSchema [⟨ascii "f", .bit [8] (.scalar 256)⟩] = some (.schema (ascii "f") .illegalDefault) ∧
    checkSchema [⟨ascii "f", .bit [0, 8] (.tuple [0, 0])⟩] =
      some (.schema (ascii "f") .emptyLayoutOrZeroWidthGroup) ∧
    checkSchema [⟨ascii "f", .bit [8] .unset⟩] = none := by decide

/-! ### Decoding: each row's word, from R72, R74 and R80 -/

theorem test_decode_commands_without_operands :
    decode ⟨.command, 0x01, {}⟩ = .ok .reset ∧ decode ⟨.command, 0x06, {}⟩ = .ok .toDict ∧
    decode ⟨.command, 0x07, {}⟩ = .ok .sizePayload ∧ decode ⟨.command, 0x08, {}⟩ = .ok .sizeTotal ∧
    decode ⟨.command, 0x09, {}⟩ = .ok .serialize := by decide

theorem test_decode_commands_with_operands :
    decode ⟨.command, 0x02, { name := [1] }⟩ = .ok (.get [1]) ∧
    decode ⟨.command, 0x03, { name := [1], value := .list [7] }⟩ = .ok (.set [1] (.list [7])) ∧
    decode ⟨.command, 0x04, { name := [1] }⟩ = .ok (.contains [1]) ∧
    decode ⟨.command, 0x05, { mapping := [([1], .int 2)] }⟩ = .ok (.update [([1], .int 2)]) ∧
    decode ⟨.command, 0x0A, { buf := [9, 8] }⟩ = .ok (.deserialize [9, 8]) ∧
    decode ⟨.command, 0x10, { name := [1] }⟩ = .ok (.fieldSize [1]) ∧
    decode ⟨.command, 0x11, { name := [1] }⟩ = .ok (.fieldSerialize [1]) ∧
    decode ⟨.command, 0x12, { name := [1], buf := [9] }⟩ = .ok (.fieldDeserialize [1] [9]) := by decide

theorem test_decode_refuses_illegal_opcodes :
    decode ⟨.command, 0x00, {}⟩ = .error (.illegalOpcode 0x00) ∧
    decode ⟨.command, 0x0B, {}⟩ = .error (.illegalOpcode 0x0B) ∧
    decode ⟨.command, 0x0F, {}⟩ = .error (.illegalOpcode 0x0F) ∧
    decode ⟨.command, 0x13, {}⟩ = .error (.illegalOpcode 0x13) ∧
    decode ⟨.command, 0xFF, {}⟩ = .error (.illegalOpcode 0xFF) := by decide

/-- Headers 0x02, 0x41, 0x83 and 0xC2 of V-T18, V-S1, V-S3 and V-S2; prologues 0x0F and 0x21 of V-F7 and V-F14. -/
theorem test_decode_wire_bytes :
    decode ⟨.stringHeader, 0b00000010, {}⟩ = .ok (.strBin 2) ∧
    decode ⟨.stringHeader, 0b01000001, {}⟩ = .ok (.strBcdPlus 1) ∧
    decode ⟨.stringHeader, 0b10000011, {}⟩ = .ok (.strAscii6 3) ∧
    decode ⟨.stringHeader, 0b11000010, {}⟩ = .ok (.strAscii8 2) ∧
    decode ⟨.recordPrologue, 0b00001111, {}⟩ = .ok (.prologue 0 15) ∧
    decode ⟨.recordPrologue, 0b00100001, {}⟩ = .ok (.prologue 2 1) := by decide

/-- One word for each row of the table that the row's format priority leaves to it (log entry 11). -/
theorem test_decodeTableWord :
    decodeTableWord 8 0x0A = some (.deserialize []) ∧ decodeTableWord 8 0x12 = some (.fieldDeserialize [] []) ∧
    decodeTableWord 8 0x00 = some (.prologue 0 0) ∧ decodeTableWord 8 0x20 = some (.strBin 32) ∧
    decodeTableWord 8 0x40 = some (.strBcdPlus 0) ∧ decodeTableWord 8 0x80 = some (.strAscii6 0) ∧
    decodeTableWord 8 0xC0 = some (.strAscii8 0) ∧ decodeTableWord 8 256 = none ∧ decodeTableWord 16 1 = none := by
  decide

/-! ### The units: vectors of 95_test_vectors.md sections 2 and 3 -/

/-- V-B3, V-B5, V-B6, V-B9, V-B11, V-B14, V-B15, V-B29. -/
theorem test_bfPack :
    bfPack [4, 4] (.tuple [0, 1]) [] = .ok [0x01] ∧ bfPack [4, 12] (.tuple [0xA, 0x123]) [] = .ok [0x23, 0xA1] ∧
    bfPack [8, 8] (.tuple [0x11, 0x22]) [] = .ok [0x22, 0x11] ∧
    bfPack [3, 5, 8] (.tuple [5, 3, 0xFF]) [] = .ok [0xFF, 0xA3] ∧
    bfPack [12, 4] (.tuple [0x123, 0xA]) [] = .ok [0x3A, 0x12] ∧
    bfPack [16, 8] (.tuple [0x0102, 0x03]) [] = .ok [0x03, 0x02, 0x01] ∧
    bfPack [48] (.scalar 0x0102030405) [] = .ok [0x05, 0x04, 0x03, 0x02, 0x01, 0x00] ∧
    bfPack [8] .unset [1] = .error (.valueShape [1] .unset) := by decide

/-- V-B16, V-B17, V-B18, V-B19, V-B20. -/
theorem test_bfUnpack :
    bfUnpack [16] [0x34, 0x12, 0x56] [] = .ok (.scalar 0x1234, [0x56]) ∧
    bfUnpack [4, 12] [0x23, 0xA1] [] = .ok (.tuple [0xA, 0x123], []) ∧
    bfUnpack [8, 8] [0x22, 0x11, 0xFF] [] = .ok (.tuple [0x11, 0x22], [0xFF]) ∧
    bfUnpack [16] [0x34] [1] = .error (.truncated [1] 2 1) ∧
    bfUnpack [8] [] [1] = .error (.truncated [1] 1 0) := by decide

/-- V-B21 to V-B27. -/
theorem test_bfCheck :
    bfCheck [8] (.int 255) [] = .ok (.scalar 255) ∧
    bfCheck [8] (.int 256) [] = .error (.valueShape [] (.value (.int 256))) ∧
    bfCheck [8] (.int (-1)) [] = .error (.valueShape [] (.value (.int (-1)))) ∧
    bfCheck [8] (.list [1]) [] = .error (.valueShape [] (.value (.list [1]))) ∧
    bfCheck [4, 4] (.int 5) [] = .error (.valueShape [] (.value (.int 5))) ∧
    bfCheck [4, 4] (.list [1, 2, 3]) [] = .error (.valueShape [] (.value (.list [1, 2, 3]))) ∧
    bfCheck [4, 4] (.list [15, 16]) [] = .error (.valueShape [] (.value (.list [15, 16]))) := by decide

/-- V-T2, V-T4, V-T5, V-T9, V-T11, V-T13, V-T16, V-T18. -/
theorem test_strSerialize :
    strSerialize .bcdPlus (ascii "1") [] = .ok [0x41, 0x1A] ∧
    strSerialize .bcdPlus (ascii "-. ") [] = .ok [0x42, 0xBC, 0xAA] ∧
    strSerialize .bcdPlus (ascii "12-3") [] = .ok [0x42, 0x12, 0xB3] ∧
    strSerialize .ascii6 (ascii "ipmi") [] = .ok [0x83, 0x29, 0xDC, 0xA6] ∧
    strSerialize .ascii6 (ascii "ab") [] = .ok [0x83, 0xA1, 0x08, 0x00] ∧
    strSerialize .ascii6 (ascii "CAENELS") [] = .ok [0x86, 0x63, 0x58, 0xBA, 0x25, 0x3B, 0x03] ∧
    strSerialize .ascii8 (ascii "Hi") [] = .ok [0xC2, 0x48, 0x69] ∧
    strSerialize .bin [0x00, 0xFF] [] = .ok [0x02, 0x00, 0xFF] := by decide

/-- V-T19, V-T20, V-T23, V-T24, V-T25, V-T27, V-T29. -/
theorem test_strSerialize_errors :
    strSerialize .bcdPlus (ascii "12A") [] = .error (.lookupOctet [] 2 0x41) ∧
    strSerialize .bcdPlus (ascii "a") [] = .error (.lookupOctet [] 0 0x61) ∧
    strSerialize .ascii6 (ascii "a`") [] = .error (.textCodecAt [] 1 0x60) ∧
    strSerialize .ascii6 [0x41, 0x0A] [] = .error (.textCodecAt [] 1 0x0A) ∧
    strSerialize .ascii6 [0xE9] [] = .error (.textCodecAt [] 0 0xE9) ∧
    strSerialize .ascii6 (List.replicate 85 0x41) [] = .error (.lookupLength [] 66) ∧
    strSerialize .ascii8 (List.replicate 64 0x78) [] = .error (.lookupLength [] 64) := by decide

/-- V-T31, V-T33, V-T34, V-T36, V-T37, V-T39. -/
theorem test_strDeserialize :
    strDeserialize [0x41, 0x1A] [] = .ok (.bcdPlus, ascii "1 ", []) ∧
    strDeserialize [0x83, 0x69, 0x0B, 0xA7] [] = .ok (.ascii6, ascii "IMPI", []) ∧
    strDeserialize [0x83, 0xFF, 0xFF, 0xFF] [] = .ok (.ascii6, ascii "____", []) ∧
    strDeserialize [0xC2, 0x48, 0x69, 0x01] [] = .ok (.ascii8, ascii "Hi", [0x01]) ∧
    strDeserialize [0x02, 0x41, 0x42] [] = .ok (.bin, ascii "AB", []) ∧
    strDeserialize [0x80, 0xAA] [] = .ok (.ascii6, [], [0xAA]) := ⟨by decide, by decide, by decide, by decide, by decide, by decide⟩

/-- V-T40 to V-T44. -/
theorem test_strDeserialize_errors :
    strDeserialize [0x41, 0x1D] [] = .error (.lookupNibble [] 0 0xD) ∧
    strDeserialize [0x41, 0xF0] [] = .error (.lookupNibble [] 0 0xF) ∧
    strDeserialize [0x82, 0x29, 0xDC] [] = .error (.payloadShape [] 2) ∧
    strDeserialize [0xC3, 0x48, 0x69] [] = .error (.truncated [] 4 3) ∧
    strDeserialize [] [] = .error (.truncated [] 1 0) := ⟨by decide, by decide, by decide, by decide, by decide⟩

/-! ### The commands: at most two each -/

/-- V-A28. -/
theorem test_reset : exec .reset { blockA with ver := 9 } = .next { blockA with response := some (.ok .none) } := by
  rfl

/-- V-A1, V-A12, V-A17, V-A30. -/
theorem test_get :
    answerOf (.get (ascii "format_version")) blockA = some (.ok (.value (.int 1))) ∧
    answerOf (.get (ascii "u")) blockA = some (.error (.valueShape (ascii "u") .unset)) ∧
    answerOf (.get (ascii "nosuch")) blockA = some (.error (.unknownField (ascii "nosuch"))) ∧
    answerOf (.get (ascii "area_length")) State.reset = some (.error (.unknownField (ascii "area_length"))) := by decide

/-- V-A3, V-A6, V-A7, V-A8, V-A16. -/
theorem test_set_refuses :
    answerOf (.set (ascii "format_version") (.int 16)) blockA =
      some (.error (.valueShape (ascii "format_version") (.value (.int 16)))) ∧
    answerOf (.set (ascii "area_length") (.int 10)) blockA =
      some (.error (.fieldAlignment (ascii "area_length") 10)) ∧
    answerOf (.set (ascii "area_length") (.int 2048)) blockA =
      some (.error (.valueShape (ascii "area_length") (.number 2048))) ∧
    answerOf (.set (ascii "area_length") (.int (-8))) blockA =
      some (.error (.valueShape (ascii "area_length") (.number (-8)))) ∧
    answerOf (.set (ascii "mfr") (.int 5)) blockA =
      some (.error (.valueShape (ascii "mfr") (.value (.int 5)))) := by decide

/-- V-A2, V-A5, V-A10, V-A15. -/
theorem test_set_writes :
    verAfter (.set (ascii "format_version") (.int 15)) blockA = some 15 ∧
    (fieldsAfter (.set (ascii "area_length") (.int 16)) blockA)[0]? = some (.bit [8] (.scalar 0) (.scalar 2)) ∧
    (fieldsAfter (.set (ascii "pair") (.list [10, 0x123])) blockA)[1]? =
      some (.bit [4, 12] (.tuple [0, 0]) (.tuple [0xA, 0x123])) ∧
    (fieldsAfter (.set (ascii "mfr") (.str (ascii "ipmi"))) blockA)[3]? =
      some (.str .ascii6 [] .ascii6 (ascii "ipmi")) := by decide

/-- V-A18, V-A30. -/
theorem test_contains :
    answerOf (.contains (ascii "area_length")) State.reset = some (.ok (.flag true)) ∧
    answerOf (.contains (ascii "format_version")) blockA = some (.ok (.flag true)) ∧
    answerOf (.contains (ascii "mfr")) blockA = some (.ok (.flag true)) ∧
    answerOf (.contains (ascii "nosuch")) blockA = some (.ok (.flag false)) := by decide

/-- V-A19: the prefix stays applied. -/
theorem test_update_keeps_prefix :
    let m : Mapping := [(ascii "format_version", .int 3), (ascii "nosuch", .int 1)]
    verAfter (.update m) blockA = some 3 ∧
    answerOf (.update m) blockA = some (.error (.unknownField (ascii "nosuch"))) := by decide

/-- V-A20: the later entry wins. -/
theorem test_update_later_wins :
    (fieldsAfter (.update [(ascii "u", .int 1), (ascii "u", .int 2)]) blockA)[2]? =
      some (.bit [8] .unset (.scalar 2)) := by decide

/-- V-A13; and TO_DICT of the one-field block of R229's example. -/
theorem test_toDict :
    answerOf .toDict blockA = some (.error (.valueShape (ascii "u") .unset)) ∧
    answerOf .toDict blockL = some (.ok (.mapping [(ascii "area_length", .int 0)])) := by decide

/-- V-F1. -/
theorem test_sizes :
    answerOf .sizePayload State.reset = some (.ok (.natural 1)) ∧
    answerOf .sizeTotal State.reset = some (.ok (.natural 8)) := by decide

/-- V-S4, V-F4, V-F5. -/
theorem test_serialize :
    answerOf .serialize State.reset = some (.ok (.bytes [1, 0, 0, 0, 0, 0, 0, 0xFF])) ∧
    answerOf .serialize blockL = some (.ok (.bytes [1, 1, 0, 0, 0, 0, 0, 0xFE])) ∧
    answerOf .serialize (State.powerOn [⟨ascii "area_length", .bit [8] (.scalar 0)⟩,
      ⟨ascii "s", .str .bcdPlus (ascii "1")⟩]) =
      some (.ok (.bytes [0x01, 0x01, 0x41, 0x1A, 0x00, 0x00, 0x00, 0xA3])) := by decide

/-- V-F10, V-F11. -/
theorem test_serialize_errors :
    answerOf .serialize (State.powerOn [⟨ascii "area_length", .bit [8] (.scalar 0)⟩, ⟨ascii "big", .bit [16384] (.scalar 0)⟩]) =
      some (.error (.valueShape (ascii "area_length") (.number 257))) ∧
    answerOf .serialize (State.powerOn [⟨ascii "s", .str .bcdPlus (ascii "x")⟩]) =
      some (.error (.lookupOctet (ascii "s") 0 0x78)) := by decide

/-- V-F14, V-F19, V-F20, V-F22. -/
theorem test_deserialize :
    verAfter (.deserialize [0x21, 0, 0, 0, 0, 0, 0, 0xDF]) State.reset = some 1 ∧
    fieldsAfter (.deserialize [1, 5, 0, 0, 0, 0, 0, 0xFA]) blockL = [.bit [8] (.scalar 0) (.scalar 5)] ∧
    fieldsAfter (.deserialize [0x01, 0x41, 0x31, 0, 0, 0, 0, 0x8D]) blockS = [.str .ascii8 [] .bcdPlus (ascii "31")] ∧
    answerOf (.deserialize [0x01, 0xC1, 0x41, 0, 0, 0, 0, 0xFD, 0x02, 0xC2, 0x42, 0x43, 0, 0, 0, 0xB7]) blockS =
      some (.ok (.bytes [0x02, 0xC2, 0x42, 0x43, 0, 0, 0, 0xB7])) := by decide

/-- V-F15, V-F16, V-F17, V-F18, V-F21. -/
theorem test_deserialize_errors :
    answerOf (.deserialize [1, 0, 0, 0, 0, 0, 0, 0xFE]) State.reset =
      some (.error (.checksumOrPadding [0, 0, 0, 0, 0, 0, 0xFF] [0, 0, 0, 0, 0, 0, 0xFE])) ∧
    answerOf (.deserialize [1, 0, 0, 1, 0, 0, 0, 0xFE]) State.reset =
      some (.error (.checksumOrPadding [0, 0, 0, 0, 0, 0, 0xFF] [0, 0, 1, 0, 0, 0, 0xFE])) ∧
    answerOf (.deserialize [1, 0, 0]) State.reset =
      some (.error (.checksumOrPadding [0, 0, 0, 0, 0, 0, 0xFF] [0, 0])) ∧
    answerOf (.deserialize []) State.reset = some (.error (.truncated (ascii "prologue") 1 0)) ∧
    answerOf (.deserialize [0x01, 0x34]) blockF = some (.error (.truncated (ascii "f") 2 1)) := by decide

/-- V-A21, V-A22. -/
theorem test_fieldSize :
    answerOf (.fieldSize (ascii "pair")) blockA = some (.ok (.natural 2)) ∧
    answerOf (.fieldSize (ascii "mfr")) blockA = some (.ok (.natural 1)) ∧
    answerOf (.fieldSize (ascii "format_version")) blockA =
      some (.error (.unknownField (ascii "format_version"))) := by decide

/-- V-A24: the raw unit value, not updated. -/
theorem test_fieldSerialize :
    answerOf (.fieldSerialize (ascii "area_length")) blockA = some (.ok (.bytes [0])) := by decide

/-- V-A25, V-A26. -/
theorem test_fieldDeserialize :
    answerOf (.fieldDeserialize (ascii "pair") [0x23, 0xA1, 0x77]) blockA = some (.ok (.bytes [0x77])) ∧
    (fieldsAfter (.fieldDeserialize (ascii "pair") [0x23, 0xA1, 0x77]) blockA)[1]? =
      some (.bit [4, 12] (.tuple [0, 0]) (.tuple [0xA, 0x123])) ∧
    (fieldsAfter (.fieldDeserialize (ascii "mfr") [0x83, 0x29, 0xDC, 0xA6]) blockA)[3]? =
      some (.str .ascii6 [] .ascii6 (ascii "IPMI")) := by decide

/-- V-A27. -/
theorem test_fieldDeserialize_error :
    answerOf (.fieldDeserialize (ascii "mfr") [0x43, 0x12]) blockA =
      some (.error (.truncated (ascii "mfr") 4 2)) := by decide

/-! ### The wire elements and the step -/

/-- The payload bytes of V-S1, V-S2, V-S3 and V-T37 met in a field's input. -/
theorem test_string_headers :
    fieldsAfter (.strBcdPlus 1) (blockS.openField [0x41, 0x12] 0) = [.str .ascii8 [] .bcdPlus (ascii "12")] ∧
    fieldsAfter (.strAscii8 2) (blockS.openField [0xC2, 0x48, 0x69] 0) = [.str .ascii8 [] .ascii8 (ascii "Hi")] ∧
    fieldsAfter (.strAscii6 3) (blockS.openField [0x83, 0x29, 0xDC, 0xA6] 0) =
      [.str .ascii8 [] .ascii6 (ascii "IPMI")] ∧
    fieldsAfter (.strBin 2) (blockS.openField [0x02, 0x41, 0x42] 0) = [.str .ascii8 [] .bin (ascii "AB")] := by decide

/-- V-F14's prologue: the reserved nibble is ignored. -/
theorem test_prologue : verAfter (.prologue 2 1) ({ blockS with ver := 7 }.openRecord [0x21]) = some 1 := by decide

/-- V-A29: opcode 0x0B. -/
theorem test_step_illegal_opcode :
    step { State.reset with pending := [⟨0x0B, {}⟩] } =
      .next { State.reset with response := some (.error (.illegalCommand 0x0B)) } := by rfl

/-- P1, command 2, as the host issues it. -/
theorem test_step_runs_the_next_command :
    step (State.reset.issue [.serialize, .toDict]) =
      .next { State.reset with
        pending := [⟨0x06, {}⟩]
        response := some (.ok (.bytes [1, 0, 0, 0, 0, 0, 0, 0xFF])) } := by rfl

/-- withFetchWord places a table word where the step fetches it. -/
theorem test_withFetchWord :
    step (State.reset.withFetchWord 8 0x08) = .next { State.reset with response := some (.ok (.natural 8)) } ∧
    step (State.reset.withFetchWord 8 0x05) = .next { State.reset with response := some (.ok .none) } := ⟨by rfl, by rfl⟩

/-- The status codes of R301 for OK, a checksum error and an illegal opcode. -/
theorem test_status :
    (Response.ok .none).status = 0 ∧ (Response.error (.checksumOrPadding [] [])).status = 4 ∧
    (Response.error (.illegalCommand 0)).status = 11 := by decide

/-! ### Command text (R86) -/

/-- The forms of 95_test_vectors.md's programs. -/
theorem test_readLine :
    readLine (ascii "SET pair, [0xA, 0x123]") = some (.command (.set (ascii "pair") (.list [10, 291]))) ∧
    readLine (ascii "SET mfr, \"ip\\x6Di\" ; a name") = some (.command (.set (ascii "mfr") (.str (ascii "ipmi")))) ∧
    readLine (ascii "SET area_length, -8") = some (.command (.set (ascii "area_length") (.int (-8)))) ∧
    readLine (ascii "DESERIALIZE h\"01 FF\"") = some (.command (.deserialize [0x01, 0xFF])) ∧
    readLine (ascii "GET format_version") = some (.command (.get (ascii "format_version"))) ∧
    readLine (ascii "GET") = none ∧ readLine (ascii "  ; nothing") = some .blank := by decide +kernel

/-- A mapping, its braces being octets 0x7B and 0x7D. -/
theorem test_readLine_mapping :
    readLine (ascii "UPDATE " ++ [0x7B] ++ ascii "format_version: 3, nosuch: 1" ++ [0x7D]) =
      some (.command (.update [(ascii "format_version", .int 3), (ascii "nosuch", .int 1)])) ∧
    readLine (ascii "CONSTRUCT " ++ [0x7B, 0x7D]) = some (.construct []) := by decide +kernel

/-! ### Witnesses: for each statement with hypotheses, a concrete input that meets them, clause by clause -/

theorem test_witness_IllegalOpcodeRaisesAndChangesNothing :
    let s : State := { blockA with pending := [⟨0x0B, {}⟩] }
    checkSchema s.schema = none ∧ s.xfer = none ∧ s.pending = [⟨0x0B, {}⟩] ∧ (0x0B : Byte) ∉ legalOpcodes ∧
      (0x00 : Byte) ∉ legalOpcodes ∧ (0x13 : Byte) ∉ legalOpcodes := by decide

theorem test_witness_StepRunsDecodedCommand :
    let s : State := { blockA with pending := [⟨0x12, { name := ascii "mfr" }⟩] }
    checkSchema s.schema = none ∧ s.xfer = none ∧
      decode ⟨.command, 0x12, { name := ascii "mfr" }⟩ = .ok (.fieldDeserialize (ascii "mfr") []) := by decide

theorem test_witness_StepRunsDecodedWireByte :
    checkSchema (blockS.openField [0xC2, 0x48, 0x69] 0).schema = none ∧
    (blockS.openField [0xC2, 0x48, 0x69] 0).wanted =
      .header ⟨.field, [0xC2, 0x48, 0x69], 0, 0⟩ ⟨ascii "s", .str .ascii8 [] .ascii8 []⟩ ∧
    (blockS.openRecord [0x21]).wanted = .prologue ⟨.record, [0x21], 0, 0⟩ := by decide

theorem test_witness_StepOutsideInstructions :
    checkSchema State.reset.schema = none ∧ State.reset.xfer = none ∧ State.reset.pending = [] ∧
    (blockF.openField [1, 2] 0).wanted = .bits ⟨.field, [1, 2], 0, 0⟩ ⟨ascii "f", .bit [16] (.scalar 0) (.scalar 0)⟩ ∧
    ([1, 2] : Octets).length = [16].sum / 8 ∧ (blockF.openField [1] 0).wanted =
      .bits ⟨.field, [1], 0, 0⟩ ⟨ascii "f", .bit [16] (.scalar 0) (.scalar 0)⟩ ∧ [1].length < [16].sum / 8 ∧
    { State.reset with xfer := some ⟨.record, [1], 1, 0⟩ }.wanted = .epilogue ⟨.record, [1], 1, 0⟩ ∧
    { State.reset with xfer := some ⟨.record, [1, 0, 0, 0, 0, 0, 0, 0xFF, 7], 1, 0⟩ }.wanted =
      .epilogue ⟨.record, [1, 0, 0, 0, 0, 0, 0, 0xFF, 7], 1, 0⟩ ∧
    zeros (padCount 1) ++ [checksum [1]] = [0, 0, 0, 0, 0, 0, 0xFF] ∧
    (blockS.openRecord []).wanted = .prologue ⟨.record, [], 0, 0⟩ ∧
    (blockS.openField [] 0).wanted = .header ⟨.field, [], 0, 0⟩ ⟨ascii "s", .str .ascii8 [] .ascii8 []⟩ := by decide

theorem test_witness_IllegalSchemaGivesNoBlock :
    let sc : Schema := [⟨ascii "f", .bit [4] .unset⟩]
    checkSchema sc = some (.bitAlignment (ascii "f") 4) ∧ (State.powerOn sc).schema = sc := by decide

theorem test_witness_InvariantHoldsAtPowerOn : checkSchema schemaA = none ∧ blockA.Inv := by decide

theorem test_witness_BitFieldPackAndUnpackAreInverse :
    ([4, 12] : List Nat).sum % 8 = 0 ∧ (BitVal.tuple [15, 4095]).legal [4, 12] = true ∧
    (BitVal.scalar 65535).legal [16] = true ∧ bfSize [4, 12] ≤ ([0x23, 0xA1] : Octets).length := by decide

/-- PackIsTheReversedBitStream too: V-B9's stream is 101 00011 11111111. -/
theorem test_witness_PackedBytesHoldTheGroupsInPlace :
    groupsFit [3, 5, 8] [5, 3, 0xFF] = true ∧ bitsMsbFirst 3 5 = [true, false, true] ∧
    ([4, 12] : List Nat).sum % 8 = 0 ∧ groupsFit [4, 12] [0xA, 0x123] = true ∧
    packedInteger [4, 12] [0xA, 0x123] = 0xA123 := by decide

theorem test_witness_StringCodecRoundTrips :
    strSerialize .bcdPlus (ascii "1") [] = .ok [0x41, 0x1A] ∧ norm .bcdPlus (ascii "1") = ascii "1 " ∧
    strDeserialize [0x41, 0x1A, 0x07] [] = .ok (.bcdPlus, ascii "1 ", [0x07]) :=
  ⟨by decide, by decide, by decide⟩

theorem test_witness_StringSerializeSucceedsExactly :
    encLen .bin (zeros 63) = 63 ∧ encLen .bin (zeros 64) = 64 ∧ strSerialize .ascii6 (ascii "A") [] = .ok [0x83, 0x21, 0, 0] := by
  decide

theorem test_witness_PayloadLayouts :
    encPayload .bcdPlus (ascii "3") [] = .ok [0x3A] ∧ decPayload .bcdPlus [0x3A] [] = .ok (ascii "3 ") ∧
    (∀ x ∈ ascii "IPMI", 0x20 ≤ x.toNat ∧ x.toNat ≤ 0x5F) ∧ (∀ x ∈ ascii " __ ", 0x20 ≤ x.toNat ∧ x.toNat ≤ 0x5F) ∧
    encPayload .ascii6 (ascii "A") [] = .ok [0x21, 0, 0] ∧ decPayload .ascii6 [0x21, 0, 0] [] = .ok (ascii "A   ") ∧
    chunkBytes 0x49 0x50 0x4D 0x49 = [0x29, 0xDC, 0xA6] := by
  decide

theorem test_witness_EncodersNameTheFirstBadCharacter :
    encLen .bcdPlus (ascii "12" ++ 0x41 :: ascii "Z") ≤ 63 ∧ CanEncode .bcdPlus (ascii "12") ∧ ¬ CanEncode .bcdPlus [0x41] ∧
    encLen .ascii6 (ascii "a" ++ 0x60 :: []) ≤ 63 ∧ CanEncode .ascii6 (ascii "a") ∧ ¬ CanEncode .ascii6 [0x60] := by
  simp only [CanEncode]; decide

theorem test_witness_MalformedStringInputIsRefused :
    checkSchema blockS.schema = none ∧ blockS.slots[0]? = some ⟨ascii "s", .str .ascii8 [] .ascii8 []⟩ ∧
    ([0x29] : Octets).length < (2 : BitVec 6).toNat ∧ ([0x29, 0xDC] : Octets).length = (2 : BitVec 6).toNat ∧
    (2 : BitVec 6).toNat % 3 ≠ 0 ∧ 0xC < (highNibble 0xD0).toNat ∧ (highNibble 0xCD).toNat ≤ 0xC ∧
    0xC < (lowNibble 0xCD).toNat := by decide

theorem test_witness_GetReadsTheNamedRegister :
    checkSchema blockA.schema = none ∧
    blockA.slots[0]? = some ⟨nameAreaLength, .bit [8] (.scalar 0) (.scalar 0)⟩ ∧
    blockA.slots[1]? = some ⟨ascii "pair", .bit [4, 12] (.tuple [0, 0]) (.tuple [0, 0])⟩ ∧
    blockA.slots[2]? = some ⟨ascii "u", .bit [8] .unset .unset⟩ ∧
    blockA.slots[3]? = some ⟨ascii "mfr", .str .ascii6 [] .ascii6 []⟩ ∧
    blockF.slots[0]? = some ⟨ascii "f", .bit [16] (.scalar 0) (.scalar 0)⟩ ∧
    (∀ sl ∈ blockA.slots, sl.name ≠ ascii "nosuch") := by decide

theorem test_witness_SetVersionWritesVer :
    (∀ v : BitVec 4, ExtValue.int 16 ≠ .int v.toNat) ∧ (∀ v : BitVec 4, ExtValue.int (-1) ≠ .int v.toNat) ∧
    (∀ v : BitVec 4, ExtValue.str [] ≠ .int v.toNat) := by decide

theorem test_witness_SetAreaLengthTakesBytes :
    checkSchema blockA.schema = none ∧ blockA.slots[0]? = some ⟨nameAreaLength, .bit [8] (.scalar 0) (.scalar 0)⟩ ∧
    255 < 2 ^ 8 ∧ ¬ ((8 : Int) ∣ 10) ∧ (8 : Int) ∣ 2048 ∧ (8 : Int) * 2 ^ 8 ≤ 2048 ∧ (8 : Int) ∣ -8 := by decide

theorem test_witness_SetBitFieldChecksShapeAndRange :
    checkSchema blockA.schema = none ∧ ascii "pair" ≠ nameAreaLength ∧
    blockA.slots[1]? = some ⟨ascii "pair", .bit [4, 12] (.tuple [0, 0]) (.tuple [0, 0])⟩ ∧
    blockA.slots[2]? = some ⟨ascii "u", .bit [8] .unset .unset⟩ ∧ 255 < 2 ^ 8 ∧
    groupsFit [4, 12] [15, 4095] = true ∧ groupsFit [4, 12] [16, 0] = false := by decide

theorem test_witness_SetStringKeepsTheSelector :
    checkSchema blockA.schema = none ∧ blockA.slots[3]? = some ⟨ascii "mfr", .str .ascii6 [] .ascii6 []⟩ := by decide

theorem test_witness_UnknownNamesAreRefused :
    (∀ sl ∈ blockA.slots, sl.name ≠ ascii "nosuch") ∧ (∀ sl ∈ blockA.slots, sl.name ≠ nameFormatVersion) ∧
    (∀ sl ∈ State.reset.slots, sl.name ≠ nameAreaLength) := by decide

theorem test_witness_UpdateIsSetInOrder :
    answerOf (.set (ascii "u") (.int 1)) blockA = some (.ok .none) ∧
    answerOf (.set (ascii "nosuch") (.int 1)) blockA = some (.error (.unknownField (ascii "nosuch"))) := by decide

theorem test_witness_UpdateWritesTwoRegisters :
    checkSchema blockS.schema = none ∧ blockS.slots[0]? = some ⟨ascii "s", .str .ascii8 [] .ascii8 []⟩ := by decide

theorem test_witness_ToDictSnapshotsEveryEntry :
    blockA.registersLegal = true ∧ blockL.registersLegal = true ∧
    ([(ascii "area_length", ExtValue.int 0)] : Mapping).map (fun p => (p.1, some p.2)) =
      blockL.slots.map (fun sl => (sl.name, shown sl)) ∧
    blockA.slots = blockA.slots.take 2 ++ ⟨ascii "u", .bit [8] .unset .unset⟩ :: blockA.slots.drop 3 ∧
    (∀ p ∈ blockA.slots.take 2, shown p ≠ none) ∧ shown ⟨ascii "u", .bit [8] .unset .unset⟩ = none := by decide

theorem test_witness_SerializeCompletes :
    checkSchema blockL.schema = none ∧ blockL.slots[0]? = some ⟨nameAreaLength, .bit [8] (.scalar 0) (.scalar 0)⟩ ∧
    blockL.sizeTotal / 8 < 2 ^ 8 ∧ (∀ sl ∈ blockL.slots, sl.name ≠ nameAreaLength → Serializable sl) ∧
    (∀ sl ∈ blockF.slots, Serializable sl) ∧ (∀ sl ∈ blockF.slots, sl.name ≠ nameAreaLength) := by
  refine ⟨by decide, by decide, by decide, ?_, ?_, by decide⟩ <;>
    simp [blockL, blockF, State.powerOn, Entry.fresh, Proto.fresh, Serializable]

/-- A SERIALIZE that succeeds, with area_length: SerializedRecordsAreFramed, SerializedBytesFollowTheFrame,
SerializeTwiceIsSerializeOnce, AreaLengthReadsTheTotalAfterSerialize, RoundTripRestoresTheRecord. -/
theorem test_witness_SerializeSucceeds :
    (∃ t, exec .serialize blockL = .next t ∧ t.response = some (.ok (.bytes [1, 1, 0, 0, 0, 0, 0, 0xFE]))) ∧
    blockL.areaEntry ≠ none ∧ blockL.Inv ∧ { blockL with ver := 9 }.schema = blockL.schema :=
  ⟨⟨_, rfl, by decide⟩, by decide, by decide, by decide⟩

/-- A SERIALIZE that fails at the range check, and one that fails later. -/
theorem test_witness_FailedSerializeLeavesRegisters :
    (∃ e, answerOf .serialize (State.powerOn [⟨ascii "area_length", .bit [8] (.scalar 0)⟩,
      ⟨ascii "big", .bit [16384] (.scalar 0)⟩]) = some (.error e)) ∧
    (∃ e, answerOf .serialize blockA = some (.error e)) := ⟨⟨_, rfl⟩, ⟨_, rfl⟩⟩

/-- The first register that FSER refuses, u of V-A's schema A, which is Unset. -/
theorem test_witness_FailedSerializeFirstError :
    AreaFits blockA ∧ areaFilled blockA = (areaFilled blockA).take 2 ++
      ⟨ascii "u", .bit [8] .unset .unset⟩ :: (areaFilled blockA).drop 3 ∧
    (areaFilled blockA).length = 4 ∧ (∀ p ∈ (areaFilled blockA).take 2, ∃ b, p.serialize = .ok b) ∧
    Slot.serialize ⟨ascii "u", .bit [8] .unset .unset⟩ = .error (.valueShape (ascii "u") .unset) := by
  refine ⟨?_, by decide, by decide, ?_, rfl⟩
  · intro i sl w x h
    rw [show blockA.areaEntry = some (0, ⟨nameAreaLength, .bit [8] (.scalar 0) (.scalar 0)⟩, 8, .scalar 0) by decide] at h
    cases h
    decide
  · intro p hp
    rcases List.mem_cons.1 hp with rfl | hp
    · exact ⟨_, rfl⟩
    · rcases List.mem_cons.1 hp with rfl | hp
      · exact ⟨_, rfl⟩
      · cases hp

theorem test_witness_DeserializeLoadsWhenTheEpilogueAgrees :
    parseSlots blockL.slots ([5] ++ [0, 0, 0, 0, 0, 0xFA]) =
      .ok ([⟨ascii "area_length", .bit [8] (.scalar 0) (.scalar 5)⟩], [0, 0, 0, 0, 0, 0xFA]) ∧
    zeros (padCount (1 + 1)) ++ [checksum [1, 5]] = [0, 0, 0, 0, 0, 0xFA] ∧
    parseSlots blockL.slots ([5] ++ [0]) = .ok ([⟨ascii "area_length", .bit [8] (.scalar 0) (.scalar 5)⟩], [0]) := by decide

theorem test_witness_DeserializeForgetsTheOldRegisters :
    { blockS with ver := 9 }.schema = blockS.schema ∧
    answerOf (.deserialize [0x01, 0xC1, 0x41, 0, 0, 0, 0, 0xFD, 7]) blockS = some (.ok (.bytes [7])) := by decide

theorem test_witness_FailedDeserializeLeavesLegalRegisters :
    checkSchema blockF.schema = none ∧
    blockF.slots = [] ++ ⟨ascii "f", .bit [16] (.scalar 0) (.scalar 0)⟩ :: [] ∧
    Slot.parse ⟨ascii "f", .bit [16] (.scalar 0) (.scalar 0)⟩ [0x34] = .error (.truncated (ascii "f") 2 1) ∧
    answerOf (.deserialize [0x01, 0x34]) blockF = some (.error (.truncated (ascii "f") 2 1)) := by decide

theorem test_witness_FieldSizeAndFieldSerializeAgree :
    (checkSchema blockA.schema = none ∧ ∀ sl ∈ blockA.slots, sl.name ≠ nameFormatVersion) ∧
    Serializable ⟨ascii "pair", .bit [4, 12] (.tuple [0, 0]) (.tuple [0, 0])⟩ ∧
    ¬ Serializable ⟨ascii "u", .bit [8] .unset .unset⟩ := by
  refine ⟨by decide, ?_, ?_⟩ <;> simp [Serializable]

theorem test_witness_FieldDeserializeLoadsBitField :
    checkSchema blockF.schema = none ∧ blockF.slots[0]? = some ⟨ascii "f", .bit [16] (.scalar 0) (.scalar 0)⟩ ∧
    ([0x34, 0x12] : Octets).length = bfSize [16] ∧ ([0x34] : Octets).length < bfSize [16] := by decide

theorem test_witness_FieldDeserializeLoadsString :
    ([0x12, 0xB3] : Octets).length = (2 : BitVec 6).toNat ∧ decPayload .bcdPlus [0x12, 0xB3] [] = .ok (ascii "12-3") := by decide

theorem test_witness_FieldDeserializeTouchesOneRegister :
    checkSchema blockA.schema = none ∧ blockA.registersLegal = true ∧
    answerOf (.fieldDeserialize (ascii "mfr") [0x43, 0x12]) blockA = some (.error (.truncated (ascii "mfr") 4 2)) ∧
    blockA.slots[2]? = some ⟨ascii "u", .bit [8] .unset .unset⟩ := by decide

theorem test_witness_StringHeadersLoadTheirEntry :
    let t : Xfer := ⟨.record, [0x01, 0x41, 0x12], 1, 0⟩
    { blockS with xfer := some t }.wanted = .header t ⟨ascii "s", .str .ascii8 [] .ascii8 []⟩ ∧
    t.rest = headerByte .bcdPlus 1 :: ([0x12] ++ []) ∧ decBcd [0x12] (ascii "s") = .ok (ascii "12") ∧
    decBin [0x41] (ascii "s") = .ok (ascii "A") ∧ dec6Bit [0x29, 0xDC, 0xA6] (ascii "s") = .ok (ascii "IPMI") ∧
    dec8Bit [0x48, 0x69] (ascii "s") = .ok (ascii "Hi") := by decide

theorem test_witness_PrologueLoadsVersion :
    (blockS.openRecord [0x21]).wanted = .prologue ⟨.record, [0x21], 0, 0⟩ := by decide

theorem test_witness_WireElementsNeedATransfer :
    isCommand (.strBin 3) = false ∧ isCommand (.strBcdPlus 3) = false ∧ isCommand (.strAscii6 3) = false ∧
    isCommand (.strAscii8 3) = false ∧ isCommand (.prologue 0 1) = false ∧ State.reset.xfer = none := by decide

/-- V-F20's record, walked element by element: the prologue, the string, the epilogue. -/
theorem test_witness_DeserializeIsTheElementWalk :
    checkSchema blockS.schema = none ∧ blockS.xfer = none ∧
    Host.Core.run Sys2Proof.core 3 (blockS.openRecord [0x01, 0x41, 0x31, 0, 0, 0, 0, 0x8D]) =
      exec (.deserialize [0x01, 0x41, 0x31, 0, 0, 0, 0, 0x8D]) blockS := ⟨by decide, by decide, by rfl⟩

theorem test_witness_FieldDeserializeIsOneElement :
    checkSchema blockS.schema = none ∧ blockS.xfer = none ∧
    blockS.slots[0]? = some ⟨ascii "s", .str .ascii8 [] .ascii8 []⟩ := by decide

/-- EveryStepKeepsTheInvariant and NoStepStopsTheBlock: a state with an open transfer meets the invariant too. -/
theorem test_witness_EveryStepKeepsTheInvariant :
    (blockA.openField [0x83, 0x29] 3).Inv ∧ (blockA.openRecord []).Inv ∧ blockA.Inv := by decide

theorem test_witness_NoInstructionChangesSchema : ∃ t, exec (.deserialize []) blockA = .next t := ⟨_, rfl⟩

theorem test_witness_EveryCommandAnswers :
    isCommand .serialize = true ∧ isCommand (.update []) = true ∧ isCommand (.fieldDeserialize [] []) = true := by decide

theorem test_witness_ReadersHaveNoSideEffects : ∃ t, exec .toDict blockL = .next t := ⟨_, rfl⟩

theorem test_witness_OnlyTheseInstructionsWriteVerAndSelectors :
    (verAfter (.set nameFormatVersion (.int 15)) blockA = some 15 ∧ blockA.ver = 1) ∧
    fieldsAfter (.fieldDeserialize (ascii "s") [0x41, 0x12]) blockS = [.str .ascii8 [] .bcdPlus (ascii "12")] ∧
    blockS.slots.map selectorOf = [some .ascii8] := by decide

end Sys2Proof.Tests
end

section
/-! The record's epilogue (R180 to R185): what the octet sum is of joined and of zero octets, and from that the checksum
and the padding. -/
namespace Sys2Proof.Machine

@[simp] theorem length_zeros (n : Nat) : (zeros n).length = n := List.length_replicate

@[simp] theorem octetSum_append (a b : Octets) : octetSum (a ++ b) = octetSum a + octetSum b := by
  induction a with
  | nil => simp [octetSum]
  | cons x xs ih => simp [octetSum, ih, Nat.add_assoc]

@[simp] theorem octetSum_zeros (n : Nat) : octetSum (zeros n) = 0 := by
  induction n with
  | zero => rfl
  | succ n ih => simpa [zeros, List.replicate_succ, octetSum] using ih

theorem checksum_append_zeros (p : Octets) (n : Nat) : checksum (p ++ zeros n) = checksum p := by
  simp [checksum]

theorem checksum_toNat (p : Octets) : ((checksum p).toNat : Int) = -(octetSum p : Int) % 256 := by
  have hmod : 0 ≤ -(octetSum p : Int) % 256 := Int.emod_nonneg _ (by decide)
  simpa [checksum, BitVec.toNat_ofInt] using hmod

/-- R82: the checksum balances the sum, and no other byte does. -/
theorem octetSum_add_mod_eq_zero_iff (p : Octets) (c : Byte) :
    (octetSum p + c.toNat) % 256 = 0 ↔ c = checksum p := by
  have hval := checksum_toNat p
  have hc : c.toNat < 256 := c.isLt
  rw [← BitVec.toNat_inj]
  omega

theorem padCount_le (L : Nat) : padCount L ≤ 7 := by
  simp only [padCount, Config.recordAlign]
  omega

/-- R185: payload, padding and the checksum byte fill whole units of 8 bytes. -/
theorem add_padCount_add_one_mod (L : Nat) : (L + padCount L + 1) % 8 = 0 := by
  simp only [padCount, Config.recordAlign]
  omega

theorem length_append_epilogue (p : Octets) :
    (p ++ epilogue p).length = p.length + padCount p.length + 1 := by
  simp [epilogue, Nat.add_assoc]

/-- Settles O40: zero octets add nothing to the sum, and the checksum and the pad count are the least residues of
`-sum` and `-(L + 1)`. -/
theorem epilogueBalancesThePayload : Obligations.EpilogueBalancesThePayload := by
  unfold Obligations.EpilogueBalancesThePayload
  intro p
  refine ⟨rfl, checksum_append_zeros p _, octetSum_add_mod_eq_zero_iff p, padCount_le _, ?_⟩
  rw [length_append_epilogue]
  exact add_padCount_add_one_mod _

end Sys2Proof.Machine
end

section
/-! The bit-field packer (R100 to R108): BF.PACK builds the packed integer of R73 and writes its bytes; BF.UNPACK reads the
integer back and slices it. Each half has its inverse, and from these come the laws of R108 and the bit stream of R107. -/
namespace Sys2Proof.Machine
open Sys2Proof.Claims

/-! ### The packed integer and its slices -/

@[simp] theorem layoutWidth_eq_sum (layout : List Nat) : layoutWidth layout = layout.sum := by
  induction layout with
  | nil => rfl
  | cons w ws ih => simp [layoutWidth, ih]

theorem eight_mul_bfSize {layout : List Nat} (h : layout.sum % 8 = 0) : 8 * bfSize layout = layout.sum := by
  simp only [bfSize, layoutWidth_eq_sum]
  omega

theorem bitSlice_eq_div_mod (v lo w : Nat) : bitSlice v lo w = v / 2 ^ lo % 2 ^ w := by
  rw [bitSlice, Nat.shiftRight_eq_div_pow]

@[simp] theorem groupsFit_cons {w v : Nat} {ws vs : List Nat} :
    groupsFit (w :: ws) (v :: vs) = true ↔ v < 2 ^ w ∧ groupsFit ws vs = true := by
  simp [groupsFit]

@[simp] theorem groupsFit_nil_iff {vs : List Nat} : groupsFit [] vs = true ↔ vs = [] := by
  cases vs <;> simp [groupsFit]

@[simp] theorem not_groupsFit_cons_nil (w : Nat) (ws : List Nat) : ¬ groupsFit (w :: ws) [] = true := by
  simp [groupsFit]

/-- Induction over fitting values, group by group. -/
theorem groupsFit_induction {motive : (layout vs : List Nat) → groupsFit layout vs = true → Prop}
    (nil : motive [] [] rfl)
    (cons : ∀ w ws v vs (hv : v < 2 ^ w) (hvs : groupsFit ws vs = true),
      motive ws vs hvs → motive (w :: ws) (v :: vs) (groupsFit_cons.mpr ⟨hv, hvs⟩))
    {layout vs : List Nat} (h : groupsFit layout vs = true) : motive layout vs h := by
  induction layout generalizing vs with
  | nil => obtain rfl := groupsFit_nil_iff.mp h; exact nil
  | cons w ws ih =>
    cases vs with
    | nil => exact absurd h (not_groupsFit_cons_nil w ws)
    | cons v vs =>
      obtain ⟨hv, hvs⟩ := groupsFit_cons.mp h
      exact cons w ws v vs hv hvs (ih hvs)

theorem groupsFit_length {layout vs : List Nat} (h : groupsFit layout vs = true) : vs.length = layout.length := by
  induction h using groupsFit_induction with
  | nil => rfl
  | cons w ws v vs hv hvs ih => simp [ih]

theorem packedInteger_lt {layout vs : List Nat} (h : groupsFit layout vs = true) :
    packedInteger layout vs < 2 ^ layout.sum := by
  induction h using groupsFit_induction with
  | nil => simp [packedInteger]
  | cons w ws v vs hv hvs ih =>
    calc packedInteger (w :: ws) (v :: vs)
      _ = v * 2 ^ ws.sum + packedInteger ws vs := rfl
      _ < (v + 1) * 2 ^ ws.sum := by rw [Nat.succ_mul]; omega
      _ ≤ 2 ^ w * 2 ^ ws.sum := Nat.mul_le_mul_right _ hv
      _ = 2 ^ (w :: ws).sum := by rw [List.sum_cons, Nat.pow_add]

/-- BF.PACK's loop puts the packed integer of R73 behind what it began with. -/
theorem packGroups_eq {layout vs : List Nat} (h : groupsFit layout vs = true) (V : Nat) :
    packGroups V layout vs = V * 2 ^ layout.sum + packedInteger layout vs := by
  induction h using groupsFit_induction generalizing V with
  | nil => simp [packGroups, packedInteger]
  | cons w ws v vs hv hvs ih =>
    rw [packGroups, ih, ← Nat.shiftLeft_add_eq_or_of_lt hv, Nat.shiftLeft_eq, packedInteger, List.sum_cons,
      Nat.pow_add]
    ring

/-- The slices of the packed integer are the groups, whatever stands above it. -/
theorem unpackGroups_add_packedInteger {layout vs : List Nat} (h : groupsFit layout vs = true) (c : Nat) :
    unpackGroups (c * 2 ^ layout.sum + packedInteger layout vs) layout = vs := by
  induction h using groupsFit_induction generalizing c with
  | nil => rfl
  | cons w ws v vs hv hvs ih =>
    have hsplit : c * 2 ^ (w :: ws).sum + packedInteger (w :: ws) (v :: vs) =
        (c * 2 ^ w + v) * 2 ^ ws.sum + packedInteger ws vs := by
      rw [packedInteger, List.sum_cons, Nat.pow_add]
      ring
    have hhead : bitSlice ((c * 2 ^ w + v) * 2 ^ ws.sum + packedInteger ws vs) ws.sum w = v := by
      rw [bitSlice_eq_div_mod, Nat.mul_comm _ (2 ^ ws.sum), Nat.mul_add_div (Nat.two_pow_pos _),
        Nat.div_eq_of_lt (packedInteger_lt hvs), Nat.add_zero, Nat.mul_add_mod_of_lt hv]
    rw [hsplit, unpackGroups, layoutWidth_eq_sum, hhead, ih]

theorem unpackGroups_packedInteger {layout vs : List Nat} (h : groupsFit layout vs = true) :
    unpackGroups (packedInteger layout vs) layout = vs := by
  simpa using unpackGroups_add_packedInteger h 0

theorem groupsFit_unpackGroups (V : Nat) (layout : List Nat) : groupsFit layout (unpackGroups V layout) = true := by
  induction layout with
  | nil => rfl
  | cons w ws ih =>
    exact groupsFit_cons.mpr ⟨Nat.mod_lt _ (Nat.two_pow_pos w), ih⟩

/-- The slices of V, put back in their places, make V up to the layout's width. -/
theorem packedInteger_unpackGroups (V : Nat) (layout : List Nat) :
    packedInteger layout (unpackGroups V layout) = V % 2 ^ layout.sum := by
  induction layout with
  | nil => simp [packedInteger, Nat.mod_one]
  | cons w ws ih =>
    rw [unpackGroups, packedInteger, ih, bitSlice_eq_div_mod, layoutWidth_eq_sum, List.sum_cons, Nat.add_comm w,
      Nat.pow_add, Nat.mod_mul]
    ring

/-! ### An integer and its bytes -/

@[simp] theorem byteAt_toNat (V i : Nat) : (byteAt V i).toNat = V / 2 ^ (8 * i) % 256 := by
  simp [byteAt, bitSlice_eq_div_mod]

theorem byteAt_zero_toNat (V : Nat) : (byteAt V 0).toNat = V % 256 := by simp

@[simp] theorem wireBytes_length (B V : Nat) : (wireBytes B V).length = B := by simp [wireBytes]

theorem byteAt_succ (V i : Nat) : byteAt V (i + 1) = byteAt (V / 256) i := by
  apply BitVec.eq_of_toNat_eq
  rw [byteAt_toNat, byteAt_toNat, Nat.div_div_eq_div_mul, Nat.mul_add, Nat.pow_add, Nat.mul_comm]

theorem wireBytes_succ (B V : Nat) : wireBytes (B + 1) V = byteAt V 0 :: wireBytes B (V / 256) := by
  simp [wireBytes, List.range_succ_eq_map, byteAt_succ]

theorem leNat_cons (b : Byte) (bs : Octets) : leNat (b :: bs) = leNat bs * 256 + b.toNat := by
  rw [leNat, Nat.or_comm, ← Nat.shiftLeft_add_eq_or_of_lt b.isLt, Nat.shiftLeft_eq]

theorem leNat_lt (p : Octets) : leNat p < 2 ^ (8 * p.length) := by
  induction p with
  | nil => simp [leNat]
  | cons b bs ih =>
    have hb : b.toNat < 256 := b.isLt
    rw [leNat_cons, List.length_cons, Nat.mul_add, Nat.pow_add]
    omega

/-- BF.UNPACK's integer is the one whose bytes BF.PACK wrote, up to those bytes. -/
theorem leNat_wireBytes (B V : Nat) : leNat (wireBytes B V) = V % 2 ^ (8 * B) := by
  induction B generalizing V with
  | zero => simp [wireBytes, leNat, Nat.mod_one]
  | succ B ih =>
    rw [wireBytes_succ, leNat_cons, ih, byteAt_zero_toNat, Nat.mul_add_one 8 B, Nat.add_comm (8 * B), Nat.pow_add,
      Nat.mod_mul, Nat.mul_comm, Nat.add_comm]

theorem wireBytes_leNat (p : Octets) : wireBytes p.length (leNat p) = p := by
  induction p with
  | nil => rfl
  | cons b bs ih =>
    have hb : b.toNat < 256 := b.isLt
    have hlow : byteAt (leNat (b :: bs)) 0 = b := by
      apply BitVec.eq_of_toNat_eq
      rw [byteAt_zero_toNat, leNat_cons, Nat.mul_add_mod_of_lt hb]
    have hhigh : leNat (b :: bs) / 256 = leNat bs := by rw [leNat_cons]; omega
    rw [List.length_cons, wireBytes_succ, hlow, hhigh, ih]

/-! ### Register values and their groups -/

@[simp] theorem BitVal.groups_ofGroups (vs : List Nat) : (BitVal.ofGroups vs).groups = some vs := by
  unfold BitVal.ofGroups
  split <;> rfl

/-- A set register's legal values are the fitting values of its groups (R26). -/
theorem BitVal.set_legal_iff {layout : List Nat} {x : BitVal} (hl : layout ≠ []) :
    x ≠ .unset ∧ x.legal layout = true ↔ ∃ vs, x = .ofGroups vs ∧ groupsFit layout vs = true := by
  have hpos := List.length_pos_iff.mpr hl
  constructor
  · rintro ⟨hset, hlegal⟩
    cases x with
    | unset => exact absurd rfl hset
    | scalar v =>
      simp only [legal, Bool.and_eq_true] at hlegal
      exact ⟨[v], rfl, hlegal.2⟩
    | tuple vs =>
      simp only [legal, Bool.and_eq_true, decide_eq_true_eq] at hlegal
      obtain ⟨hlen, hfit⟩ := hlegal
      have hvs := groupsFit_length hfit
      refine ⟨vs, ?_, hfit⟩
      unfold ofGroups
      split
      · simp only [List.length_singleton] at hvs
        omega
      · rfl
  · rintro ⟨vs, rfl, hfit⟩
    have hvs := groupsFit_length hfit
    unfold ofGroups
    split
    · next v => exact ⟨by simp, by simpa [legal, hfit] using hvs.symm⟩
    · next hne =>
      have hlen : vs.length ≠ 1 := fun h1 => by
        obtain ⟨v, rfl⟩ := List.length_eq_one_iff.mp h1
        exact hne v rfl
      exact ⟨by simp, by simp [legal, hfit]; omega⟩

/-! ### BF.PACK and BF.UNPACK -/

/-- BF.PACK of fitting values writes the bytes of the packed integer. -/
theorem bfPack_ofGroups {layout vs : List Nat} (h : groupsFit layout vs = true) (name : Name) :
    bfPack layout (.ofGroups vs) name = .ok (wireBytes (bfSize layout) (packedInteger layout vs)) := by
  simp [bfPack, packGroups_eq h]

/-- BF.UNPACK slices the integer of the B bytes at the front. -/
theorem bfUnpack_append {layout : List Nat} {p : Octets} (h : p.length = bfSize layout) (r : Octets) (name : Name) :
    bfUnpack layout (p ++ r) name = .ok (.ofGroups (unpackGroups (leNat p) layout), r) := by
  simp [bfUnpack, ← h, memRead_append]

/-- R108: BF.UNPACK gives back the groups whose bytes BF.PACK wrote, and leaves the bytes behind them. -/
theorem bfUnpack_packed {layout vs : List Nat} (hsum : layout.sum % 8 = 0) (h : groupsFit layout vs = true) (r : Octets)
    (name : Name) :
    bfUnpack layout (wireBytes (bfSize layout) (packedInteger layout vs) ++ r) name = .ok (.ofGroups vs, r) := by
  rw [bfUnpack_append (wireBytes_length _ _), leNat_wireBytes, eight_mul_bfSize hsum,
    Nat.mod_eq_of_lt (packedInteger_lt h), unpackGroups_packedInteger h]

/-- R108: BF.PACK of what BF.UNPACK read gives back the bytes. -/
theorem bfPack_unpacked {layout : List Nat} {p : Octets} (hsum : layout.sum % 8 = 0) (hp : p.length = bfSize layout)
    (name : Name) : bfPack layout (.ofGroups (unpackGroups (leNat p) layout)) name = .ok p := by
  have hlt : leNat p < 2 ^ layout.sum := by
    simpa [hp, eight_mul_bfSize hsum] using leNat_lt p
  rw [bfPack_ofGroups (groupsFit_unpackGroups _ _), packedInteger_unpackGroups, Nat.mod_eq_of_lt hlt, ← hp,
    wireBytes_leNat]

/-- Settles O13: groups and packed integer, and integer and bytes, are inverse to each other within their widths. -/
theorem bitFieldPackAndUnpackAreInverse : Obligations.BitFieldPackAndUnpackAreInverse := by
  unfold Obligations.BitFieldPackAndUnpackAreInverse
  intro layout name hl hsum
  constructor
  · intro x hset hlegal
    obtain ⟨vs, rfl, hfit⟩ := (BitVal.set_legal_iff hl).mp ⟨hset, hlegal⟩
    exact ⟨_, bfPack_ofGroups hfit name, wireBytes_length _ _, fun r => bfUnpack_packed hsum hfit r name⟩
  · intro b hb
    have hp : (b.take (bfSize layout)).length = bfSize layout := List.length_take_of_le hb
    have hread := bfUnpack_append hp (b.drop (bfSize layout)) name
    rw [List.take_append_drop] at hread
    obtain ⟨hset, hlegal⟩ := (BitVal.set_legal_iff hl).mpr ⟨_, rfl, groupsFit_unpackGroups _ layout⟩
    exact ⟨_, hread, hset, hlegal, bfPack_unpacked hsum hp name⟩

/-! ### The bit stream -/

theorem bitsMsbFirst_add (a b V : Nat) :
    bitsMsbFirst (a + b) V = bitsMsbFirst a (V / 2 ^ b) ++ bitsMsbFirst b V := by
  rw [Nat.add_comm a b, bitsMsbFirst, List.range_add, List.map_append, List.reverse_append, List.map_map]
  simp [bitsMsbFirst, Function.comp_def, Nat.testBit_div_two_pow, Nat.add_comm]

theorem bitsMsbFirst_mod (w V : Nat) : bitsMsbFirst w (V % 2 ^ w) = bitsMsbFirst w V := by
  simp only [bitsMsbFirst, List.reverse_inj]
  apply List.map_congr_left
  intro i hi
  simp [Nat.testBit_mod_two_pow, List.mem_range.mp hi]

/-- The bits of V's slices, one after the other, are the bits of V. -/
theorem flatten_bits_unpackGroups (V : Nat) (layout : List Nat) :
    (List.zipWith bitsMsbFirst layout (unpackGroups V layout)).flatten = bitsMsbFirst layout.sum V := by
  induction layout with
  | nil => rfl
  | cons w ws ih =>
    rw [unpackGroups, List.zipWith_cons_cons, List.flatten_cons, ih, bitSlice_eq_div_mod, layoutWidth_eq_sum,
      bitsMsbFirst_mod, List.sum_cons, bitsMsbFirst_add]

/-- The bits of V's bytes, most significant byte first, are the bits of V. -/
theorem flatten_bits_reverse_wireBytes (B V : Nat) :
    ((wireBytes B V).reverse.map fun b => bitsMsbFirst 8 b.toNat).flatten = bitsMsbFirst (8 * B) V := by
  induction B generalizing V with
  | zero => rfl
  | succ B ih =>
    have hlow : bitsMsbFirst 8 (byteAt V 0).toNat = bitsMsbFirst 8 V := by
      rw [byteAt_zero_toNat]
      exact bitsMsbFirst_mod 8 V
    rw [wireBytes_succ, List.reverse_cons, List.map_append, List.flatten_append, ih, Nat.mul_add_one, bitsMsbFirst_add,
      List.map_singleton, List.flatten_singleton, hlow]
    rfl

/-- Settles O15: the stream is the wire form read from its last byte; by bytes and by groups it spells the same packed
integer. -/
theorem packIsTheReversedBitStream : Obligations.PackIsTheReversedBitStream := by
  unfold Obligations.PackIsTheReversedBitStream
  intro layout vs name _ hsum hfit
  refine ⟨(wireBytes (bfSize layout) (packedInteger layout vs)).reverse, ?_, ?_⟩
  · have hgroups := flatten_bits_unpackGroups (packedInteger layout vs) layout
    rw [unpackGroups_packedInteger hfit] at hgroups
    rw [flatten_bits_reverse_wireBytes, eight_mul_bfSize hsum, hgroups]
  · rw [List.reverse_reverse, bfPack_ofGroups hfit]

end Sys2Proof.Machine
end

section
/-! Padding and characters of the string codec (R130, R135): what PAD, UPCASE and NORM do, and the table of R76 read in
both directions. -/
namespace Sys2Proof.Machine

/-! ### Padding -/

/-- R131: padding fills up the chunks that ENC_LEN counts. -/
theorem length_pad {m : Nat} (hm : 0 < m) (s : Octets) : (pad s m).length = m * ceilDiv s.length m := by
  have hsplit := Nat.div_add_mod s.length m
  have hr := Nat.mod_lt s.length hm
  rw [pad, List.length_append, List.length_replicate, ceilDiv]
  generalize s.length / m = q at hsplit
  generalize s.length % m = r at hsplit hr
  rw [← hsplit, Nat.add_sub_assoc hm, Nat.add_assoc, Nat.add_assoc, Nat.mul_add_div hm]
  rcases Nat.eq_zero_or_pos r with rfl | hpos
  · simp [Nat.div_eq_of_lt (Nat.sub_lt hm one_pos)]
  · have hone : (r + (m - 1)) / m = 1 := Nat.div_eq_of_lt_le (by omega) (by omega)
    rw [hone, Nat.mod_eq_of_lt (by omega), Nat.mul_add_one]
    omega

theorem dvd_length_pad {m : Nat} (hm : 0 < m) (s : Octets) : m ∣ (pad s m).length := by
  simp [length_pad hm]

/-- Only a value of whole chunks is left as it is. -/
theorem pad_eq_self_iff {m : Nat} (hm : 0 < m) {s : Octets} : pad s m = s ↔ m ∣ s.length := by
  constructor
  · intro h
    rw [← h]
    exact dvd_length_pad hm s
  · intro h
    simp [pad, Nat.mod_eq_zero_of_dvd h]

theorem pad_pad {m : Nat} (hm : 0 < m) (s : Octets) : pad (pad s m) m = pad s m :=
  (pad_eq_self_iff hm).mpr (dvd_length_pad hm s)

/-- What holds of a space and of a value's characters holds of the padded value's. -/
theorem forall_mem_pad {P : Byte → Prop} (hspace : P 0x20) {s : Octets} (hs : ∀ c ∈ s, P c) (m : Nat) :
    ∀ c ∈ pad s m, P c := by
  intro c hc
  rcases List.mem_append.mp hc with hc | hc
  · exact hs c hc
  · rw [List.eq_of_mem_replicate hc]
    exact hspace

/-! ### Upper case and NORM -/

theorem upcase_of_not_lower {c : Byte} (h : ¬ (0x61 ≤ c.toNat ∧ c.toNat ≤ 0x7A)) : upcase c = c := if_neg h

@[simp] theorem upcase_upcase (c : Byte) : upcase (upcase c) = upcase c := by
  by_cases h : 0x61 ≤ c.toNat ∧ c.toNat ≤ 0x7A
  · apply upcase_of_not_lower
    rw [upcase, if_pos h]
    bv_omega
  · rw [upcase_of_not_lower h, upcase_of_not_lower h]

theorem map_upcase_pad (s : Octets) (m : Nat) : (pad s m).map upcase = pad (s.map upcase) m := by
  have hspace : upcase 0x20 = 0x20 := by decide
  rw [pad, pad, List.map_append, List.map_replicate, hspace, List.length_map]

/-- R151: NORM gives a form that it leaves as it is. -/
@[simp] theorem norm_norm (sel : Selector) (s : Octets) : norm sel (norm sel s) = norm sel s := by
  cases sel with
  | bin | ascii8 => rfl
  | bcdPlus => exact pad_pad two_pos s
  | ascii6 => simp [norm, map_upcase_pad, pad_pad, Function.comp_def]

/-! ### The BCD_PLUS characters and their nibbles -/

/-- R76: the two directions of the code table are inverse to each other. -/
theorem bcd_eq_some_iff {c : Byte} {d : BitVec 4} : bcd c = some d ↔ bcdChar d = some c := by
  have hto : ∀ c : Byte, ∀ d ∈ bcd c, bcdChar d = some c := by decide
  have hfrom : ∀ d : BitVec 4, ∀ c ∈ bcdChar d, bcd c = some d := by decide
  exact ⟨hto c d, hfrom d c⟩

@[simp] theorem highNibble_nibbles (hi lo : BitVec 4) : highNibble (nibbles hi lo) = hi :=
  BitVec.extractLsb'_append_eq_left

@[simp] theorem lowNibble_nibbles (hi lo : BitVec 4) : lowNibble (nibbles hi lo) = lo :=
  BitVec.extractLsb'_append_eq_right

@[simp] theorem nibbles_highNibble_lowNibble (b : Byte) : nibbles (highNibble b) (lowNibble b) = b := by
  rw [nibbles, highNibble, lowNibble, BitVec.extractLsb'_append_extractLsb'_eq_extractLsb' (by rfl),
    BitVec.extractLsb'_eq_self]

/-- R76, R134, R144: two characters are what a byte's nibbles read as exactly when they have codes and the byte is made
of these. -/
theorem bcdChar_nibbles_iff {b x y : Byte} :
    bcdChar (highNibble b) = some x ∧ bcdChar (lowNibble b) = some y ↔
      (bcd x).isSome ∧ (bcd y).isSome ∧ nibbles ((bcd x).getD 0) ((bcd y).getD 0) = b := by
  rw [← bcd_eq_some_iff, ← bcd_eq_some_iff]
  constructor
  · rintro ⟨hx, hy⟩
    simp [hx, hy]
  · rintro ⟨hx, hy, rfl⟩
    obtain ⟨dx, hdx⟩ := Option.isSome_iff_exists.mp hx
    obtain ⟨dy, hdy⟩ := Option.isSome_iff_exists.mp hy
    simp [hdx, hdy]

end Sys2Proof.Machine
end

section
/-! The payloads of the string codec (R133 to R147): for each selector, which values a payload decodes to. All four agree
that it decodes to the one value in NORM form that encodes to it, and from this come the laws of R151. -/
namespace Sys2Proof.Machine
open Sys2Proof.Claims

/-! ### BCD_PLUS -/

theorem length_packPairs : ∀ s : Octets, (packPairs s).length = s.length / 2
  | [] => rfl
  | [_] => by simp [packPairs]
  | _ :: _ :: rest => by
    have ih := length_packPairs rest
    simp only [packPairs, List.length_cons, ih]
    omega

theorem decBcdFrom_cons_ok_iff {name : Name} {j : Nat} {b : Byte} {bs s : Octets} :
    decBcdFrom name j (b :: bs) = .ok s ↔ ∃ x y cs, s = x :: y :: cs ∧
      (bcdChar (highNibble b) = some x ∧ bcdChar (lowNibble b) = some y) ∧ decBcdFrom name (j + 1) bs = .ok cs := by
  rw [decBcdFrom]
  cases bcdChar (highNibble b) with
  | none => simp
  | some x =>
    cases bcdChar (lowNibble b) with
    | none => simp
    | some y => cases decBcdFrom name (j + 1) bs <;> simp [eq_comm]

/-- R144: a payload decodes to the value of whole pairs of BCD_PLUS characters that packs into it. -/
theorem decBcdFrom_ok_iff {name : Name} {j : Nat} {p s : Octets} :
    decBcdFrom name j p = .ok s ↔ 2 ∣ s.length ∧ (∀ c ∈ s, (bcd c).isSome) ∧ packPairs s = p := by
  induction p generalizing j s with
  | nil =>
    match s with
    | [] => simp [decBcdFrom, packPairs]
    | [_] => simp [decBcdFrom]
    | _ :: _ :: _ => simp [decBcdFrom, packPairs]
  | cons b bs ih =>
    rw [decBcdFrom_cons_ok_iff]
    match s with
    | [] => simp [packPairs]
    | [_] => simp [packPairs]
    | x :: y :: cs => simp [ih, bcdChar_nibbles_iff, packPairs, and_assoc, and_left_comm]

/-- R134: a value encodes when each of its characters has a code, and its payload packs its NORM form. -/
theorem encBcd_ok_iff {s p : Octets} {name : Name} :
    encBcd s name = .ok p ↔ (∀ c ∈ s, (bcd c).isSome) ∧ packPairs (norm .bcdPlus s) = p := by
  rw [← firstBad_none_iff (k := 0), encBcd, norm]
  split <;> simp_all

/-! ### ASCII_6BIT -/

theorem length_packChunks : ∀ s : Octets, (packChunks s).length = 3 * (s.length / 4)
  | [] | [_] | [_, _] | [_, _, _] => by simp [packChunks]
  | _ :: _ :: _ :: _ :: rest => by
    have ih := length_packChunks rest
    simp only [packChunks, pack6, List.length_append, List.length_cons, List.length_nil, ih]
    omega

theorem length_unpackChunks : ∀ p : Octets, (unpackChunks p).length = 4 * (p.length / 3)
  | [] | [_] | [_, _] => by simp [unpackChunks]
  | _ :: _ :: _ :: rest => by
    have ih := length_unpackChunks rest
    simp only [unpackChunks, List.length_append, List.length_cons, List.length_nil, ih]
    omega

/-- A character with a 6-bit code of its own: the table of R77. -/
def InSixBitTable (c : Byte) : Prop := 0x20 ≤ c.toNat ∧ c.toNat ≤ 0x5F

theorem has6BitCode_iff {c : Byte} : has6BitCode c = true ↔ InSixBitTable (upcase c) := by
  simp [has6BitCode, InSixBitTable]

theorem InSixBitTable.upcase_eq {c : Byte} (h : InSixBitTable c) : upcase c = c :=
  upcase_of_not_lower fun hlow => by unfold InSixBitTable at h; omega

theorem InSixBitTable.ofNat_code6 {c : Byte} (h : InSixBitTable c) : BitVec.ofNat 8 (code6 c + 0x20) = c := by
  obtain ⟨hlow, -⟩ := h
  rw [code6, Nat.sub_add_cancel hlow, BitVec.ofNat_toNat, BitVec.setWidth_eq]

theorem InSixBitTable.code6_lt {c : Byte} (h : InSixBitTable c) : code6 c < 2 ^ 6 := by
  unfold InSixBitTable at h
  rw [code6]
  omega

theorem bitSlice_lt (V lo w : Nat) : bitSlice V lo w < 2 ^ w := Nat.mod_lt _ (Nat.two_pow_pos w)

theorem char6_toNat (V m : Nat) : (char6 V m).toNat = bitSlice V (6 * m) 6 + 0x20 := by
  have hlt := bitSlice_lt V (6 * m) 6
  rw [char6, BitVec.toNat_ofNat]
  omega

theorem inSixBitTable_char6 (V m : Nat) : InSixBitTable (char6 V m) := by
  have hlt := bitSlice_lt V (6 * m) 6
  rw [InSixBitTable, char6_toNat]
  omega

@[simp] theorem code6_char6 (V m : Nat) : code6 (char6 V m) = bitSlice V (6 * m) 6 := by
  rw [code6, char6_toNat, Nat.add_sub_cancel]

/-- A chunk's bytes are those of the packed integer of R73, its first code the last and least significant group. -/
theorem pack6_eq_wireBytes {k0 k1 k2 k3 : Nat} (h : groupsFit [6, 6, 6, 6] [k3, k2, k1, k0] = true) :
    pack6 k0 k1 k2 k3 = wireBytes 3 (packedInteger [6, 6, 6, 6] [k3, k2, k1, k0]) := by
  have hor : k0 ||| k1 <<< 6 ||| k2 <<< 12 ||| k3 <<< 18 = packGroups 0 [6, 6, 6, 6] [k3, k2, k1, k0] := by
    simp [packGroups, Nat.shiftLeft_or_distrib, ← Nat.shiftLeft_add]
    ac_rfl
  rw [← Nat.zero_add (packedInteger _ _), ← Nat.zero_mul, ← packGroups_eq h, ← hor]
  rfl

theorem shiftLeft_or_eq_leNat (a b c : Byte) :
    a.toNat ||| b.toNat <<< 8 ||| c.toNat <<< 16 = leNat [a, b, c] := by
  simp [leNat, Nat.shiftLeft_or_distrib, ← Nat.shiftLeft_add, Nat.or_assoc]

/-- Packing the four slices of a chunk's integer gives the integer's bytes. -/
theorem pack6_bitSlices {V : Nat} (hV : V < 2 ^ 24) :
    pack6 (bitSlice V 0 6) (bitSlice V 6 6) (bitSlice V 12 6) (bitSlice V 18 6) = wireBytes 3 V := by
  calc pack6 (bitSlice V 0 6) (bitSlice V 6 6) (bitSlice V 12 6) (bitSlice V 18 6)
    _ = wireBytes 3 (packedInteger [6, 6, 6, 6] (unpackGroups V [6, 6, 6, 6])) :=
        pack6_eq_wireBytes (groupsFit_unpackGroups V [6, 6, 6, 6])
    _ = wireBytes 3 (V % 2 ^ 24) := congrArg (wireBytes 3) (packedInteger_unpackGroups V [6, 6, 6, 6])
    _ = wireBytes 3 V := by rw [Nat.mod_eq_of_lt hV]

/-- The four slices of a packed chunk's integer are its codes. -/
theorem unpackGroups_pack6 {k0 k1 k2 k3 : Nat} (h : groupsFit [6, 6, 6, 6] [k3, k2, k1, k0] = true) :
    unpackGroups (leNat (pack6 k0 k1 k2 k3)) [6, 6, 6, 6] = [k3, k2, k1, k0] := by
  have hlt : packedInteger [6, 6, 6, 6] [k3, k2, k1, k0] < 2 ^ (8 * 3) := packedInteger_lt h
  rw [pack6_eq_wireBytes h, leNat_wireBytes, Nat.mod_eq_of_lt hlt, unpackGroups_packedInteger h]

/-- Unpacking a packed chunk gives back its four characters and goes on behind it. -/
theorem unpackChunks_pack6_append {a b c d : Byte} (ha : InSixBitTable a) (hb : InSixBitTable b) (hc : InSixBitTable c)
    (hd : InSixBitTable d) (p : Octets) :
    unpackChunks (pack6 (code6 a) (code6 b) (code6 c) (code6 d) ++ p) = a :: b :: c :: d :: unpackChunks p := by
  have hslices := unpackGroups_pack6 (groupsFit_cons.mpr ⟨hd.code6_lt, groupsFit_cons.mpr ⟨hc.code6_lt,
    groupsFit_cons.mpr ⟨hb.code6_lt, groupsFit_cons.mpr ⟨ha.code6_lt, rfl⟩⟩⟩⟩)
  obtain ⟨x, y, z, hp⟩ : ∃ x y z, pack6 (code6 a) (code6 b) (code6 c) (code6 d) = [x, y, z] := ⟨_, _, _, rfl⟩
  rw [hp] at hslices ⊢
  obtain ⟨h3, h2, h1, h0⟩ : _ ∧ _ ∧ _ ∧ _ := by simpa [unpackGroups] using hslices
  simp [unpackChunks, shiftLeft_or_eq_leNat, char6, h0, h1, h2, h3, ha.ofNat_code6, hb.ofNat_code6, hc.ofNat_code6,
    hd.ofNat_code6]

theorem unpackChunks_packChunks :
    ∀ {s : Octets}, 4 ∣ s.length → (∀ c ∈ s, InSixBitTable c) → unpackChunks (packChunks s) = s
  | [], _, _ => by simp [unpackChunks, packChunks]
  | [_], h, _ | [_, _], h, _ | [_, _, _], h, _ => by simp at h
  | a :: b :: c :: d :: rest, h, hs => by
    simp only [List.forall_mem_cons] at hs
    obtain ⟨ha, hb, hc, hd, hrest⟩ := hs
    rw [packChunks, unpackChunks_pack6_append ha hb hc hd, unpackChunks_packChunks (by simpa using h) hrest]

theorem packChunks_unpackChunks : ∀ {p : Octets}, 3 ∣ p.length → packChunks (unpackChunks p) = p
  | [], _ => by simp [unpackChunks, packChunks]
  | [_], h | [_, _], h => by simp at h
  | a :: b :: c :: rest, h => by
    have ih := packChunks_unpackChunks (p := rest) (by simpa using h)
    have hchunk := (pack6_bitSlices (leNat_lt [a, b, c])).trans (wireBytes_leNat [a, b, c])
    simp [unpackChunks, packChunks, shiftLeft_or_eq_leNat, hchunk, ih]

theorem inSixBitTable_of_mem_unpackChunks : ∀ {p : Octets}, ∀ c ∈ unpackChunks p, InSixBitTable c
  | [] | [_] | [_, _] => by simp [unpackChunks]
  | _ :: _ :: _ :: rest => by
    have ih := inSixBitTable_of_mem_unpackChunks (p := rest)
    simpa [unpackChunks, inSixBitTable_char6] using ih

/-- R146: a payload decodes to the value of whole chunks of 6-bit characters that packs into it. -/
theorem dec6Bit_ok_iff {name : Name} {p s : Octets} :
    dec6Bit p name = .ok s ↔ 4 ∣ s.length ∧ (∀ c ∈ s, InSixBitTable c) ∧ packChunks s = p := by
  constructor
  · intro h
    unfold dec6Bit at h
    split at h
    · next hlen =>
      cases h
      refine ⟨?_, inSixBitTable_of_mem_unpackChunks, packChunks_unpackChunks (Nat.dvd_of_mod_eq_zero hlen)⟩
      simp [length_unpackChunks]
    · cases h
  · rintro ⟨hlen, hs, rfl⟩
    rw [dec6Bit, if_pos (by simp [length_packChunks]), unpackChunks_packChunks hlen hs]

/-- R136: a value encodes when each of its characters has a 6-bit code, and its payload packs its NORM form. -/
theorem enc6Bit_ok_iff {s p : Octets} {name : Name} :
    enc6Bit s name = .ok p ↔ (∀ c ∈ s, has6BitCode c = true) ∧ packChunks (norm .ascii6 s) = p := by
  rw [← firstBad_none_iff (k := 0), enc6Bit, norm]
  split <;> simp_all

theorem inSixBitTable_of_mem_norm {s : Octets} (hs : ∀ c ∈ s, has6BitCode c = true) :
    ∀ c ∈ norm .ascii6 s, InSixBitTable c :=
  forall_mem_pad ⟨by decide, by decide⟩ (by simpa [has6BitCode_iff] using hs) 4

theorem norm_ascii6_of_inSixBitTable {s : Octets} (hlen : 4 ∣ s.length) (hs : ∀ c ∈ s, InSixBitTable c) :
    norm .ascii6 s = s := by
  have hup : s.map upcase = s.map id := List.map_congr_left fun c hc => (hs c hc).upcase_eq
  rw [norm, hup, List.map_id, pad_eq_self_iff four_pos]
  exact hlen

/-! ### BIN and ASCII_8BIT -/

/-- R143: DEC.BIN checks and answers what ENC.8BIT does. -/
theorem decBin_eq_enc8Bit : decBin = enc8Bit := rfl

/-- R147: DEC.8BIT checks and answers what ENC.8BIT does. -/
theorem dec8Bit_eq_enc8Bit : dec8Bit = enc8Bit := rfl

theorem enc8Bit_ok_iff {s p : Octets} {name : Name} :
    enc8Bit s name = .ok p ↔ textValid s = true ∧ s = p := by
  rw [enc8Bit]
  split <;> simp_all

/-! ### Any selector -/

/-- R131, R140: a payload has the length the header announces. -/
theorem encPayload_length {sel : Selector} {s p : Octets} {name : Name} (h : encPayload sel s name = .ok p) :
    p.length = encLen sel s := by
  cases sel with
  | bin =>
    obtain rfl := Except.ok.inj h
    rfl
  | bcdPlus =>
    obtain ⟨-, rfl⟩ := encBcd_ok_iff.mp h
    rw [length_packPairs, norm, length_pad two_pos, Nat.mul_div_cancel_left _ two_pos, encLen]
  | ascii6 =>
    obtain ⟨-, rfl⟩ := enc6Bit_ok_iff.mp h
    rw [length_packChunks, norm, length_pad four_pos, Nat.mul_div_cancel_left _ four_pos, List.length_map, encLen]
  | ascii8 =>
    obtain ⟨-, rfl⟩ := enc8Bit_ok_iff.mp h
    rfl

/-- A value's NORM form has the value's own payload. -/
theorem encPayload_norm {sel : Selector} {s p : Octets} {name : Name} (h : encPayload sel s name = .ok p) :
    encPayload sel (norm sel s) name = .ok p := by
  cases sel with
  | bin | ascii8 => exact h
  | bcdPlus =>
    obtain ⟨hs, rfl⟩ := encBcd_ok_iff.mp h
    exact encBcd_ok_iff.mpr ⟨forall_mem_pad (by decide) hs 2, by rw [norm_norm]⟩
  | ascii6 =>
    obtain ⟨hs, rfl⟩ := enc6Bit_ok_iff.mp h
    refine enc6Bit_ok_iff.mpr ⟨fun c hc => ?_, by rw [norm_norm]⟩
    have hc := inSixBitTable_of_mem_norm hs c hc
    rwa [has6BitCode_iff, hc.upcase_eq]

/-- R141, R151: a payload decodes to the value in NORM form that encodes to it, if BIN finds that to be valid text. -/
theorem decPayload_ok_iff {sel : Selector} {p s : Octets} {name : Name} (name' : Name) :
    decPayload sel p name = .ok s ↔
      norm sel s = s ∧ encPayload sel s name' = .ok p ∧ (sel = .bin → textValid s = true) := by
  cases sel with
  | bin =>
    rw [decPayload, decBin_eq_enc8Bit, enc8Bit_ok_iff, encPayload, encBin]
    constructor
    · rintro ⟨htext, rfl⟩
      exact ⟨rfl, rfl, fun _ => htext⟩
    · rintro ⟨-, henc, htext⟩
      cases henc
      exact ⟨htext rfl, rfl⟩
  | bcdPlus =>
    rw [decPayload, decBcd, decBcdFrom_ok_iff, encPayload, encBcd_ok_iff, norm, pad_eq_self_iff two_pos]
    constructor
    · rintro ⟨hlen, hs, hp⟩
      exact ⟨hlen, ⟨hs, by rw [(pad_eq_self_iff two_pos).mpr hlen, hp]⟩, by simp⟩
    · rintro ⟨hlen, ⟨hs, hp⟩, -⟩
      rw [(pad_eq_self_iff two_pos).mpr hlen] at hp
      exact ⟨hlen, hs, hp⟩
  | ascii6 =>
    rw [decPayload, dec6Bit_ok_iff, encPayload, enc6Bit_ok_iff]
    constructor
    · rintro ⟨hlen, hs, hp⟩
      have hnorm := norm_ascii6_of_inSixBitTable hlen hs
      refine ⟨hnorm, ⟨fun c hc => ?_, by rw [hnorm, hp]⟩, by simp⟩
      rw [has6BitCode_iff, (hs c hc).upcase_eq]
      exact hs c hc
    · rintro ⟨hnorm, ⟨hs, hp⟩, -⟩
      rw [hnorm] at hp
      refine ⟨?_, ?_, hp⟩ <;> rw [← hnorm]
      · exact dvd_length_pad four_pos _
      · exact inSixBitTable_of_mem_norm hs
  | ascii8 =>
    rw [decPayload, dec8Bit_eq_enc8Bit, enc8Bit_ok_iff, encPayload, enc8Bit_ok_iff]
    constructor
    · rintro ⟨htext, rfl⟩
      exact ⟨rfl, ⟨htext, rfl⟩, by simp⟩
    · rintro ⟨-, ⟨htext, rfl⟩, -⟩
      exact ⟨htext, rfl⟩

end Sys2Proof.Machine
end

section
/-! STR.SERIALIZE and STR.DESERIALIZE (R74, R140, R141): a header byte and a payload, and from the laws of both the
round-trip laws of R151. -/
namespace Sys2Proof.Machine

@[simp] theorem Selector.ofCode_code (sel : Selector) : Selector.ofCode sel.code = sel := by cases sel <;> rfl

@[simp] theorem Selector.code_ofCode (c : BitVec 2) : (Selector.ofCode c).code = c := by
  revert c
  decide

@[simp] theorem headerSel_headerByte (sel : Selector) (n : BitVec 6) : headerSel (headerByte sel n) = sel.code :=
  BitVec.extractLsb'_append_eq_left

@[simp] theorem headerLen_headerByte (sel : Selector) (n : BitVec 6) : headerLen (headerByte sel n) = n :=
  BitVec.extractLsb'_append_eq_right

/-- R74: a header byte is its selector's code and its length. -/
theorem headerByte_headerSel_headerLen (h : Byte) : headerByte (Selector.ofCode (headerSel h)) (headerLen h) = h := by
  rw [headerByte, Selector.code_ofCode, headerSel, headerLen,
    BitVec.extractLsb'_append_extractLsb'_eq_extractLsb' (by rfl), BitVec.extractLsb'_eq_self]

/-- R140: what a successful STR.SERIALIZE writes. -/
theorem strSerialize_ok_iff {sel : Selector} {s b : Octets} {name : Name} :
    strSerialize sel s name = .ok b ↔ encLen sel s ≤ 63 ∧
      ∃ p, encPayload sel s name = .ok p ∧ b = headerByte sel (BitVec.ofNat 6 (encLen sel s)) :: p := by
  rw [strSerialize, Config.maxStrPayload]
  by_cases hlen : encLen sel s ≤ 63
  · cases encPayload sel s name <;> simp [not_lt.mpr hlen, hlen, eq_comm]
  · simp [not_le.mp hlen, hlen]

/-- R141: after a header with the payload's length, what the payload decodes to and the bytes behind it. -/
theorem strDeserialize_header_append {sel : Selector} {n : BitVec 6} {p : Octets} (hp : p.length = n.toNat) (r : Octets)
    (name : Name) :
    strDeserialize (headerByte sel n :: (p ++ r)) name = (decPayload sel p name).map fun s => (sel, s, r) := by
  have hlen : 1 + n.toNat = (headerByte sel n :: p).length := by simp [hp, Nat.add_comm]
  rw [strDeserialize, headerSel_headerByte, Selector.ofCode_code, headerLen_headerByte, strElement, hlen,
    ← List.cons_append, memRead_append]
  simp only [List.drop_one, List.tail_cons]
  cases decPayload sel p name <;> rfl

/-- R141: what a successful STR.DESERIALIZE has read. -/
theorem strDeserialize_ok_iff {b s r : Octets} {sel : Selector} {name : Name} :
    strDeserialize b name = .ok (sel, s, r) ↔ ∃ n p, b = headerByte sel n :: (p ++ r) ∧ p.length = n.toNat ∧
      decPayload sel p name = .ok s := by
  constructor
  · intro h
    cases b with
    | nil => cases h
    | cons c t =>
      rw [strDeserialize, strElement] at h
      split at h
      · cases h
      · next hp q hread =>
        obtain ⟨hlen, rfl, rfl⟩ := memRead_ok_iff.mp hread
        split at h
        · cases h
        · next hdec =>
          cases h
          refine ⟨headerLen c, t.take (headerLen c).toNat, ?_, ?_, ?_⟩
          · simp [headerByte_headerSel_headerLen, Nat.add_comm 1]
          · rw [List.length_cons] at hlen
            exact List.length_take_of_le (by omega)
          · simpa [Nat.add_comm 1] using hdec
  · rintro ⟨n, p, rfl, hp, hs⟩
    rw [strDeserialize_header_append hp, hs]
    rfl

/-- Settles O16: what STR.SERIALIZE writes is the payload of the value's NORM form too, and a payload decodes to just
the value in NORM form that encodes to it. -/
theorem stringCodecRoundTrips : Obligations.StringCodecRoundTrips := by
  unfold Obligations.StringCodecRoundTrips
  constructor
  · intro sel s name b h r name'
    obtain ⟨hlen, p, hp, rfl⟩ := strSerialize_ok_iff.mp h
    have hn : p.length = (BitVec.ofNat 6 (encLen sel s)).toNat := by
      rw [encPayload_length hp, BitVec.toNat_ofNat, Nat.mod_eq_of_lt (by omega)]
    rw [List.cons_append, strDeserialize_header_append hn]
    by_cases hbin : sel = .bin ∧ textValid s = false
    · obtain ⟨rfl, htext⟩ := hbin
      obtain rfl := Except.ok.inj hp
      right
      simp [decPayload, decBin, htext, Except.map]
    · left
      have hdec : decPayload sel p name' = .ok (norm sel s) :=
        (decPayload_ok_iff name).mpr ⟨norm_norm sel s, encPayload_norm hp, fun hsel => ?_⟩
      · rw [hdec]
        rfl
      · subst hsel
        simpa [norm] using hbin
  · intro b name sel s r h name'
    obtain ⟨n, p, rfl, hp, hs⟩ := strDeserialize_ok_iff.mp h
    obtain ⟨-, henc, -⟩ := (decPayload_ok_iff name').mp hs
    have hlen : encLen sel s = n.toNat := by rw [← encPayload_length henc, hp]
    refine strSerialize_ok_iff.mpr ⟨?_, p, henc, ?_⟩
    · omega
    · simp [hlen, Nat.succ_sub]

end Sys2Proof.Machine
end

section
/-! Lengths on the wire (R180 to R183): what each register's bytes and the whole record measure, and the payload's bytes as
FSER's results one after the other. -/
namespace Sys2Proof.Machine
open Sys2Proof.Claims

/-! ### SIZE_PAYLOAD and SIZE_TOTAL -/

theorem Slot.size_eq_wireLength (sl : Slot) : sl.size = wireLength sl := by
  obtain ⟨name, field⟩ := sl
  cases field with
  | bit layout d x => simp [Slot.size, wireLength, bfSize]
  | str sd d sel val => cases sel <;> simp [Slot.size, wireLength, strSize, encLen, ceilDiv]

theorem slotsSize_eq_sum (slots : List Slot) : slotsSize slots = (slots.map Slot.size).sum := by
  induction slots with
  | nil => rfl
  | cons sl rest ih => rw [slotsSize, ih, List.map_cons, List.sum_cons]

theorem State.sizePayload_eq (s : State) : s.sizePayload = 1 + (s.slots.map wireLength).sum := by
  rw [State.sizePayload, slotsSize_eq_sum, List.map_congr_left fun sl _ => sl.size_eq_wireLength]

/-- R182, R185: rounding up makes room for just the padding and the checksum byte. -/
theorem State.sizeTotal_eq (s : State) : s.sizeTotal = s.sizePayload + padCount s.sizePayload + 1 := by
  simp only [State.sizeTotal, roundUp8, ceilDiv, padCount, Config.recordAlign]
  omega

theorem State.eight_dvd_sizeTotal (s : State) : 8 ∣ s.sizeTotal := by
  rw [s.sizeTotal_eq]
  exact Nat.dvd_of_mod_eq_zero (add_padCount_add_one_mod _)

/-- Settles O32: FSIZE is the wire length, and SIZE_TOTAL adds at most 7 bytes of padding and the checksum byte. -/
theorem sizesCountPrologueFieldsAndEpilogue : Obligations.SizesCountPrologueFieldsAndEpilogue := by
  unfold Obligations.SizesCountPrologueFieldsAndEpilogue
  intro s
  have hpad := padCount_le s.sizePayload
  have htotal := s.sizeTotal_eq
  rw [← s.sizePayload_eq]
  exact ⟨s.sizeTotal, rfl, rfl, s.eight_dvd_sizeTotal, by omega, by omega⟩

/-! ### FSER -/

theorem bfPack_length {layout : List Nat} {x : BitVal} {name : Name} {b : Octets} (h : bfPack layout x name = .ok b) :
    b.length = bfSize layout := by
  unfold bfPack at h
  split at h
  · cases h
  · cases h
    exact wireBytes_length _ _

theorem strSerialize_length {sel : Selector} {s b : Octets} {name : Name} (h : strSerialize sel s name = .ok b) :
    b.length = strSize sel s := by
  obtain ⟨-, p, hp, rfl⟩ := strSerialize_ok_iff.mp h
  rw [List.length_cons, encPayload_length hp, strSize, Nat.add_comm]

theorem Slot.serialize_length {sl : Slot} {b : Octets} (h : sl.serialize = .ok b) : b.length = sl.size := by
  obtain ⟨name, field⟩ := sl
  cases field with
  | bit layout d x => exact bfPack_length h
  | str sd d sel val => exact strSerialize_length h

theorem serializeSlots_cons_ok_iff {sl : Slot} {rest : List Slot} {fs : Octets} :
    serializeSlots (sl :: rest) = .ok fs ↔
      ∃ b bs, sl.serialize = .ok b ∧ serializeSlots rest = .ok bs ∧ fs = b ++ bs := by
  rw [serializeSlots]
  cases sl.serialize with
  | error e => simp
  | ok b => cases serializeSlots rest <;> simp [eq_comm]

theorem serializeSlots_length {slots : List Slot} {fs : Octets} (h : serializeSlots slots = .ok fs) :
    fs.length = slotsSize slots := by
  induction slots generalizing fs with
  | nil =>
    cases h
    rfl
  | cons sl rest ih =>
    obtain ⟨b, bs, hb, hbs, rfl⟩ := serializeSlots_cons_ok_iff.mp h
    rw [List.length_append, Slot.serialize_length hb, ih hbs, slotsSize]

/-- R183, R303: the first register in schema order that FSER refuses decides the error. -/
theorem serializeSlots_first_error {pre post : List Slot} {sl : Slot} {e : Err} (hpre : ∀ p ∈ pre, ∃ b, p.serialize = .ok b)
    (h : sl.serialize = .error e) : serializeSlots (pre ++ sl :: post) = .error e := by
  induction pre with
  | nil => simp [serializeSlots, h]
  | cons p pre ih =>
    rw [List.forall_mem_cons] at hpre
    obtain ⟨⟨b, hb⟩, hpre⟩ := hpre
    simp [serializeSlots, hb, ih hpre]

end Sys2Proof.Machine
end

section
/-! SERIALIZE (R183 to R188): what the update of FR[AL] writes, the three ways the command can end, and from these the frame
of its bytes and of its failures. -/
namespace Sys2Proof.Machine
open Sys2Proof.Claims

/-! ### FR[AL] -/

theorem State.areaEntry_eq_some_iff {s : State} {i w : Nat} {sl : Slot} {x : BitVal} :
    s.areaEntry = some (i, sl, w, x) ↔
      findSlot nameAreaLength s.slots = some (i, sl) ∧ ∃ d, sl.field = .bit [w] d x := by
  unfold State.areaEntry
  split
  · next j sl' hfind =>
    rw [hfind]
    split
    · next w' d x' hfield =>
      simp only [Option.some.injEq, Prod.mk.injEq]
      constructor
      · rintro ⟨rfl, rfl, rfl, rfl⟩
        exact ⟨⟨rfl, rfl⟩, d, hfield⟩
      · rintro ⟨⟨rfl, rfl⟩, d', hfield'⟩
        simp_all
    · next hshape =>
      simp only [reduceCtorEq, Option.some.injEq, Prod.mk.injEq, false_iff]
      rintro ⟨⟨rfl, rfl⟩, d, hfield⟩
      exact hshape w d x hfield
  · next hfind => simp [hfind]

theorem findSlot_set {nm : Name} {slots : List Slot} {i : Nat} {sl sl' : Slot} (h : findSlot nm slots = some (i, sl))
    (hn : sl'.name = nm) : findSlot nm (slots.set i sl') = some (i, sl') := by
  obtain ⟨hget, -, hfirst⟩ := findSlot_some h
  obtain ⟨hi, -⟩ := List.getElem?_eq_some_iff.mp hget
  refine findSlot_of_first (List.getElem?_set_self hi) hn ?_
  rwa [List.take_set_of_le (Nat.le_refl i)]

/-- R186: the registers after the update of FR[AL] are those before it, but for the value of the area_length entry. -/
theorem areaFilled_cases (s : State) :
    (s.areaEntry = none ∧ areaFilled s = s.slots) ∨
    ∃ i w d x, s.areaEntry = some (i, ⟨nameAreaLength, .bit [w] d x⟩, w, x) ∧
      s.slots[i]? = some ⟨nameAreaLength, .bit [w] d x⟩ ∧
      areaFilled s = s.slots.set i ⟨nameAreaLength, .bit [w] d (.scalar (s.sizeTotal / 8))⟩ := by
  cases harea : s.areaEntry with
  | none => exact .inl ⟨rfl, by simp [areaFilled, harea]⟩
  | some q =>
    obtain ⟨i, ⟨name, field⟩, w, x⟩ := q
    obtain ⟨hfind, d, hfield⟩ := State.areaEntry_eq_some_iff.mp harea
    obtain ⟨hget, rfl, -⟩ := findSlot_some hfind
    subst hfield
    exact .inr ⟨i, w, d, x, rfl, hget, by simp [areaFilled, harea, Field.withBits]⟩

/-- What does not read a BitField's value is the same of the registers after the update of FR[AL]. -/
theorem map_areaFilled {α : Type} (s : State) (f : Slot → α)
    (hf : ∀ name layout d x x', f ⟨name, .bit layout d x⟩ = f ⟨name, .bit layout d x'⟩) :
    (areaFilled s).map f = s.slots.map f := by
  obtain ⟨-, hfilled⟩ | ⟨i, w, d, x, -, hget, hfilled⟩ := areaFilled_cases s
  · rw [hfilled]
  · obtain ⟨hi, hold⟩ := List.getElem?_eq_some_iff.mp hget
    have hi' : i < (s.slots.map f).length := by rwa [List.length_map]
    rw [hfilled, List.map_set, hf _ _ _ _ x, ← hold, ← List.getElem_map f (h := hi'), List.set_getElem_self hi']

theorem slotsSize_areaFilled (s : State) : slotsSize (areaFilled s) = slotsSize s.slots := by
  rw [slotsSize_eq_sum, slotsSize_eq_sum, map_areaFilled s _ fun _ _ _ _ _ => rfl]

theorem map_entry_areaFilled (s : State) : (areaFilled s).map Slot.entry = s.schema :=
  map_areaFilled s _ fun _ _ _ _ _ => rfl

theorem mem_areaFilled {s : State} {sl : Slot} (h : sl ∈ areaFilled s) :
    sl ∈ s.slots ∨ ∃ i w d x, s.areaEntry = some (i, ⟨nameAreaLength, .bit [w] d x⟩, w, x) ∧
      ⟨nameAreaLength, .bit [w] d x⟩ ∈ s.slots ∧ sl = ⟨nameAreaLength, .bit [w] d (.scalar (s.sizeTotal / 8))⟩ := by
  obtain ⟨-, hfilled⟩ | ⟨i, w, d, x, harea, hget, hfilled⟩ := areaFilled_cases s
  · exact .inl (hfilled ▸ h)
  · rw [hfilled] at h
    obtain hold | hnew := List.mem_or_eq_of_mem_set h
    · exact .inl hold
    · exact .inr ⟨i, w, d, x, harea, List.mem_of_getElem? hget, hnew⟩

theorem areaEntry_of_slots_eq_areaFilled {s t : State} {i w : Nat} {sl : Slot} {x : BitVal} (ht : t.slots = areaFilled s)
    (h : s.areaEntry = some (i, sl, w, x)) : ∃ sl', t.areaEntry = some (i, sl', w, .scalar (s.sizeTotal / 8)) := by
  obtain ⟨hnone, -⟩ | ⟨j, v, d, y, hsome, -, hfilled⟩ := areaFilled_cases s
  · simp [hnone] at h
  · rw [hsome] at h
    cases h
    obtain ⟨hfind, -⟩ := State.areaEntry_eq_some_iff.mp hsome
    refine ⟨⟨nameAreaLength, .bit [w] d (.scalar (s.sizeTotal / 8))⟩, State.areaEntry_eq_some_iff.mpr ⟨?_, d, rfl⟩⟩
    rw [ht, hfilled]
    exact findSlot_set hfind rfl

/-! ### How SERIALIZE ends -/

theorem updateArea_of_areaFits {s : State} (h : AreaFits s) : s.updateArea = .ok { s with slots := areaFilled s } := by
  cases harea : s.areaEntry with
  | none => simp only [State.updateArea, areaFilled, harea]
  | some q =>
    obtain ⟨i, sl, w, x⟩ := q
    have hlt : ¬ s.sizeTotal / 8 ≥ 2 ^ w := not_le.mpr (h i sl w x harea)
    simp only [State.updateArea, areaFilled, harea, if_neg hlt, State.putField]

theorem exec_serialize_of_area_overflow {s : State} {i w : Nat} {sl : Slot} {x : BitVal}
    (harea : s.areaEntry = some (i, sl, w, x)) (h : 2 ^ w ≤ s.sizeTotal / 8) :
    exec .serialize s = .next (s.raise (.valueShape nameAreaLength (.number (s.sizeTotal / 8 : Nat)))) := by
  simp [exec, execSerialize, State.updateArea, harea, h]

theorem exec_serialize_of_error {s : State} {e : Err} (hfits : AreaFits s) (h : serializeSlots (areaFilled s) = .error e) :
    exec .serialize s = .next ((s.afterFailedSerialize { s with slots := areaFilled s }).raise e) := by
  simp [exec, execSerialize, updateArea_of_areaFits hfits, State.recordBytes, h]

theorem exec_serialize_of_ok {s : State} {fs : Octets} (hfits : AreaFits s) (h : serializeSlots (areaFilled s) = .ok fs) :
    exec .serialize s = .next (State.answer { s with slots := areaFilled s }
      (.bytes (prologueByte s.ver :: fs ++ epilogue (prologueByte s.ver :: fs)))) := by
  simp [exec, execSerialize, updateArea_of_areaFits hfits, State.recordBytes, h]

/-- R183, R187: SERIALIZE ends at the range check, at the first register FSER refuses, or with the record. -/
theorem exec_serialize_cases {s t : State} (h : exec .serialize s = .next t) :
    (¬ AreaFits s ∧ ∃ e, t = s.raise e) ∨
    (AreaFits s ∧ ∃ e, serializeSlots (areaFilled s) = .error e ∧
      t = (s.afterFailedSerialize { s with slots := areaFilled s }).raise e) ∨
    (AreaFits s ∧ ∃ fs, serializeSlots (areaFilled s) = .ok fs ∧ t = State.answer { s with slots := areaFilled s }
      (.bytes (prologueByte s.ver :: fs ++ epilogue (prologueByte s.ver :: fs)))) := by
  by_cases hfits : AreaFits s
  · cases hser : serializeSlots (areaFilled s) with
    | error e =>
      rw [exec_serialize_of_error hfits hser] at h
      cases h
      exact .inr (.inl ⟨hfits, e, rfl, rfl⟩)
    | ok fs =>
      rw [exec_serialize_of_ok hfits hser] at h
      cases h
      exact .inr (.inr ⟨hfits, fs, rfl, rfl⟩)
  · obtain ⟨i, sl, w, x, harea, hover⟩ : ∃ i sl w x, s.areaEntry = some (i, sl, w, x) ∧ 2 ^ w ≤ s.sizeTotal / 8 := by
      simpa [AreaFits] using hfits
    rw [exec_serialize_of_area_overflow harea hover] at h
    cases h
    exact .inl ⟨hfits, _, rfl⟩

/-- What a SERIALIZE that answers bytes has done (R183, R186). -/
theorem exec_serialize_bytes {s t : State} {out : Octets} (h : exec .serialize s = .next t)
    (hresp : t.response = some (.ok (.bytes out))) :
    AreaFits s ∧ ∃ fs, serializeSlots (areaFilled s) = .ok fs ∧
      out = prologueByte s.ver :: fs ++ epilogue (prologueByte s.ver :: fs) ∧
      t = State.answer { s with slots := areaFilled s } (.bytes out) := by
  obtain ⟨-, e, rfl⟩ | ⟨-, e, -, rfl⟩ | ⟨hfits, fs, hfs, rfl⟩ := exec_serialize_cases h
  · simp at hresp
  · simp at hresp
  · simp only [State.answer_response, Option.some.injEq, Response.ok.injEq, Result.bytes.injEq] at hresp
    subst hresp
    exact ⟨hfits, fs, hfs, rfl, rfl⟩

/-! ### The frame -/

theorem length_append_epilogue_of_sizePayload {s : State} {p : Octets} (h : p.length = s.sizePayload) :
    (p ++ epilogue p).length = s.sizeTotal := by
  rw [length_append_epilogue, h, s.sizeTotal_eq]

theorem octetSum_append_epilogue_mod (p : Octets) : octetSum (p ++ epilogue p) % 256 = 0 := by
  simpa [epilogue, octetSum] using (octetSum_add_mod_eq_zero_iff p (checksum p)).mpr rfl

theorem prologueByte_eq_ofNat (ver : BitVec 4) : prologueByte ver = BitVec.ofNat 8 ver.toNat := by
  revert ver
  decide

/-- Settles O34: the payload measures SIZE_PAYLOAD, whatever FR[AL] holds, and the epilogue fills it up to SIZE_TOTAL and
balances its sum; FR[AL] was written before. -/
theorem serializedRecordsAreFramed : Obligations.SerializedRecordsAreFramed := by
  unfold Obligations.SerializedRecordsAreFramed
  intro s t out h hresp
  obtain ⟨-, fs, hfs, rfl, ht⟩ := exec_serialize_bytes h hresp
  have hslots : t.slots = areaFilled s := by rw [ht, State.answer_slots]
  have hpayload : (prologueByte s.ver :: fs).length = s.sizePayload := by
    rw [List.length_cons, serializeSlots_length hfs, slotsSize_areaFilled, State.sizePayload, Nat.add_comm]
  have hlen := length_append_epilogue_of_sizePayload hpayload
  refine ⟨hlen, ?_, octetSum_append_epilogue_mod _, by simp [prologueByte_eq_ofNat], ?_⟩
  · rw [hlen]
    exact Nat.mod_eq_zero_of_dvd s.eight_dvd_sizeTotal
  · intro i sl w x harea
    obtain ⟨sl', hnew⟩ := areaEntry_of_slots_eq_areaFilled hslots harea
    exact ⟨sl', _, hnew, by rw [hlen, Nat.mul_div_cancel' s.eight_dvd_sizeTotal]⟩

/-- Settles O36: the range check comes before any field's bytes, and only the update of FR[AL] writes a register. -/
theorem failedSerializeLeavesRegisters : Obligations.FailedSerializeLeavesRegisters := by
  unfold Obligations.FailedSerializeLeavesRegisters
  intro s
  refine ⟨fun i sl w x harea hover => exec_serialize_of_area_overflow harea hover, ?_, ?_⟩
  · intro pre post sl e hfits hfilled hpre hsl
    have hser : serializeSlots (areaFilled s) = .error e := hfilled ▸ serializeSlots_first_error hpre hsl
    exact ⟨_, exec_serialize_of_error hfits hser, rfl⟩
  · intro t e h hresp
    obtain ⟨-, e', rfl⟩ | ⟨hfits, e', -, rfl⟩ | ⟨-, fs, -, rfl⟩ := exec_serialize_cases h
    · exact ⟨rfl, .inl rfl⟩
    · obtain hold | hnew := s.afterFailedSerialize_cases { s with slots := areaFilled s }
      · rw [hold]
        exact ⟨rfl, .inl rfl⟩
      · rw [hnew]
        exact ⟨rfl, .inr ⟨hfits, rfl⟩⟩
    · simp at hresp

end Sys2Proof.Machine
end

section
/-! DESERIALIZE (R190 to R193): how the command ends, given what its fields parse to and how its epilogue compares. -/
namespace Sys2Proof.Machine

theorem checkEpilogue_epilogue_append (p r : Octets) : checkEpilogue p (epilogue p ++ r) = .ok r := by
  simp [checkEpilogue]

theorem checkEpilogue_of_ne {p r : Octets} (h : r.take (epilogue p).length ≠ epilogue p) :
    checkEpilogue p r = .error (.checksumOrPadding (epilogue p) (r.take (epilogue p).length)) :=
  if_neg h

/-- R190: what has been consumed when the fields are read is the prologue and their bytes. -/
theorem take_consumed (v : Byte) (fs tail : Octets) :
    (v :: (fs ++ tail)).take ((v :: (fs ++ tail)).length - tail.length) = v :: fs := by
  rw [← List.cons_append, List.length_append, Nat.add_sub_cancel, List.take_left]

theorem exec_deserialize_of_parse_error {s : State} {v : Byte} {body : Octets} {e : Err}
    (h : parseSlots s.slots body = .error e) : exec (.deserialize (v :: body)) s = .next (s.drawAll.raise e) := by
  simp [exec, execDeserialize, h]

theorem exec_deserialize_of_epilogue_error {s : State} {v : Byte} {fs tail : Octets} {slots' : List Slot} {e : Err}
    (hparse : parseSlots s.slots (fs ++ tail) = .ok (slots', tail)) (h : checkEpilogue (v :: fs) tail = .error e) :
    exec (.deserialize (v :: (fs ++ tail))) s = .next (s.drawAll.raise e) := by
  simp only [exec, execDeserialize, hparse, take_consumed, h]

theorem exec_deserialize_of_ok {s : State} {v : Byte} {fs tail r : Octets} {slots' : List Slot}
    (hparse : parseSlots s.slots (fs ++ tail) = .ok (slots', tail)) (h : checkEpilogue (v :: fs) tail = .ok r) :
    exec (.deserialize (v :: (fs ++ tail))) s =
      .next (State.answer { s with ver := lowNibble v, slots := slots' } (.bytes r)) := by
  simp only [exec, execDeserialize, hparse, take_consumed, h]

/-- Settles O39: the bytes consumed are the prologue and the fields, and the epilogue recomputed over them is compared with
the bytes behind them. -/
theorem deserializeLoadsWhenTheEpilogueAgrees : Obligations.DeserializeLoadsWhenTheEpilogueAgrees := by
  unfold Obligations.DeserializeLoadsWhenTheEpilogueAgrees
  intro s v fs tail slots' hparse
  have hepilogue : zeros (padCount (1 + fs.length)) ++ [checksum (v :: fs)] = epilogue (v :: fs) := by
    rw [epilogue, List.length_cons, Nat.add_comm]
  rw [hepilogue]
  constructor
  · rintro r rfl
    exact exec_deserialize_of_ok hparse (checkEpilogue_epilogue_append _ r)
  · intro hne
    exact ⟨_, exec_deserialize_of_epilogue_error hparse (checkEpilogue_of_ne hne), rfl⟩

end Sys2Proof.Machine
end

section
/-! The round trip (R195): each register's bytes parse back to it, strings in NORM form, from any register of the same schema
entry; from that the whole record. -/
namespace Sys2Proof.Machine
open Sys2Proof.Claims

/-! ### What parsing depends on -/

/-- R190: a register is parsed by its schema entry, whatever it holds. -/
theorem Slot.parse_congr {sl sl' : Slot} (h : sl.entry = sl'.entry) (b : Octets) : sl.parse b = sl'.parse b := by
  obtain ⟨name, field⟩ := sl
  obtain ⟨name', field'⟩ := sl'
  simp only [Slot.entry, Entry.mk.injEq] at h
  obtain ⟨rfl, hproto⟩ := h
  cases field <;> cases field' <;> cases hproto <;> rfl

theorem parseSlots_congr {slots slots' : List Slot} (h : slots.map Slot.entry = slots'.map Slot.entry) (b : Octets) :
    parseSlots slots b = parseSlots slots' b := by
  induction slots generalizing slots' b with
  | nil =>
    obtain rfl := List.map_eq_nil_iff.mp h.symm
    rfl
  | cons sl rest ih =>
    obtain ⟨sl', rest', rfl, hsl, hrest⟩ := List.map_eq_cons_iff.mp h.symm
    rw [parseSlots, parseSlots, Slot.parse_congr hsl.symm]
    simp only [ih hrest.symm]

/-! ### Registers within their types -/

/-- A BitField register holds a value R26 allows, and its layout is one R352 allows; any string register is sound. -/
def Slot.Sound (sl : Slot) : Prop :=
  ∀ layout d x, sl.field = .bit layout d x → layout ≠ [] ∧ layout.sum % 8 = 0 ∧ x.legal layout = true

theorem State.Inv.sound {s : State} (h : s.Inv) : ∀ sl ∈ s.slots, sl.Sound := by
  obtain ⟨hschema, hlegal, -⟩ := h
  intro sl hm layout d x hfield
  have hproto := checkSchemaFrom_none_proto hschema (List.mem_map_of_mem (f := Slot.entry) hm)
  simp only [Slot.entry, hfield, Field.proto] at hproto
  obtain ⟨hne, -, hsum, -, -⟩ := checkBitProto_none hproto
  have hx := List.all_eq_true.mp hlegal sl hm
  rw [hfield] at hx
  exact ⟨hne, by rwa [layoutWidth_eq_sum] at hsum, hx⟩

/-- The range check keeps the new FR[AL] within its type. -/
theorem areaFilled_sound {s : State} (hfits : AreaFits s) (h : ∀ sl ∈ s.slots, sl.Sound) : ∀ sl ∈ areaFilled s, sl.Sound := by
  intro sl hm
  obtain hold | ⟨i, w, d, x, harea, hmem, rfl⟩ := mem_areaFilled hm
  · exact h sl hold
  · obtain ⟨hne, hsum, -⟩ := h _ hmem _ _ _ rfl
    rintro _ _ _ ⟨⟩
    exact ⟨hne, hsum, by simpa [BitVal.legal] using hfits _ _ _ _ harea⟩

/-! ### Parsing what was serialized -/

/-- A register whose bytes DEC.BIN refuses, though ENC.BIN wrote them (R195; 90_conflicts.md C3). -/
def Slot.InvalidBin (sl : Slot) : Prop := ∃ sd d val, sl.field = .str sd d .bin val ∧ textValid val = false

theorem Slot.parse_serialize {sl : Slot} {b : Octets} (hsound : sl.Sound) (h : sl.serialize = .ok b) (r : Octets) :
    sl.parse (b ++ r) = .ok (normSlot sl, r) ∨ (sl.InvalidBin ∧ sl.parse (b ++ r) = .error (.textCodec sl.name)) := by
  obtain ⟨name, field⟩ := sl
  cases field with
  | bit layout d x =>
    left
    obtain ⟨hne, hsum, hlegal⟩ := hsound layout d x rfl
    change bfPack layout x name = .ok b at h
    have hset : x ≠ .unset := by
      rintro rfl
      cases h
    obtain ⟨p, hpack, -, hunpack⟩ := (bitFieldPackAndUnpackAreInverse layout name hne hsum).1 x hset hlegal
    obtain rfl := Except.ok.inj (hpack.symm.trans h)
    simp [Slot.parse, hunpack r, normSlot]
  | str sd d sel val =>
    change strSerialize sel val name = .ok b at h
    obtain hread | ⟨rfl, htext, hread⟩ := stringCodecRoundTrips.1 sel val name b h r name
    · exact .inl (by simp [Slot.parse, hread, normSlot])
    · exact .inr ⟨⟨sd, d, val, rfl, htext⟩, by simp [Slot.parse, hread]⟩

theorem parseSlots_serializeSlots {slots : List Slot} {fs : Octets} (hsound : ∀ sl ∈ slots, sl.Sound)
    (h : serializeSlots slots = .ok fs) (r : Octets) :
    parseSlots slots (fs ++ r) = .ok (slots.map normSlot, r) ∨
    ∃ sl ∈ slots, sl.InvalidBin ∧ parseSlots slots (fs ++ r) = .error (.textCodec sl.name) := by
  induction slots generalizing fs with
  | nil =>
    cases h
    exact .inl rfl
  | cons sl rest ih =>
    rw [List.forall_mem_cons] at hsound
    obtain ⟨hsl, hrest⟩ := hsound
    obtain ⟨b, bs, hb, hbs, rfl⟩ := serializeSlots_cons_ok_iff.mp h
    rw [List.append_assoc]
    obtain hparse | ⟨hbin, herr⟩ := Slot.parse_serialize hsl hb (bs ++ r)
    · obtain hok | ⟨bad, hmem, hbin, herr⟩ := ih hrest hbs
      · exact .inl (by simp [parseSlots, hparse, hok])
      · exact .inr ⟨bad, List.mem_cons_of_mem _ hmem, hbin, by simp [parseSlots, hparse, herr]⟩
    · exact .inr ⟨sl, List.mem_cons_self, hbin, by simp [parseSlots, herr]⟩

/-! ### TO_DICT -/

/-- R221: GET reads VER and the registers only. -/
theorem getValue_congr {s s' : State} (hver : s.ver = s'.ver) (hslots : s.slots = s'.slots) (nm : Name) :
    getValue nm s = getValue nm s' := by
  have harea : s.areaEntry = s'.areaEntry := by rw [State.areaEntry, State.areaEntry, hslots]
  have hresolve : resolve nm s = resolve nm s' := by rw [resolve, resolve, harea, hslots]
  rw [getValue, getValue, hresolve, hver]

theorem getAll_congr {s s' : State} (hver : s.ver = s'.ver) (hslots : s.slots = s'.slots) (nms : List Name) :
    getAll s nms = getAll s' nms := by
  induction nms with
  | nil => rfl
  | cons nm rest ih => rw [getAll, getAll, getValue_congr hver hslots, ih]

/-- R229: TO_DICT answers the same in states with the same VER and registers, and writes nothing. -/
theorem exec_toDict_congr {s s' q : State} (hver : s.ver = s'.ver) (hslots : s.slots = s'.slots)
    (h : exec .toDict s = .next q) : exec .toDict s' = .next { s' with response := q.response } := by
  cases h
  have hall : getAll s (s.slots.map Slot.name) = getAll s' (s'.slots.map Slot.name) := by
    rw [getAll_congr hver hslots, hslots]
  rw [exec, execToDict, ← hall, State.finish_eq, State.finish_eq]

/-! ### The record -/

@[simp] theorem lowNibble_prologueByte (ver : BitVec 4) : lowNibble (prologueByte ver) = ver := lowNibble_nibbles 0 ver

theorem mem_slots_of_invalidBin {s : State} {sl : Slot} (hm : sl ∈ areaFilled s) (h : sl.InvalidBin) : sl ∈ s.slots := by
  obtain ⟨sd, d, val, hfield, -⟩ := h
  obtain hold | ⟨i, w, d', x, -, -, rfl⟩ := mem_areaFilled hm
  · exact hold
  · cases hfield

/-- Settles O43, by induction over the schema: the registers that SERIALIZE leaves parse back from their bytes one after the
other, and the epilogue is the one DESERIALIZE recomputes. -/
theorem roundTripRestoresTheRecord : Obligations.RoundTripRestoresTheRecord := by
  unfold Obligations.RoundTripRestoresTheRecord
  intro s t s' out r hinv hser hresp hschema
  obtain ⟨hfits, fs, hfs, rfl, rfl⟩ := exec_serialize_bytes hser hresp
  have hentries : s'.slots.map Slot.entry = (areaFilled s).map Slot.entry := hschema.trans (map_entry_areaFilled s).symm
  have hbuf : prologueByte s.ver :: fs ++ epilogue (prologueByte s.ver :: fs) ++ r =
      prologueByte s.ver :: (fs ++ (epilogue (prologueByte s.ver :: fs) ++ r)) := by simp
  rw [hbuf]
  obtain hok | ⟨sl, hmem, hbin, herr⟩ := parseSlots_serializeSlots (areaFilled_sound hfits hinv.sound) hfs
    (epilogue (prologueByte s.ver :: fs) ++ r)
  · rw [← parseSlots_congr hentries] at hok
    refine ⟨_, exec_deserialize_of_ok hok (checkEpilogue_epilogue_append _ r), .inl ⟨rfl, ?_, rfl, ?_⟩⟩
    · exact lowNibble_prologueByte s.ver
    · intro hnorm q hq
      refine exec_toDict_congr ?_ hnorm.symm hq
      exact (lowNibble_prologueByte s.ver).symm
  · rw [← parseSlots_congr hentries] at herr
    have hsl := mem_slots_of_invalidBin hmem hbin
    obtain ⟨sd, d, val, hfield, htext⟩ := hbin
    exact ⟨_, exec_deserialize_of_parse_error herr, .inr ⟨sl, hsl, sd, d, val, hfield, htext, rfl⟩⟩

end Sys2Proof.Machine
end

section
/-! GET and TO_DICT (R220, R221, R229): which entries a legal SCHEMA can have, what GET reads of a schema entry, and TO_DICT
as GET of every entry in schema order. -/
namespace Sys2Proof.Machine
open Sys2Proof.Claims

/-! ### Entries of a legal SCHEMA -/

/-- R352: a BitField entry has at least one group, and area_length has just one. -/
theorem layout_of_legal {s : State} {i : Nat} {nm : Name} {layout : List Nat} {d x : BitVal}
    (h : checkSchema s.schema = none) (hs : s.slots[i]? = some ⟨nm, .bit layout d x⟩) :
    layout ≠ [] ∧ (nm = nameAreaLength → layout.length = 1) := by
  have hproto := checkSchemaFrom_none_proto h (List.mem_map_of_mem (f := Slot.entry) (List.mem_of_getElem? hs))
  obtain ⟨hne, -, -, harea, -⟩ := checkBitProto_none hproto
  exact ⟨hne, harea⟩

/-- R352: area_length is no string entry. -/
theorem str_name_ne_areaLength {s : State} {i : Nat} {nm : Name} {sd sel : Selector} {d val : Octets}
    (h : checkSchema s.schema = none) (hs : s.slots[i]? = some ⟨nm, .str sd d sel val⟩) : nm ≠ nameAreaLength :=
  checkSchemaFrom_none_proto h (List.mem_map_of_mem (f := Slot.entry) (List.mem_of_getElem? hs))

/-- R26, R352: no legal area_length register holds a Tuple. -/
theorem tuple_name_ne_areaLength {s : State} {i : Nat} {sl : Slot} (h : checkSchema s.schema = none)
    (hlegal : s.registersLegal = true) (hs : s.slots[i]? = some sl) :
    ∀ layout d vs, sl.field = .bit layout d (.tuple vs) → sl.name ≠ nameAreaLength := by
  obtain ⟨nm, field⟩ := sl
  rintro layout d vs rfl rfl
  have hone := (layout_of_legal h hs).2 rfl
  have hx := List.all_eq_true.mp hlegal _ (List.mem_of_getElem? hs)
  simp [Field.legal, BitVal.legal, hone] at hx

/-! ### GET -/

/-- What GET answers of a schema entry: the value it shows, or ValueShapeError when it shows none (R221). -/
def readSlot (sl : Slot) : Except Err ExtValue :=
  match shown sl with
  | some v => .ok v
  | none => .error (.valueShape sl.name .unset)

theorem readSlot_of_shown {sl : Slot} {v : ExtValue} (h : shown sl = some v) : readSlot sl = .ok v := by
  rw [readSlot, h]

theorem readSlot_of_unset {sl : Slot} (h : shown sl = none) : readSlot sl = .error (.valueShape sl.name .unset) := by
  rw [readSlot, h]

theorem view_eq_readSlot {sl : Slot} (ha : sl.name ≠ nameAreaLength) : sl.view = readSlot sl := by
  obtain ⟨nm, field⟩ := sl
  cases field with
  | bit layout d x => cases x <;> simp [Slot.view, bfView, readSlot, shown, show nm ≠ nameAreaLength from ha]
  | str sd d sel val => rfl

/-- R221: GET reads every schema entry by its name; only a Tuple register must not be area_length's, as R352 sees to. -/
theorem getValue_slot {s : State} {i : Nat} {sl : Slot} (h : checkSchema s.schema = none) (hs : s.slots[i]? = some sl)
    (htuple : ∀ layout d vs, sl.field = .bit layout d (.tuple vs) → sl.name ≠ nameAreaLength) :
    getValue sl.name s = readSlot sl := by
  by_cases ha : sl.name = nameAreaLength
  · obtain ⟨nm, field⟩ := sl
    obtain rfl : nm = nameAreaLength := ha
    cases field with
    | bit layout d x =>
      obtain ⟨w, rfl⟩ := List.length_eq_one_iff.mp ((layout_of_legal h hs).2 rfl)
      rw [getValue, resolve_area h hs]
      cases x with
      | unset => rfl
      | scalar v => simp [readSlot, shown]
      | tuple vs => exact absurd rfl (htuple [w] d vs rfl)
    | str sd d sel val => exact absurd rfl (str_name_ne_areaLength h hs)
  · rw [getValue, resolve_field h hs ha]
    exact view_eq_readSlot ha

theorem exec_get_of_ok {s : State} {nm : Name} {v : ExtValue} (h : getValue nm s = .ok v) :
    exec (.get nm) s = .next (s.answer (.value v)) := by
  rw [exec, execGet, h]
  rfl

theorem exec_get_of_error {s : State} {nm : Name} {e : Err} (h : getValue nm s = .error e) :
    exec (.get nm) s = .next (s.raise e) := by
  rw [exec, execGet, h]
  rfl

theorem exec_get_slot_of_shown {s : State} {i : Nat} {sl : Slot} {v : ExtValue} (h : checkSchema s.schema = none)
    (hs : s.slots[i]? = some sl)
    (htuple : ∀ layout d vs, sl.field = .bit layout d (.tuple vs) → sl.name ≠ nameAreaLength)
    (hv : shown sl = some v) : exec (.get sl.name) s = .next (s.answer (.value v)) :=
  exec_get_of_ok ((getValue_slot h hs htuple).trans (readSlot_of_shown hv))

/-- Settles O22: each name resolves to its entry, and what GET answers is what the entry shows. -/
theorem getReadsTheNamedRegister : Obligations.GetReadsTheNamedRegister := by
  unfold Obligations.GetReadsTheNamedRegister
  intro s h
  refine ⟨?version, ?area, ?unset, ?scalar, ?tuple, ?string, ?unknown⟩
  case version => exact exec_get_of_ok (by rw [getValue, resolve_version])
  case area =>
    intro i w v d hs
    exact exec_get_slot_of_shown h hs (by simp) (by simp [shown])
  case unset =>
    intro i nm layout d hs
    exact exec_get_of_error ((getValue_slot h hs (by simp)).trans (readSlot_of_unset rfl))
  case scalar =>
    intro i v nm layout d ha hs
    exact exec_get_slot_of_shown h hs (by simp) (by simp [shown, ha])
  case tuple =>
    intro i nm layout vs d ha hs
    exact exec_get_slot_of_shown h hs (fun _ _ _ _ => ha) rfl
  case string =>
    intro i nm sd sel d val hs
    exact exec_get_slot_of_shown h hs (by simp) rfl
  case unknown =>
    intro nm hv hnm
    exact exec_get_of_error (by rw [getValue, resolve_unknown hv hnm])

/-! ### TO_DICT -/

theorem getAll_cons_of_ok {s : State} {nm : Name} {nms : List Name} {v : ExtValue} (h : getValue nm s = .ok v) :
    getAll s (nm :: nms) = (getAll s nms).map ((nm, v) :: ·) := by
  rw [getAll, h]
  cases getAll s nms <;> rfl

theorem getAll_cons_of_error {s : State} {nm : Name} {nms : List Name} {e : Err} (h : getValue nm s = .error e) :
    getAll s (nm :: nms) = .error e := by
  rw [getAll, h]

/-- R229: when every entry shows a value, the snapshot pairs the names with the values. -/
theorem getAll_of_shown {s : State} {slots : List Slot} {m : Mapping}
    (hread : ∀ sl ∈ slots, getValue sl.name s = readSlot sl)
    (hm : m.map (fun p => (p.1, some p.2)) = slots.map fun sl => (sl.name, shown sl)) :
    getAll s (slots.map Slot.name) = .ok m := by
  induction slots generalizing m with
  | nil =>
    obtain rfl := List.map_eq_nil_iff.mp hm
    rfl
  | cons sl rest ih =>
    obtain ⟨⟨nm, v⟩, m, rfl, hhead, htail⟩ := List.map_eq_cons_iff.mp hm
    obtain ⟨rfl, hv⟩ := Prod.mk.inj hhead
    rw [List.forall_mem_cons] at hread
    obtain ⟨hsl, hrest⟩ := hread
    rw [List.map_cons, getAll_cons_of_ok (hsl.trans (readSlot_of_shown hv.symm)), ih hrest htail]
    rfl

/-- R229: the first entry that shows no value ends the snapshot with its error. -/
theorem getAll_of_first_unset {s : State} {pre post : List Slot} {sl : Slot}
    (hread : ∀ p ∈ pre ++ sl :: post, getValue p.name s = readSlot p) (hpre : ∀ p ∈ pre, shown p ≠ none)
    (hsl : shown sl = none) :
    getAll s ((pre ++ sl :: post).map Slot.name) = .error (.valueShape sl.name .unset) := by
  induction pre with
  | nil => exact getAll_cons_of_error ((hread sl List.mem_cons_self).trans (readSlot_of_unset hsl))
  | cons p pre ih =>
    rw [List.cons_append, List.forall_mem_cons] at hread
    rw [List.forall_mem_cons] at hpre
    obtain ⟨hp, hread⟩ := hread
    obtain ⟨hshown, hpre⟩ := hpre
    obtain ⟨v, hv⟩ := Option.ne_none_iff_exists'.mp hshown
    rw [List.cons_append, List.map_cons, getAll_cons_of_ok (hp.trans (readSlot_of_shown hv)), ih hread hpre]
    rfl

/-- Settles O31, by induction over the entries: TO_DICT is GET of each, up to the first that shows no value. -/
theorem toDictSnapshotsEveryEntry : Obligations.ToDictSnapshotsEveryEntry := by
  unfold Obligations.ToDictSnapshotsEveryEntry
  intro s h hlegal
  have hread : ∀ sl ∈ s.slots, getValue sl.name s = readSlot sl := fun sl hm => by
    obtain ⟨i, hs⟩ := List.mem_iff_getElem?.mp hm
    exact getValue_slot h hs (tuple_name_ne_areaLength h hlegal hs)
  constructor
  · intro m hm
    rw [exec, execToDict, getAll_of_shown hread hm]
    rfl
  · intro pre post sl hslots hpre hsl
    have hall := getAll_of_first_unset (hslots ▸ hread) hpre hsl
    rw [← hslots] at hall
    rw [exec, execToDict, hall]
    rfl

end Sys2Proof.Machine
end

section
/-! SET (R222 to R226): how a SET of a schema entry or of a special name ends, given what the check of its value finds. -/
namespace Sys2Proof.Machine
open Sys2Proof.Claims

theorem exec_set_of_ok {s s' : State} {nm : Name} {e : ExtValue} (h : setValue nm e s = .ok s') :
    exec (.set nm e) s = .next (s'.answer .none) := by
  rw [exec, execSet, h]

theorem exec_set_of_error {s : State} {nm : Name} {e : ExtValue} {err : Err} (h : setValue nm e s = .error err) :
    exec (.set nm e) s = .next (s.raise err) := by
  rw [exec, execSet, h]

/-! ### format_version -/

theorem setValue_version (e : ExtValue) (s : State) : setValue nameFormatVersion e s = setVersion e s := by
  rw [setValue, resolve_version]

theorem setVersion_of_fits (v : BitVec 4) (s : State) : setVersion (.int v.toNat) s = .ok { s with ver := v } := by
  have hle : (v.toNat : Int) ≤ 15 := by omega
  simp [setVersion, hle]

/-- R223: only the values 0..15, those of a nibble, are accepted. -/
theorem setVersion_of_no_nibble {e : ExtValue} (h : ∀ v : BitVec 4, e ≠ .int v.toNat) (s : State) :
    setVersion e s = .error (.valueShape nameFormatVersion (.value e)) := by
  cases e with
  | int z =>
    refine if_neg fun ⟨hlow, hhigh⟩ => h (BitVec.ofInt 4 z) ?_
    rw [BitVec.toNat_ofInt]
    congr
    omega
  | list zs => rfl
  | str v => rfl

/-- Settles O23: format_version resolves to VER, and the Ints 0..15 are the values of a nibble. -/
theorem setVersionWritesVer : Obligations.SetVersionWritesVer := by
  unfold Obligations.SetVersionWritesVer
  intro s
  constructor
  · intro v
    exact exec_set_of_ok ((setValue_version _ s).trans (setVersion_of_fits v s))
  · intro e he
    exact exec_set_of_error ((setValue_version e s).trans (setVersion_of_no_nibble he s))

/-! ### area_length -/

theorem setValue_area {s : State} {i w : Nat} {d x : BitVal} (h : checkSchema s.schema = none)
    (hs : s.slots[i]? = some ⟨nameAreaLength, .bit [w] d x⟩) (e : ExtValue) :
    setValue nameAreaLength e s = setArea i ⟨nameAreaLength, .bit [w] d x⟩ w e s := by
  rw [setValue, resolve_area h hs]

section
variable (i : Nat) (sl : Slot) (s : State)

/-- R224: a length of u units of 8 bytes is written as u. -/
theorem setArea_of_fits {w u : Nat} (hu : u < 2 ^ w) :
    setArea i sl w (.int (8 * u)) s = .ok (s.putField i sl (sl.field.withBits (.scalar u))) := by
  have hlt : (u : Int) < 2 ^ w := by exact_mod_cast hu
  have hdiv : (8 * u : Int) / 8 = u := by omega
  have hrange : ¬ ((u : Int) < 0 ∨ (u : Int) ≥ 2 ^ w) := by omega
  simp only [setArea, hdiv, if_neg hrange]
  simp

theorem setArea_of_no_int {e : ExtValue} (he : ∀ z, e ≠ .int z) (w : Nat) :
    setArea i sl w e s = .error (.valueShape nameAreaLength (.value e)) := by
  cases e with
  | int z => exact absurd rfl (he z)
  | list zs => rfl
  | str v => rfl

theorem setArea_of_misaligned {z : Int} (hz : ¬ 8 ∣ z) (w : Nat) :
    setArea i sl w (.int z) s = .error (.fieldAlignment nameAreaLength z) :=
  if_pos fun hmod => hz (Int.dvd_of_emod_eq_zero hmod)

theorem setArea_of_out_of_range {z : Int} {w : Nat} (hz : 8 ∣ z) (hrange : z < 0 ∨ 8 * 2 ^ w ≤ z) :
    setArea i sl w (.int z) s = .error (.valueShape nameAreaLength (.number z)) := by
  have hmod : ¬ z % 8 ≠ 0 := by omega
  have hover : z / 8 < 0 ∨ z / 8 ≥ 2 ^ w := by omega
  simp only [setArea, if_neg hmod, if_pos hover]

end

/-- Settles O24: area_length resolves to its accessor, which checks the type, the alignment and the range in this order. -/
theorem setAreaLengthTakesBytes : Obligations.SetAreaLengthTakesBytes := by
  unfold Obligations.SetAreaLengthTakesBytes
  intro s i w d x h hs
  have hset := setValue_area h hs
  refine ⟨?fits, ?shape, ?alignment, ?range⟩
  case fits =>
    intro u hu
    exact exec_set_of_ok ((hset _).trans (setArea_of_fits i _ s hu))
  case shape =>
    intro e he
    exact exec_set_of_error ((hset e).trans (setArea_of_no_int i _ s he w))
  case alignment =>
    intro z hz
    exact exec_set_of_error ((hset _).trans (setArea_of_misaligned i _ s hz w))
  case range =>
    intro z hz hrange
    exact exec_set_of_error ((hset _).trans (setArea_of_out_of_range i _ s hz hrange))

/-! ### Schema entries -/

theorem exec_set_slot_of_ok {s : State} {i : Nat} {sl : Slot} {e : ExtValue} {f : Field}
    (h : checkSchema s.schema = none) (hs : s.slots[i]? = some sl) (ha : sl.name ≠ nameAreaLength)
    (hf : sl.check e = .ok f) : exec (.set sl.name e) s = .next ((s.putField i sl f).answer .none) :=
  exec_set_of_ok (by simp only [setValue, resolve_field h hs ha, hf])

theorem exec_set_slot_of_error {s : State} {i : Nat} {sl : Slot} {e : ExtValue} {err : Err}
    (h : checkSchema s.schema = none) (hs : s.slots[i]? = some sl) (ha : sl.name ≠ nameAreaLength)
    (herr : sl.check e = .error err) : exec (.set sl.name e) s = .next (s.raise err) :=
  exec_set_of_error (by simp only [setValue, resolve_field h hs ha, herr])

theorem check_bit (nm : Name) (layout : List Nat) (d x : BitVal) (e : ExtValue) :
    Slot.check ⟨nm, .bit layout d x⟩ e = (bfCheck layout e nm).map (.bit layout d) := by
  simp only [Slot.check]
  cases bfCheck layout e nm <;> rfl

theorem check_str (nm : Name) (sd sel : Selector) (d val : Octets) (e : ExtValue) :
    Slot.check ⟨nm, .str sd d sel val⟩ e = (strCheck e nm).map (.str sd d sel) := by
  simp only [Slot.check]
  cases strCheck e nm <;> rfl

theorem strCheck_of_no_str {e : ExtValue} (he : ∀ v, e ≠ .str v) (name : Name) :
    strCheck e name = .error (.valueShape name (.value e)) := by
  cases e with
  | int z => rfl
  | list zs => rfl
  | str v => exact absurd rfl (he v)

/-- Settles O26: STR.CHECK takes every Str, and the write keeps the selector. -/
theorem setStringKeepsTheSelector : Obligations.SetStringKeepsTheSelector := by
  unfold Obligations.SetStringKeepsTheSelector
  intro s i nm sd sel d val h hs
  have ha := str_name_ne_areaLength h hs
  constructor
  · intro v
    exact exec_set_slot_of_ok h hs ha rfl
  · intro e he
    exact exec_set_slot_of_error h hs ha (by rw [check_str, strCheck_of_no_str he]; rfl)

/-! ### BitField entries -/

/-- R104: an integer fits a group exactly when it is a natural that fits it. -/
theorem intFits_iff {w : Nat} {z : Int} : intFits w z = true ↔ ∃ v : Nat, v < 2 ^ w ∧ z = v := by
  simp only [intFits, Bool.and_eq_true, decide_eq_true_eq]
  constructor
  · rintro ⟨hlow, hhigh⟩
    obtain ⟨v, rfl⟩ := Int.eq_ofNat_of_zero_le hlow
    exact ⟨v, by exact_mod_cast hhigh, rfl⟩
  · rintro ⟨v, hv, rfl⟩
    exact ⟨Int.natCast_nonneg v, by exact_mod_cast hv⟩

/-- R104: a list of integers fits a layout exactly when it is a list of naturals that fits it. -/
theorem intsFit_iff {layout : List Nat} {zs : List Int} :
    intsFit layout zs = true ↔ ∃ vs, groupsFit layout vs = true ∧ zs = vs.map Int.ofNat := by
  induction layout generalizing zs with
  | nil => cases zs <;> simp [intsFit]
  | cons w ws ih =>
    cases zs with
    | nil => simp [intsFit]
    | cons z zs =>
      rw [intsFit, Bool.and_eq_true, intFits_iff, ih]
      constructor
      · rintro ⟨⟨v, hv, rfl⟩, vs, hvs, rfl⟩
        exact ⟨v :: vs, groupsFit_cons.mpr ⟨hv, hvs⟩, rfl⟩
      · rintro ⟨vs, hvs, heq⟩
        obtain ⟨v, vs, rfl, rfl, rfl⟩ := List.map_eq_cons_iff.mp heq.symm
        obtain ⟨hv, hvs⟩ := groupsFit_cons.mp hvs
        exact ⟨⟨v, hv, rfl⟩, vs, hvs, rfl⟩

theorem bfCheck_int_of_fits {w v : Nat} (hv : v < 2 ^ w) (name : Name) :
    bfCheck [w] (.int v) name = .ok (.scalar v) :=
  if_pos (intFits_iff.mpr ⟨v, hv, rfl⟩)

theorem bfCheck_list_of_fits {layout vs : List Nat} (hlen : 2 ≤ layout.length) (hfit : groupsFit layout vs = true)
    (name : Name) : bfCheck layout (.list (vs.map Int.ofNat)) name = .ok (.tuple vs) := by
  have hints := intsFit_iff.mpr ⟨vs, hfit, rfl⟩
  match layout with
  | [] | [_] => simp at hlen
  | _ :: _ :: _ => simp [bfCheck, hints, Function.comp_def]

/-- R104: BF.CHECK refuses every value that has not the layout's shape and range. -/
theorem bfCheck_of_misfit {layout : List Nat} {e : ExtValue} (hne : layout ≠ [])
    (hint : ∀ w v : Nat, layout = [w] → v < 2 ^ w → e ≠ .int v)
    (hlist : ∀ vs : List Nat, 2 ≤ layout.length → groupsFit layout vs = true → e ≠ .list (vs.map Int.ofNat))
    (name : Name) : bfCheck layout e name = .error (.valueShape name (.value e)) := by
  match layout, e with
  | [], _ => exact absurd rfl hne
  | [w], .int z =>
    refine if_neg fun hfit => ?_
    obtain ⟨v, hv, rfl⟩ := intFits_iff.mp hfit
    exact hint w v rfl hv rfl
  | [_], .list _ | [_], .str _ => rfl
  | _ :: _ :: _, .list zs =>
    refine if_neg fun hfit => ?_
    obtain ⟨vs, hvs, rfl⟩ := intsFit_iff.mp hfit
    exact hlist vs (by simp) hvs rfl
  | _ :: _ :: _, .int _ | _ :: _ :: _, .str _ => rfl

/-- Settles O25: BF.CHECK accepts just the Ints and Lists that fit the layout, as the naturals they are. -/
theorem setBitFieldChecksShapeAndRange : Obligations.SetBitFieldChecksShapeAndRange := by
  unfold Obligations.SetBitFieldChecksShapeAndRange
  intro s i nm layout d x h ha hs
  refine ⟨?scalar, ?tuple, ?misfit⟩
  case scalar =>
    rintro w v rfl hv
    exact exec_set_slot_of_ok h hs ha (by rw [check_bit, bfCheck_int_of_fits hv]; rfl)
  case tuple =>
    intro vs hlen hfit
    exact exec_set_slot_of_ok h hs ha (by rw [check_bit, bfCheck_list_of_fits hlen hfit]; rfl)
  case misfit =>
    intro e hint hlist
    exact exec_set_slot_of_error h hs ha
      (by rw [check_bit, bfCheck_of_misfit (layout_of_legal h hs).1 hint hlist]; rfl)

end Sys2Proof.Machine
end

section
/-! UPDATE, CONTAINS and RESET (R227, R228, R230): UPDATE as one SET after the other, which no stored response touches; the
names that CONTAINS knows; and RESET as power-on. -/
namespace Sys2Proof.Machine

/-! ### UPDATE -/

theorem setVersion_response (e : ExtValue) (s : State) (q : Option Response) :
    setVersion e { s with response := q } = (setVersion e s).map fun s' => { s' with response := q } := by
  cases e with
  | int z =>
    rw [setVersion, setVersion]
    split <;> rfl
  | list zs => rfl
  | str v => rfl

theorem setArea_response (i : Nat) (sl : Slot) (w : Nat) (e : ExtValue) (s : State) (q : Option Response) :
    setArea i sl w e { s with response := q } = (setArea i sl w e s).map fun s' => { s' with response := q } := by
  cases e with
  | int z =>
    rw [setArea, setArea]
    split
    · rfl
    · split <;> rfl
  | list zs => rfl
  | str v => rfl

/-- R31: SET reads no stored response, and keeps the one there is. -/
theorem setValue_response (nm : Name) (e : ExtValue) (s : State) (q : Option Response) :
    setValue nm e { s with response := q } = (setValue nm e s).map fun s' => { s' with response := q } := by
  have hresolve : resolve nm { s with response := q } = resolve nm s := rfl
  rw [setValue, setValue, hresolve]
  cases resolve nm s with
  | error err => rfl
  | ok target =>
    cases target with
    | version => exact setVersion_response e s q
    | area i sl w x => exact setArea_response i sl w e s q
    | field i sl =>
      simp only
      cases sl.check e <;> rfl

theorem exec_update_cons_of_ok {s s' : State} {nm : Name} {e : ExtValue} (h : setValue nm e s = .ok s') (m : Mapping) :
    exec (.update ((nm, e) :: m)) s = exec (.update m) s' := by
  simp only [exec, execUpdate, updateAll, h]

theorem exec_update_cons_of_error {s : State} {nm : Name} {e : ExtValue} {err : Err} (h : setValue nm e s = .error err)
    (m : Mapping) : exec (.update ((nm, e) :: m)) s = .next (s.raise err) := by
  simp only [exec, execUpdate, updateAll, h]

/-- R31: UPDATE reads no stored response, and puts its own in the place of the one there is. -/
theorem exec_update_response (m : Mapping) (s : State) (q : Option Response) :
    exec (.update m) { s with response := q } = exec (.update m) s := by
  induction m generalizing s with
  | nil => rfl
  | cons p m ih =>
    obtain ⟨nm, e⟩ := p
    have hq := setValue_response nm e s q
    cases hset : setValue nm e s with
    | error err =>
      rw [hset] at hq
      rw [exec_update_cons_of_error hq, exec_update_cons_of_error hset, State.raise_response_irrelevant]
    | ok s' =>
      rw [hset] at hq
      rw [exec_update_cons_of_ok hq, exec_update_cons_of_ok hset, ih]

/-- Settles O29: UPDATE goes on with the registers SET has written, and SET's own response is lost in UPDATE's. -/
theorem updateIsSetInOrder : Obligations.UpdateIsSetInOrder := by
  unfold Obligations.UpdateIsSetInOrder
  intro s
  refine ⟨rfl, fun nm e m t ht => ?_⟩
  cases hset : setValue nm e s with
  | error err =>
    rw [exec_set_of_error hset] at ht
    cases ht
    exact ⟨by simp, fun _ _ => exec_update_cons_of_error hset m⟩
  | ok s' =>
    rw [exec_set_of_ok hset] at ht
    cases ht
    refine ⟨fun _ => ?_, by simp⟩
    rw [exec_update_cons_of_ok hset, ← exec_update_response m s' (some (.ok .none))]
    rfl

/-! ### CONTAINS -/

/-- Settles O28: findSlot finds a slot exactly when one has the name. -/
theorem containsReportsRecognisedNames : Obligations.ContainsReportsRecognisedNames := by
  unfold Obligations.ContainsReportsRecognisedNames
  intro s nm
  have hfind : (findSlot nm s.slots).isSome = decide (∃ sl ∈ s.slots, sl.name = nm) := by
    rw [Bool.eq_iff_iff, decide_eq_true_iff, ← Option.ne_none_iff_isSome, ne_eq, findSlot_none_iff]
    push Not
    rfl
  simp only [exec, execContains, recognised, hfind, Bool.decide_or, Bool.or_assoc]
  rfl

/-! ### RESET -/

/-- R35: a register's reset value is what its schema entry powers on with. -/
theorem powerOn_slots_schema (s : State) :
    (State.powerOn s.schema).slots = s.slots.map fun sl => { sl with field := sl.field.reset } := by
  rw [State.powerOn_slots, State.schema, List.map_map]
  rfl

/-- Settles O10: the reset values are those of power-on, whatever the registers held. -/
theorem resetGivesThePowerOnState : Obligations.ResetGivesThePowerOnState := by
  unfold Obligations.ResetGivesThePowerOnState
  intro s
  rw [powerOn_slots_schema]
  rfl

end Sys2Proof.Machine
end

section
/-! FIELD_SIZE and FIELD_SERIALIZE (R231, R232): what FSER can write of a register, and the error when it cannot. -/
namespace Sys2Proof.Machine
open Sys2Proof.Claims

/-! ### STR.SERIALIZE -/

/-- R76: the characters that have a BCD_PLUS code. -/
theorem bcd_isSome_iff {c : Byte} :
    (bcd c).isSome ↔ (0x30 ≤ c.toNat ∧ c.toNat ≤ 0x39) ∨ c = 0x20 ∨ c = 0x2D ∨ c = 0x2E := by
  unfold bcd
  split_ifs <;> simp_all

/-- R140: a payload exists exactly for a value whose characters the selector can encode. -/
theorem canEncode_iff {sel : Selector} {s : Octets} (name : Name) :
    CanEncode sel s ↔ ∃ p, encPayload sel s name = .ok p := by
  cases sel with
  | bin => simp [CanEncode, encPayload, encBin]
  | bcdPlus => simp [CanEncode, encPayload, encBcd_ok_iff, bcd_isSome_iff]
  | ascii6 => simp [CanEncode, encPayload, enc6Bit_ok_iff, has6BitCode_iff, InSixBitTable]
  | ascii8 => simp [CanEncode, encPayload, enc8Bit_ok_iff]

/-- R134, R136, R137: the errors of the encoders. -/
theorem encPayload_error_kind {sel : Selector} {s : Octets} {name : Name} {e : Err}
    (h : encPayload sel s name = .error e) : e.kind = .encodingLookupError ∨ e.kind = .textCodecError := by
  cases sel with
  | bin => cases h
  | bcdPlus =>
    rw [encPayload, encBcd] at h
    split at h
    · cases h
      exact .inl rfl
    · cases h
  | ascii6 =>
    rw [encPayload, enc6Bit] at h
    split at h
    · cases h
      exact .inr rfl
    · cases h
  | ascii8 =>
    rw [encPayload, enc8Bit] at h
    split at h
    · cases h
    · cases h
      exact .inr rfl

/-- R140: the errors of STR.SERIALIZE. -/
theorem strSerialize_error_kind {sel : Selector} {s : Octets} {name : Name} {e : Err}
    (h : strSerialize sel s name = .error e) : e.kind = .encodingLookupError ∨ e.kind = .textCodecError := by
  simp only [strSerialize] at h
  split at h
  · cases h
    exact .inl rfl
  · split at h
    · next henc =>
      cases h
      exact encPayload_error_kind henc
    · cases h

/-! ### FSER -/

/-- R180: FSER writes bytes exactly for a serializable register. -/
theorem serializable_iff {sl : Slot} : Serializable sl ↔ ∃ b, sl.serialize = .ok b := by
  obtain ⟨nm, field⟩ := sl
  cases field with
  | bit layout d x => cases x <;> simp [Serializable, Slot.serialize, bfPack, BitVal.groups]
  | str sd d sel val => simp [Serializable, Slot.serialize, strSerialize_ok_iff, canEncode_iff nm]

/-- R102, R140: FSER's errors, by the type of the register. -/
theorem serialize_error_kind {sl : Slot} {e : Err} (h : sl.serialize = .error e) :
    match sl.field with
    | .bit _ _ _ => e = .valueShape sl.name .unset
    | .str _ _ _ _ => e.kind = .encodingLookupError ∨ e.kind = .textCodecError := by
  obtain ⟨nm, field⟩ := sl
  cases field with
  | bit layout d x =>
    change bfPack layout x nm = .error e at h
    unfold bfPack at h
    split at h <;> cases h
    rfl
  | str sd d sel val => exact strSerialize_error_kind h

theorem exec_fieldSize_slot {s : State} {i : Nat} {sl : Slot} (h : checkSchema s.schema = none)
    (hs : s.slots[i]? = some sl) : exec (.fieldSize sl.name) s = .next (s.answer (.natural (wireLength sl))) := by
  simp only [exec, execFieldSize, findSlot_of_legal h hs, sl.size_eq_wireLength]

theorem exec_fieldSerialize_slot {s : State} {i : Nat} {sl : Slot} (h : checkSchema s.schema = none)
    (hs : s.slots[i]? = some sl) :
    exec (.fieldSerialize sl.name) s = .next (s.finish (sl.serialize.map Result.bytes)) := by
  simp only [exec, execFieldSerialize, findSlot_of_legal h hs]

/-- Settles O44: FSIZE is the wire length, and FSER writes that many bytes, if any. -/
theorem fieldSizeAndFieldSerializeAgree : Obligations.FieldSizeAndFieldSerializeAgree := by
  unfold Obligations.FieldSizeAndFieldSerializeAgree
  intro s h
  constructor
  · intro i sl hs
    have hser := exec_fieldSerialize_slot h hs
    refine ⟨exec_fieldSize_slot h hs, ?serializable, ?refused⟩
    case serializable =>
      intro hsl
      obtain ⟨b, hb⟩ := serializable_iff.mp hsl
      rw [hb] at hser
      exact ⟨b, hb, (Slot.serialize_length hb).trans sl.size_eq_wireLength, hser⟩
    case refused =>
      intro hsl
      cases hout : sl.serialize with
      | ok b => exact absurd (serializable_iff.mpr ⟨b, hout⟩) hsl
      | error e =>
        rw [hout] at hser
        exact ⟨e, rfl, serialize_error_kind hout, hser⟩
  · intro nm hnm
    have hfind := findSlot_none_iff.mpr hnm
    constructor
    · simp only [exec, execFieldSize, hfind, State.raise]
    · simp only [exec, execFieldSerialize, hfind, State.raise]

end Sys2Proof.Machine
end

section
/-! The refusal of a SCHEMA that fails CHECK_SCHEMA (R305): INSTANTIATE builds no state, and in a state that carries such a
SCHEMA nothing is fetched, whatever the host has issued and whatever transfer is open. -/
namespace Sys2Proof.Machine

/-- INSTANTIATE is refused with e exactly when CHECK_SCHEMA reports e (R352). -/
theorem instantiate_eq_error_iff {sc : Schema} {e : Err} : instantiate sc = .error e ↔ checkSchema sc = some e := by
  cases h : checkSchema sc <;> simp [instantiate, h]

theorem fetch_of_illegal_schema {s : State} {e : Err} (h : checkSchema s.schema = some e) :
    fetch s = .direct (.refused (.schemaRejected e)) := by
  simp only [fetch, h]

theorem step_of_fetch_direct {s : State} {o : Out} (h : fetch s = .direct o) : step s = o := by
  simp only [step, h]

/-- Settles O7: CHECK_SCHEMA stands before INSTANTIATE, and before every fetch. -/
theorem illegalSchemaGivesNoBlock : Obligations.IllegalSchemaGivesNoBlock := by
  unfold Obligations.IllegalSchemaGivesNoBlock
  intro sc e h
  refine ⟨instantiate_eq_error_iff.mpr h, ?_⟩
  rintro s rfl
  exact step_of_fetch_direct (fetch_of_illegal_schema h)

end Sys2Proof.Machine
end

section
/-! The encodings (R71, R72, R74, R80): a header and a prologue byte are their parts, put together again by the encoder; the
words the spec writes out, and the status codes. -/
namespace Sys2Proof.Machine

/-- The instruction of a string header with this selector and length (R74). -/
def headerInstr : Selector → BitVec 6 → Instr
  | .bin => .strBin
  | .bcdPlus => .strBcdPlus
  | .ascii6 => .strAscii6
  | .ascii8 => .strAscii8

theorem decodeHeader_eq (h : Byte) : decodeHeader h = headerInstr (Selector.ofCode (headerSel h)) (headerLen h) := by
  rw [decodeHeader]
  cases Selector.ofCode (headerSel h) <;> rfl

@[simp] theorem decodeHeader_headerByte (sel : Selector) (n : BitVec 6) :
    decodeHeader (headerByte sel n) = headerInstr sel n := by
  simp [decodeHeader_eq]

@[simp] theorem encode_headerInstr (sel : Selector) (n : BitVec 6) :
    encode (headerInstr sel n) = ⟨.stringHeader, headerByte sel n, {}⟩ := by
  cases sel <;> rfl

theorem encode_decodeHeader (b : Byte) : encode (decodeHeader b) = ⟨.stringHeader, b, {}⟩ := by
  rw [decodeHeader_eq, encode_headerInstr, headerByte_headerSel_headerLen]

theorem encode_decodePrologue (b : Byte) : encode (decodePrologue b) = ⟨.recordPrologue, b, {}⟩ := by
  simp [decodePrologue, encode]

/-- A string header decodes to itself, whatever its selector and length. -/
theorem decode_encode_headerInstr (sel : Selector) (n : BitVec 6) :
    decode (encode (headerInstr sel n)) = .ok (headerInstr sel n) := by
  simp [decode]

theorem decode_encode (i : Instr) : decode (encode i) = .ok i := by
  cases i with
  | reset | get | set | contains | update | toDict | sizePayload | sizeTotal | serialize | deserialize | fieldSize
  | fieldSerialize | fieldDeserialize => rfl
  | strBin n => exact decode_encode_headerInstr .bin n
  | strBcdPlus n => exact decode_encode_headerInstr .bcdPlus n
  | strAscii6 n => exact decode_encode_headerInstr .ascii6 n
  | strAscii8 n => exact decode_encode_headerInstr .ascii8 n
  | prologue r v => simp [encode, decode, decodePrologue]

/-- Settles O1: an opcode is its row's, and a header and a prologue byte are the two parts they are read as. -/
theorem decodeAndEncodeAgree : Obligations.DecodeAndEncodeAgree := by
  unfold Obligations.DecodeAndEncodeAgree
  exact ⟨decode_encode, fun b => ⟨encode_decodeHeader b, encode_decodePrologue b⟩⟩

/-- Settles O2: each word is evaluated by the decoder. -/
theorem specWordsDecode : Obligations.SpecWordsDecode := by
  unfold Obligations.SpecWordsDecode
  decide

/-- Settles O53: the table of R301, one row after the other. -/
theorem statusCodesFollowTheTable : Obligations.StatusCodesFollowTheTable := by
  unfold Obligations.StatusCodesFollowTheTable
  refine ⟨fun _ => rfl, fun e => ?_⟩
  cases e <;> rfl

end Sys2Proof.Machine
end

section
/-! CHECK_SCHEMA and power-on (R35, R350, R352): what a legal SCHEMA is, entry by entry, and that the registers of a fresh
block are within their types. -/
namespace Sys2Proof.Machine

/-! ### CHECK_SCHEMA -/

theorem checkBitProto_none_iff {name : Name} {layout : List Nat} {d : BitVal} :
    checkBitProto name layout d = none ↔ layout ≠ [] ∧ 0 ∉ layout ∧ layout.sum % 8 = 0 ∧
      (name = nameAreaLength → layout.length = 1) ∧ d.legal layout = true := by
  rw [← layoutWidth_eq_sum]
  refine ⟨checkBitProto_none, fun ⟨hne, hzero, hwidth, harea, hlegal⟩ => ?_⟩
  have hshape : ¬ (layout = [] ∨ 0 ∈ layout) := not_or.mpr ⟨hne, hzero⟩
  have hgroups : ¬ (name = nameAreaLength ∧ layout.length ≠ 1) := fun ⟨hname, hlen⟩ => hlen (harea hname)
  rw [checkBitProto, if_neg hshape, if_neg (not_not.mpr hwidth), if_neg hgroups, if_pos hlegal]

/-- An entry R352 allows, whatever entries stand before it. -/
def Entry.Legal (e : Entry) : Prop :=
  e.name ≠ nameFormatVersion ∧
    match e.proto with
    | .bit layout d =>
      layout ≠ [] ∧ 0 ∉ layout ∧ layout.sum % 8 = 0 ∧ (e.name = nameAreaLength → layout.length = 1) ∧
        d.legal layout = true
    | .str _ _ => e.name ≠ nameAreaLength

theorem checkEntry_none_iff {before : List Name} {e : Entry} :
    checkEntry before e = none ↔ e.name ∉ before ∧ e.Legal := by
  obtain ⟨name, proto⟩ := e
  by_cases hversion : name = nameFormatVersion
  · simp [checkEntry, Entry.Legal, hversion]
  by_cases hbefore : name ∈ before
  · simp [checkEntry, hversion, hbefore]
  cases proto with
  | bit layout d => simp [checkEntry, Entry.Legal, hversion, hbefore, checkBitProto_none_iff]
  | str sel d => simp [checkEntry, Entry.Legal, hversion, hbefore]

theorem checkSchemaFrom_none_iff {before : List Name} {sc : Schema} :
    checkSchemaFrom before sc = none ↔
      (sc.map Entry.name).Nodup ∧ (∀ e ∈ sc, e.name ∉ before) ∧ ∀ e ∈ sc, e.Legal := by
  induction sc generalizing before with
  | nil => simp [checkSchemaFrom]
  | cons e rest ih =>
    rw [checkSchemaFrom_cons_none, checkEntry_none_iff, ih]
    simp only [List.map_cons, List.nodup_cons, List.forall_mem_cons, List.mem_append, List.mem_singleton, not_or,
      forall_and, List.mem_map, not_exists, not_and]
    tauto

theorem checkSchema_none_iff {sc : Schema} :
    checkSchema sc = none ↔ (sc.map Entry.name).Nodup ∧ ∀ e ∈ sc, e.Legal := by
  simp [checkSchema, checkSchemaFrom_none_iff]

/-- Settles O8: an entry is refused for its own name and prototype, or for a name that an entry before it has. -/
theorem legalSchemasCharacterised : Obligations.LegalSchemasCharacterised := by
  unfold Obligations.LegalSchemasCharacterised
  intro sc
  exact checkSchema_none_iff

/-! ### Power-on -/

@[simp] theorem powerOn_schema (sc : Schema) : (State.powerOn sc).schema = sc := by
  simp [State.schema, Function.comp_def]

/-- Settles O9: each register is its prototype made fresh. -/
theorem powerOnGivesPrototypeDefaults : Obligations.PowerOnGivesPrototypeDefaults := by
  unfold Obligations.PowerOnGivesPrototypeDefaults
  intro sc
  refine ⟨rfl, rfl, powerOn_schema sc, ?_, ?_⟩
  · intro i nm layout d hi
    simp [hi, Entry.fresh, Proto.fresh]
  · intro i nm sel d hi
    simp [hi, Entry.fresh, Proto.fresh]

theorem Entry.Legal.fresh_legal {e : Entry} (h : e.Legal) : e.fresh.field.legal = true := by
  obtain ⟨name, proto⟩ := e
  cases proto with
  | bit layout d =>
    obtain ⟨-, -, -, -, -, hlegal⟩ := h
    exact hlegal
  | str sel d => rfl

theorem powerOn_inv {sc : Schema} (h : checkSchema sc = none) : (State.powerOn sc).Inv := by
  obtain ⟨-, hlegal⟩ := checkSchema_none_iff.mp h
  refine ⟨by rwa [powerOn_schema], ?_, rfl⟩
  simpa [State.registersLegal] using fun e he => (hlegal e he).fresh_legal

/-- Settles O12: the defaults of a legal SCHEMA are values R26 allows. -/
theorem invariantHoldsAtPowerOn : Obligations.InvariantHoldsAtPowerOn := by
  unfold Obligations.InvariantHoldsAtPowerOn
  exact fun _ => powerOn_inv

/-- Settles O11: the empty SCHEMA is legal. -/
theorem invariantHoldsAtReset : Obligations.InvariantHoldsAtReset := powerOn_inv rfl

end Sys2Proof.Machine
end

section
/-! BF.PACK's bytes (R73) and STR.SERIALIZE's outcomes (R133 to R140, R153): the length is checked first, then the characters
in string order. -/
namespace Sys2Proof.Machine
open Sys2Proof.Claims

/-! ### The bytes of a BitField -/

theorem byteAt_eq_ofNat (V i : Nat) : byteAt V i = BitVec.ofNat 8 (V / 2 ^ (8 * i)) := by
  apply BitVec.eq_of_toNat_eq
  simp

/-- Settles O14: BF.PACK writes the bytes of the packed integer, byte i from bit 8i on. -/
theorem packedBytesHoldTheGroupsInPlace : Obligations.PackedBytesHoldTheGroupsInPlace := by
  unfold Obligations.PackedBytesHoldTheGroupsInPlace
  intro layout vs name _ _ hfit
  have hsize : bfSize layout = layout.sum / 8 := by rw [bfSize, layoutWidth_eq_sum]
  rw [← hsize]
  refine ⟨_, bfPack_ofGroups hfit name, wireBytes_length _ _, fun i hi => ?_⟩
  simp [wireBytes, List.getElem?_map, List.getElem?_range hi, byteAt_eq_ofNat]

/-! ### The length check -/

theorem strSerialize_of_long {sel : Selector} {s : Octets} (h : 63 < encLen sel s) (name : Name) :
    strSerialize sel s name = .error (.lookupLength name (encLen sel s)) :=
  if_pos h

theorem strSerialize_of_fits {sel : Selector} {s : Octets} (h : encLen sel s ≤ 63) (name : Name) :
    strSerialize sel s name =
      (encPayload sel s name).map (headerByte sel (BitVec.ofNat 6 (encLen sel s)) :: ·) := by
  simp only [strSerialize, Config.maxStrPayload, gt_iff_lt, if_neg (not_lt.mpr h)]
  cases encPayload sel s name <;> rfl

theorem strSerialize_of_payload_error {sel : Selector} {s : Octets} {name : Name} {e : Err} (h : encLen sel s ≤ 63)
    (he : encPayload sel s name = .error e) : strSerialize sel s name = .error e := by
  rw [strSerialize_of_fits h, he]
  rfl

/-- Settles O17: a payload exists exactly when the selector can encode the characters, and the header adds a byte. -/
theorem stringSerializeSucceedsExactly : Obligations.StringSerializeSucceedsExactly := by
  unfold Obligations.StringSerializeSucceedsExactly
  intro sel s name
  refine ⟨?_, fun b hb => strSerialize_length hb⟩
  simp [strSerialize_ok_iff, canEncode_iff name]

/-- R134, R136, R137: no encoder finds fault with a length. -/
theorem encPayload_ne_lookupLength (sel : Selector) (s : Octets) (name : Name) (n : Nat) :
    encPayload sel s name ≠ .error (.lookupLength name n) := by
  intro h
  cases sel with
  | bin => cases h
  | bcdPlus =>
    rw [encPayload, encBcd] at h
    split at h <;> cases h
  | ascii6 =>
    rw [encPayload, enc6Bit] at h
    split at h <;> cases h
  | ascii8 =>
    rw [encPayload, enc8Bit] at h
    split at h <;> cases h

theorem strSerialize_ne_lookupLength {sel : Selector} {s : Octets} (h : encLen sel s ≤ 63) (name : Name) (n : Nat) :
    strSerialize sel s name ≠ .error (.lookupLength name n) := by
  have hne := encPayload_ne_lookupLength sel s name n
  rw [strSerialize_of_fits h]
  cases hp : encPayload sel s name with
  | error e => simpa [hp, Except.map] using hne
  | ok p => simp [Except.map]

/-- Settles O18: the largest value of each encoding is the longest whose encoded length is 63. -/
theorem longestSerializableStrings : Obligations.LongestSerializableStrings := by
  unfold Obligations.LongestSerializableStrings
  intro sel s name longest
  have hlong : longest < s.length ↔ 63 < encLen sel s := by
    cases sel <;> simp only [longest, encLen, ceilDiv] <;> omega
  exact ⟨fun h => strSerialize_of_long (hlong.mp h) name,
    fun h => strSerialize_ne_lookupLength (not_lt.mp (hlong.not.mp (not_lt.mpr h))) name⟩

/-! ### The first bad character -/

theorem firstBad_append (p : Byte → Bool) (k : Nat) (s t : Octets) :
    firstBad p k (s ++ t) = (firstBad p k s).or (firstBad p (k + s.length) t) := by
  induction s generalizing k with
  | nil => rfl
  | cons c cs ih =>
    by_cases hc : p c
    · simp [firstBad, hc, ih, Nat.add_assoc, Nat.add_comm 1]
    · simp [firstBad, hc]

/-- The first octet refused behind octets that all pass stands at their number. -/
theorem firstBad_append_cons_bad {p : Byte → Bool} {good : Octets} {c : Byte} (hgood : ∀ g ∈ good, p g = true)
    (hc : ¬ p c = true) (rest : Octets) : firstBad p 0 (good ++ c :: rest) = some (good.length, c) := by
  simp [firstBad_append, firstBad_none_iff.mpr hgood, firstBad, hc]

/-- Settles O20: the encoders look at the characters in string order, and name the first that has no code. -/
theorem encodersNameTheFirstBadCharacter : Obligations.EncodersNameTheFirstBadCharacter := by
  unfold Obligations.EncodersNameTheFirstBadCharacter
  intro good rest c name
  refine ⟨fun hlen hgood hc => ?bcd, fun hlen hgood hc => ?sixBit, fun s hlen => ?text⟩
  case bcd =>
    have hbad : firstBad (fun c => (bcd c).isSome) 0 (good ++ c :: rest) = some (good.length, c) :=
      firstBad_append_cons_bad (fun g hg => bcd_isSome_iff.mpr (hgood g hg))
        (fun hsome => hc (by simpa [CanEncode] using bcd_isSome_iff.mp hsome)) rest
    exact strSerialize_of_payload_error hlen (by rw [encPayload, encBcd, hbad])
  case sixBit =>
    have hbad : firstBad has6BitCode 0 (good ++ c :: rest) = some (good.length, c) :=
      firstBad_append_cons_bad (fun g hg => has6BitCode_iff.mpr (hgood g hg))
        (fun hcode => hc (by simpa [CanEncode] using show _ ∧ _ from has6BitCode_iff.mp hcode)) rest
    exact strSerialize_of_payload_error hlen (by rw [encPayload, enc6Bit, hbad])
  case text =>
    have hfits : encLen .ascii8 s ≤ 63 := hlen
    rw [strSerialize_of_fits hfits, encPayload, enc8Bit]
    split <;> rfl

end Sys2Proof.Machine
end

section
/-! The layout of the payloads (R76 to R78): a whole pair or chunk in front of a value stands in front of its payload, in both
directions, and only the end is padded. -/
namespace Sys2Proof.Machine
open Sys2Proof.Claims

/-! ### Padding -/

/-- Whole chunks in front are left as they are. -/
theorem pad_append_of_dvd {a : Octets} {m : Nat} (h : m ∣ a.length) (s : Octets) : pad (a ++ s) m = a ++ pad s m := by
  obtain ⟨k, hk⟩ := h
  simp [pad, hk]

/-- R136: padding begins with a space, as long as the last chunk is short. -/
theorem pad_four_append_space {s : Octets} (h : s.length % 4 ≠ 0) : pad (s ++ [0x20]) 4 = pad s 4 := by
  have hcount : (4 - s.length % 4) % 4 = (4 - (s.length + 1) % 4) % 4 + 1 := by omega
  rw [pad, pad, List.length_append, List.length_singleton, hcount, List.replicate_succ, List.append_assoc]
  rfl

/-! ### BCD_PLUS -/

theorem nibbles_ofNat {a b : Nat} (hb : b < 16) :
    nibbles (BitVec.ofNat 4 a) (BitVec.ofNat 4 b) = BitVec.ofNat 8 (16 * a + b) := by
  apply BitVec.eq_of_toNat_eq
  rw [nibbles, BitVec.toNat_append, ← Nat.shiftLeft_add_eq_or_of_lt (BitVec.isLt _), Nat.shiftLeft_eq]
  simp only [BitVec.toNat_ofNat]
  omega

/-- R76: the encoder's codes are those of the table. -/
theorem bcd_of_mem_bcdTable : ∀ x ∈ bcdTable, bcd x.1 = some (BitVec.ofNat 4 x.2) ∧ x.2 < 16 := by decide

theorem packPairs_cons_cons {x y : Byte × Nat} (hx : x ∈ bcdTable) (hy : y ∈ bcdTable) (s : Octets) :
    packPairs (x.1 :: y.1 :: s) = BitVec.ofNat 8 (16 * x.2 + y.2) :: packPairs s := by
  obtain ⟨hxcode, -⟩ := bcd_of_mem_bcdTable x hx
  obtain ⟨hycode, hylt⟩ := bcd_of_mem_bcdTable y hy
  simp [packPairs, hxcode, hycode, nibbles_ofNat hylt]

theorem bcd_isSome_of_mem_bcdTable {x : Byte × Nat} (hx : x ∈ bcdTable) : (bcd x.1).isSome := by
  rw [(bcd_of_mem_bcdTable x hx).1]
  rfl

theorem encBcd_cons_cons {x y : Byte × Nat} (hx : x ∈ bcdTable) (hy : y ∈ bcdTable) {s p : Octets} {name : Name}
    (h : encBcd s name = .ok p) : encBcd (x.1 :: y.1 :: s) name = .ok (BitVec.ofNat 8 (16 * x.2 + y.2) :: p) := by
  obtain ⟨hs, rfl⟩ := encBcd_ok_iff.mp h
  have hpad : norm .bcdPlus (x.1 :: y.1 :: s) = x.1 :: y.1 :: norm .bcdPlus s :=
    pad_append_of_dvd (a := [x.1, y.1]) (dvd_refl 2) s
  exact encBcd_ok_iff.mpr ⟨by simpa [bcd_isSome_of_mem_bcdTable hx, bcd_isSome_of_mem_bcdTable hy] using hs,
    by rw [hpad, packPairs_cons_cons hx hy]⟩

theorem decBcd_cons {x y : Byte × Nat} (hx : x ∈ bcdTable) (hy : y ∈ bcdTable) {s p : Octets} {name : Name}
    (h : decBcd p name = .ok s) : decBcd (BitVec.ofNat 8 (16 * x.2 + y.2) :: p) name = .ok (x.1 :: y.1 :: s) := by
  obtain ⟨hlen, hs, rfl⟩ := decBcdFrom_ok_iff.mp h
  exact decBcdFrom_ok_iff.mpr ⟨by simpa using hlen,
    by simpa [bcd_isSome_of_mem_bcdTable hx, bcd_isSome_of_mem_bcdTable hy] using hs, packPairs_cons_cons hx hy s⟩

/-- R134: the padding space of an odd value takes the low nibble 0xA. -/
theorem encBcd_singleton {x : Byte × Nat} (hx : x ∈ bcdTable) (name : Name) :
    encBcd [x.1] name = .ok [BitVec.ofNat 8 (16 * x.2 + 0xA)] :=
  encBcd_ok_iff.mpr ⟨by simpa using bcd_isSome_of_mem_bcdTable hx,
    packPairs_cons_cons hx (y := (0x20, 0xA)) (by decide) []⟩

/-! ### ASCII_6BIT -/

theorem byteAt_eq_ofNat_iff {V i n : Nat} : byteAt V i = BitVec.ofNat 8 n ↔ V / 2 ^ (8 * i) % 256 = n % 256 := by
  rw [← BitVec.toNat_inj, byteAt_toNat, BitVec.toNat_ofNat]

/-- R77: a chunk's three bytes are those of the table. -/
theorem pack6_eq_chunkBytes {a b c d : Byte} (ha : InSixBitTable a) (hb : InSixBitTable b) (hc : InSixBitTable c)
    (hd : InSixBitTable d) : pack6 (code6 a) (code6 b) (code6 c) (code6 d) = chunkBytes a b c d := by
  have ha := ha.code6_lt
  have hb := hb.code6_lt
  have hc := hc.code6_lt
  have hd := hd.code6_lt
  have hV : packedInteger [6, 6, 6, 6] [code6 d, code6 c, code6 b, code6 a] =
      code6 d * 2 ^ 18 + code6 c * 2 ^ 12 + code6 b * 2 ^ 6 + code6 a := by
    simp [packedInteger, Nat.add_assoc]
  rw [pack6_eq_wireBytes (by simp; omega), hV]
  change [byteAt _ 0, byteAt _ 1, byteAt _ 2] =
    [BitVec.ofNat 8 (code6 a + 64 * (code6 b % 4)), BitVec.ofNat 8 (code6 b / 4 + 16 * (code6 c % 16)),
      BitVec.ofNat 8 (code6 c / 16 + 4 * code6 d)]
  simp only [List.cons.injEq, and_true, byteAt_eq_ofNat_iff]
  omega

theorem packChunks_cons4 {a b c d : Byte} (h : ∀ x ∈ [a, b, c, d], InSixBitTable x) (s : Octets) :
    packChunks (a :: b :: c :: d :: s) = chunkBytes a b c d ++ packChunks s := by
  simp only [List.forall_mem_cons] at h
  obtain ⟨ha, hb, hc, hd, -⟩ := h
  rw [packChunks, pack6_eq_chunkBytes ha hb hc hd]

theorem enc6Bit_cons4 {a b c d : Byte} (h : ∀ x ∈ [a, b, c, d], InSixBitTable x) {s p : Octets} {name : Name}
    (hs : enc6Bit s name = .ok p) : enc6Bit (a :: b :: c :: d :: s) name = .ok (chunkBytes a b c d ++ p) := by
  obtain ⟨hcodes, rfl⟩ := enc6Bit_ok_iff.mp hs
  have hup : [a, b, c, d].map upcase = [a, b, c, d] := by
    rw [List.map_congr_left fun x hx => (h x hx).upcase_eq]
    rfl
  have hnorm : norm .ascii6 ([a, b, c, d] ++ s) = [a, b, c, d] ++ norm .ascii6 s := by
    rw [norm, List.map_append, hup, pad_append_of_dvd (dvd_refl 4)]
    rfl
  refine enc6Bit_ok_iff.mpr ⟨?_, ?_⟩
  · intro x hx
    obtain hx | hx := List.mem_append.mp (show x ∈ [a, b, c, d] ++ s from hx)
    · rw [has6BitCode_iff, (h x hx).upcase_eq]
      exact h x hx
    · exact hcodes x hx
  · exact (congrArg packChunks hnorm).trans (packChunks_cons4 h _)

theorem dec6Bit_chunkBytes_append {a b c d : Byte} (h : ∀ x ∈ [a, b, c, d], InSixBitTable x) {s p : Octets} {name : Name}
    (hp : dec6Bit p name = .ok s) : dec6Bit (chunkBytes a b c d ++ p) name = .ok (a :: b :: c :: d :: s) := by
  obtain ⟨hlen, hs, rfl⟩ := dec6Bit_ok_iff.mp hp
  refine dec6Bit_ok_iff.mpr ⟨by simpa using hlen, ?_, packChunks_cons4 h s⟩
  intro x hx
  obtain hx | hx := List.mem_append.mp (show x ∈ [a, b, c, d] ++ s from hx)
  · exact h x hx
  · exact hs x hx

/-- An octet that passes is passed over. -/
theorem firstBad_append_cons_good {p : Byte → Bool} {c : Byte} (hc : p c = true) (k : Nat) (s s' : Octets) :
    firstBad p k (s ++ c :: s') = (firstBad p k s).or (firstBad p (k + s.length + 1) s') := by
  simp [firstBad_append, firstBad, hc]

/-- R136: a value with a short last chunk encodes as it does with a space behind it. -/
theorem enc6Bit_append_space {s : Octets} (h : s.length % 4 ≠ 0) (name : Name) :
    enc6Bit (s ++ [0x20]) name = enc6Bit s name := by
  have hbad : firstBad has6BitCode 0 (s ++ [0x20]) = firstBad has6BitCode 0 s := by
    rw [firstBad_append_cons_good (by decide)]
    exact Option.or_none
  have hpad : pad ((s ++ [0x20]).map upcase) 4 = pad (s.map upcase) 4 := by
    rw [List.map_append]
    exact pad_four_append_space (by rwa [List.length_map])
  rw [enc6Bit, enc6Bit, hbad, hpad]

/-- R136: a letter encodes as the upper-case letter in its place. -/
theorem enc6Bit_lower {c : Byte} (hlow : 0x61 ≤ c.toNat) (hhigh : c.toNat ≤ 0x7A) (s s' : Octets) (name : Name) :
    enc6Bit (s ++ c :: s') name = enc6Bit (s ++ (c - 0x20) :: s') name := by
  have hc : upcase c = c - 0x20 := if_pos ⟨hlow, hhigh⟩
  have hcode : has6BitCode c = true := by
    rw [has6BitCode_iff, hc, InSixBitTable]
    bv_omega
  have hcode' : has6BitCode (upcase c) = true := by
    rw [has6BitCode_iff, upcase_upcase]
    exact has6BitCode_iff.mp hcode
  rw [← hc, enc6Bit, enc6Bit, firstBad_append_cons_good hcode, firstBad_append_cons_good hcode']
  simp only [List.map_append, List.map_cons, upcase_upcase]

/-- Settles O19: pairs and chunks stand in the payload in the order of the value, each in the form of its table. -/
theorem payloadLayouts : Obligations.PayloadLayouts := by
  unfold Obligations.PayloadLayouts
  intro name
  refine ⟨fun _ => rfl, fun _ => rfl, ?text, ⟨rfl, rfl⟩, ?pairs, fun x hx => encBcd_singleton hx name, ⟨rfl, rfl⟩,
    ?chunks, fun s h => (enc6Bit_append_space h name).symm, fun s s' c hlow hhigh => enc6Bit_lower hlow hhigh s s' name⟩
  case text =>
    rintro sel p (rfl | rfl) <;> rfl
  case pairs =>
    intro x hx y hy s p
    exact ⟨encBcd_cons_cons hx hy, decBcd_cons hx hy⟩
  case chunks =>
    intro a b c d h s p
    exact ⟨enc6Bit_cons4 h, dec6Bit_chunkBytes_append h⟩

end Sys2Proof.Machine
end

section
/-! The step (R50, R190, R233, R234): the command it issues between two commands, and inside a deserializing command the wire
element at the place where the transfer stands. Every schema entry, a BitField or a string, is one such element. -/
namespace Sys2Proof.Machine
open Sys2Proof.Claims

theorem fetch_of_legal_schema {s : State} (h : checkSchema s.schema = none) : fetch s = fetchNext s := by
  rw [fetch, h]

theorem step_of_fetch_run {s s' : State} {i : Instr} (h : fetch s = .run i s') : step s = exec i s' := by
  rw [step, h]

/-! ### Commands -/

section
variable {s : State} (h : checkSchema s.schema = none) (hx : s.xfer = none)
include h hx

theorem fetch_between_commands : fetch s = fetchCommand s := by
  rw [fetch_of_legal_schema h, fetchNext, State.wanted_of_no_transfer hx]

theorem step_idle (hp : s.pending = []) : step s = .next s :=
  step_of_fetch_direct (by rw [fetch_between_commands h hx, fetchCommand, hp])

theorem step_command {c : Command} {rest : List Command} {i : Instr} (hp : s.pending = c :: rest)
    (hd : decode ⟨.command, c.op, c.operands⟩ = .ok i) : step s = exec i { s with pending := rest } :=
  step_of_fetch_run (by rw [fetch_between_commands h hx, fetchCommand_cons hp hd])

theorem step_illegal_command {c : Command} {rest : List Command} {op : Byte} (hp : s.pending = c :: rest)
    (hd : decode ⟨.command, c.op, c.operands⟩ = .error (.illegalOpcode op)) :
    step s = .next (State.raise { s with pending := rest } (.illegalCommand op)) :=
  step_of_fetch_direct (by simp only [fetch_between_commands h hx, fetchCommand, hp, hd])

end

/-- R83: the decoder has a row for the opcodes of R72 only. -/
theorem decodeCommand_of_not_mem {op : Byte} (h : op ∉ legalOpcodes) (x : Operands) :
    decodeCommand op x = .error (.illegalOpcode op) := by
  simp only [legalOpcodes, List.mem_cons, List.not_mem_nil, or_false, not_or, ← BitVec.toNat_inj] at h
  unfold decodeCommand
  split <;> simp_all

/-- Settles O3: the decoder refuses the opcode, and the step raises its error. -/
theorem illegalOpcodeRaisesAndChangesNothing : Obligations.IllegalOpcodeRaisesAndChangesNothing := by
  unfold Obligations.IllegalOpcodeRaisesAndChangesNothing
  intro s c rest h hx hp hop
  exact ⟨step_illegal_command h hx hp (decodeCommand_of_not_mem hop c.operands), rfl⟩

/-- Settles O4: between two commands nothing is wanted, so the step fetches the next command. -/
theorem stepRunsDecodedCommand : Obligations.StepRunsDecodedCommand := by
  unfold Obligations.StepRunsDecodedCommand
  exact fun s c rest i h hx hp hd => step_command h hx hp hd

/-! ### The prologue and header bytes -/

theorem step_prologue_cons {s : State} {t : Xfer} {b : Byte} {r : Octets} (h : checkSchema s.schema = none)
    (hw : s.wanted = .prologue t) (hr : t.rest = b :: r) : step s = exec (decodePrologue b) s :=
  step_of_fetch_run (by simp only [fetch_of_legal_schema h, fetchNext, hw, hr, fetchByte, decode])

theorem step_prologue_nil {s : State} {t : Xfer} (h : checkSchema s.schema = none) (hw : s.wanted = .prologue t)
    (hr : t.rest = []) : step s = .next (failTransfer t none (.truncated namePrologue 1 0) s) :=
  step_of_fetch_direct (by simp only [fetch_of_legal_schema h, fetchNext, hw, hr])

theorem step_header_cons {s : State} {t : Xfer} {sl : Slot} {b : Byte} {r : Octets} (h : checkSchema s.schema = none)
    (hw : s.wanted = .header t sl) (hr : t.rest = b :: r) : step s = exec (decodeHeader b) s :=
  step_of_fetch_run (by simp only [fetch_of_legal_schema h, fetchNext, hw, hr, fetchByte, decode])

/-- Settles O5: every byte decodes in these two places. -/
theorem stepRunsDecodedWireByte : Obligations.StepRunsDecodedWireByte := by
  unfold Obligations.StepRunsDecodedWireByte
  exact fun s t b r h hr => ⟨fun sl hw => step_header_cons h hw hr, fun hw => step_prologue_cons h hw hr⟩

theorem exec_prologue_wanted {s : State} {t : Xfer} (hw : s.wanted = .prologue t) (reserved version : BitVec 4) :
    exec (.prologue reserved version) s = .next { s with ver := version, xfer := some { t with cur := 1 } } := by
  simp only [exec, execPrologue, hw]

/-- Settles O49: the meaning of the prologue byte does not read the reserved nibble. -/
theorem prologueLoadsVersion : Obligations.PrologueLoadsVersion := by
  unfold Obligations.PrologueLoadsVersion
  exact fun s t reserved version hw => exec_prologue_wanted hw reserved version

theorem exec_headerInstr (sel : Selector) (n : BitVec 6) (s : State) :
    exec (headerInstr sel n) s = stringElement sel n s := by
  cases sel <;> rfl

/-- The instructions that are no commands: the string headers and the prologue (R74, R80). -/
theorem wireInstr_cases {i : Instr} (h : isCommand i = false) :
    (∃ sel n, i = headerInstr sel n) ∨ ∃ reserved version, i = .prologue reserved version := by
  cases i with
  | strBin n => exact .inl ⟨.bin, n, rfl⟩
  | strBcdPlus n => exact .inl ⟨.bcdPlus, n, rfl⟩
  | strAscii6 n => exact .inl ⟨.ascii6, n, rfl⟩
  | strAscii8 n => exact .inl ⟨.ascii8, n, rfl⟩
  | prologue reserved version => exact .inr ⟨reserved, version, rfl⟩
  | _ => cases h

/-- Settles O50: a wire element asks what is wanted, and without a transfer nothing is. -/
theorem wireElementsNeedATransfer : Obligations.WireElementsNeedATransfer := by
  unfold Obligations.WireElementsNeedATransfer
  intro i s hi hx
  have hw := State.wanted_of_no_transfer hx
  obtain ⟨sel, n, rfl⟩ | ⟨reserved, version, rfl⟩ := wireInstr_cases hi
  · rw [exec_headerInstr, stringElement, hw]
  · rw [exec, execPrologue, hw]

/-! ### The schema entries -/

/-- The open transfer t stands at the schema entry in slot sl: any prologue is behind it (R190, R233). -/
structure State.AtEntry (s : State) (t : Xfer) (sl : Slot) : Prop where
  xfer : s.xfer = some t
  slot : s.slots[t.entry]? = some sl
  begun : t.span = .record → t.cur ≠ 0

theorem State.AtEntry.wanted {s : State} {t : Xfer} {sl : Slot} (h : s.AtEntry t sl) :
    s.wanted = .bits t sl ∨ s.wanted = .header t sl := by
  have hbegun : ¬ (t.span = .record ∧ t.cur = 0) := fun ⟨hr, hc⟩ => h.begun hr hc
  simp only [State.wanted, h.xfer, if_neg hbegun, h.slot]
  cases sl.field <;> simp

/-- What a transfer can want, and where it then stands (R190, R233). -/
theorem State.wanted_cases {s : State} {t : Xfer} (h : s.xfer = some t) :
    (s.wanted = .prologue t ∧ t.span = .record ∧ t.cur = 0) ∨
    (∃ sl, s.AtEntry t sl) ∨
    (s.wanted = .epilogue t ∧ t.span = .record) ∨
    (s.wanted = .astray ∧ t.span = .field ∧ s.slots[t.entry]? = none) := by
  by_cases hbegun : t.span = .record ∧ t.cur = 0
  · exact .inl ⟨by simp only [State.wanted, h, if_pos hbegun], hbegun⟩
  · have hcur : t.span = .record → t.cur ≠ 0 := fun hr hc => hbegun ⟨hr, hc⟩
    cases hs : s.slots[t.entry]? with
    | some sl => exact .inr (.inl ⟨sl, h, hs, hcur⟩)
    | none =>
      cases hspan : t.span with
      | record => exact .inr (.inr (.inl ⟨by simp [State.wanted, h, hs, hspan, hcur hspan], rfl⟩))
      | field => exact .inr (.inr (.inr ⟨by simp [State.wanted, h, hs, hspan], rfl, rfl⟩))

/-- A string header reads its entry as Slot.parse does (R141). -/
theorem stringElement_eq_bitsElement {s : State} {t : Xfer} {sl : Slot} {b : Byte} {r : Octets}
    (hw : s.wanted = .header t sl) (hr : t.rest = b :: r) :
    stringElement (Selector.ofCode (headerSel b)) (headerLen b) s = bitsElement t sl s := by
  obtain ⟨-, -, -, sd, d, sel, v, hfield⟩ := State.wanted_header hw
  simp only [stringElement, hw, bitsElement, Slot.parse, hfield, hr, strDeserialize]
  cases strElement sl.name (Selector.ofCode (headerSel b)) (headerLen b).toNat (b :: r) <;> rfl

/-- R190, R233: at a schema entry the step reads its bytes, whatever its type. -/
theorem step_atEntry {s : State} {t : Xfer} {sl : Slot} (h : checkSchema s.schema = none) (he : s.AtEntry t sl) :
    step s = bitsElement t sl s := by
  obtain hw | hw := he.wanted
  · exact step_of_fetch_direct (by simp only [fetch_of_legal_schema h, fetchNext, hw])
  · cases hr : t.rest with
    | nil =>
      obtain ⟨-, -, -, sd, d, sel, v, hfield⟩ := State.wanted_header hw
      have hstep : step s = .next (failTransfer t (some sl) (.truncated sl.name 1 0) s) :=
        step_of_fetch_direct (by simp only [fetch_of_legal_schema h, fetchNext, hw, hr])
      simp only [hstep, bitsElement, Slot.parse, hfield, hr, strDeserialize]
    | cons b r =>
      rw [step_header_cons h hw hr, decodeHeader_eq, exec_headerInstr, stringElement_eq_bitsElement hw hr]

theorem step_epilogue {s : State} {t : Xfer} (h : checkSchema s.schema = none) (hw : s.wanted = .epilogue t) :
    step s = epilogueElement t s :=
  step_of_fetch_direct (by simp only [fetch_of_legal_schema h, fetchNext, hw])

end Sys2Proof.Machine
end

section
/-! Writes of registers (R20, R26, R27): whatever a command puts into a register, the slot keeps its schema entry and the
register stays within its type. One lemma for each kind of write, and from them what SET and UPDATE do to the registers. -/
namespace Sys2Proof.Machine
open Sys2Proof.Claims

/-! ### One slot -/

/-- Slot sl' is slot sl with its register written: the schema entry is the same, and in a legal entry a legal register stays
legal (R20, R26). -/
structure Slot.Rewritten (sl sl' : Slot) : Prop where
  entry : sl'.entry = sl.entry
  legal : sl.entry.Legal → sl.field.legal = true → sl'.field.legal = true

theorem Slot.Rewritten.refl (sl : Slot) : sl.Rewritten sl := ⟨rfl, fun _ h => h⟩

theorem Slot.Rewritten.trans {a b c : Slot} (hab : a.Rewritten b) (hbc : b.Rewritten c) : a.Rewritten c where
  entry := hbc.entry.trans hab.entry
  legal hentry ha := hbc.legal (by rwa [hab.entry]) (hab.legal hentry ha)

/-- A BitField register takes every value R26 allows for its layout, which R352 keeps from being empty. -/
theorem Slot.rewritten_bit {nm : Name} {layout : List Nat} {d x x' : BitVal}
    (h : layout ≠ [] → x'.legal layout = true) : Slot.Rewritten ⟨nm, .bit layout d x⟩ ⟨nm, .bit layout d x'⟩ where
  entry := rfl
  legal hentry _ := by
    obtain ⟨-, hne, -⟩ := hentry
    exact h hne

/-- A string register takes any selector and any octets (R27). -/
theorem Slot.rewritten_str (nm : Name) (sd : Selector) (d : Octets) (sel sel' : Selector) (v v' : Octets) :
    Slot.Rewritten ⟨nm, .str sd d sel v⟩ ⟨nm, .str sd d sel' v'⟩ :=
  ⟨rfl, fun _ _ => rfl⟩

theorem Slot.rewritten_reset (sl : Slot) : sl.Rewritten { sl with field := sl.field.reset } where
  entry := by simp [Slot.entry]
  legal hentry _ := hentry.fresh_legal

theorem groupsFit_drawGroups (n i j : Nat) (layout : List Nat) : groupsFit layout (drawGroups n i j layout) = true := by
  induction layout generalizing j with
  | nil => rfl
  | cons w ws ih => exact groupsFit_cons.mpr ⟨Nat.mod_lt _ (Nat.two_pow_pos w), ih (j + 1)⟩

theorem ofGroups_legal {layout vs : List Nat} (hne : layout ≠ []) (h : groupsFit layout vs = true) :
    (BitVal.ofGroups vs).legal layout = true :=
  ((BitVal.set_legal_iff hne).mpr ⟨vs, rfl, h⟩).2

/-- I2: a free value is within its register's type. -/
theorem drawBits_legal (n i : Nat) {layout : List Nat} (hne : layout ≠ []) :
    (drawBits n i layout).legal layout = true := by
  have hfit := groupsFit_drawGroups n i 0 layout
  unfold drawBits
  split
  · rfl
  · split
    · exact ofGroups_legal hne hfit
    · next hnot =>
      have hlen : layout.length ≠ 1 := fun h1 => by
        obtain ⟨w, rfl⟩ := List.length_eq_one_iff.mp h1
        exact hnot w rfl
      have hpos := List.length_pos_iff.mpr hne
      have htwo : 2 ≤ layout.length := by omega
      simp [BitVal.legal, hfit, htwo]

/-- I2, I3: a drawn register of a legal entry is within its type, whatever it held. -/
theorem Slot.draw_legal {sl : Slot} (h : sl.entry.Legal) (n i : Nat) : (sl.field.draw n i).legal = true := by
  obtain ⟨nm, field⟩ := sl
  cases field with
  | bit layout d x =>
    obtain ⟨-, hne, -⟩ := h
    exact drawBits_legal n i hne
  | str sd d sel v => rfl

theorem Slot.rewritten_draw (sl : Slot) (n i : Nat) : sl.Rewritten { sl with field := sl.field.draw n i } where
  entry := by simp [Slot.entry]
  legal hentry _ := Slot.draw_legal hentry n i

theorem Slot.rewritten_withString (sl : Slot) (sel : Selector) (v : Octets) :
    sl.Rewritten { sl with field := sl.field.withString sel v } := by
  obtain ⟨nm, field⟩ := sl
  cases field with
  | bit layout d x => exact Slot.Rewritten.refl _
  | str sd d sel' v' => exact Slot.rewritten_str nm sd d sel' sel v' v

/-! ### Parsing -/

theorem Slot.parse_bit (nm : Name) (layout : List Nat) (d x : BitVal) (b : Octets) :
    Slot.parse ⟨nm, .bit layout d x⟩ b = (bfUnpack layout b nm).map fun q => (⟨nm, .bit layout d q.1⟩, q.2) := by
  simp only [Slot.parse]
  cases bfUnpack layout b nm <;> rfl

theorem Slot.parse_str (nm : Name) (sd sel : Selector) (d v b : Octets) :
    Slot.parse ⟨nm, .str sd d sel v⟩ b =
      (strDeserialize b nm).map fun q => (⟨nm, .str sd d q.1 q.2.1⟩, q.2.2) := by
  simp only [Slot.parse]
  cases strDeserialize b nm <;> rfl

/-- R103: what a successful BF.UNPACK has read. -/
theorem bfUnpack_ok_iff {layout : List Nat} {b r : Octets} {name : Name} {x : BitVal} :
    bfUnpack layout b name = .ok (x, r) ↔
      ∃ p, b = p ++ r ∧ p.length = bfSize layout ∧ x = .ofGroups (unpackGroups (leNat p) layout) := by
  constructor
  · intro h
    unfold bfUnpack at h
    split at h
    · cases h
    · next p q hread =>
      obtain ⟨hlen, rfl, rfl⟩ := memRead_ok_iff.mp hread
      cases h
      exact ⟨_, (List.take_append_drop _ b).symm, List.length_take_of_le hlen, rfl⟩
  · rintro ⟨p, rfl, hp, rfl⟩
    exact bfUnpack_append hp r name

/-- A successful parse writes its own entry's register and leaves the bytes behind those it has read. -/
theorem Slot.parse_ok {sl sl' : Slot} {b r : Octets} (h : sl.parse b = .ok (sl', r)) : sl.Rewritten sl' ∧ r <:+ b := by
  obtain ⟨nm, field⟩ := sl
  cases field with
  | bit layout d x =>
    rw [Slot.parse_bit] at h
    cases hread : bfUnpack layout b nm with
    | error e => rw [hread] at h; cases h
    | ok q =>
      rw [hread] at h
      cases h
      obtain ⟨p, rfl, -, hx⟩ := bfUnpack_ok_iff.mp hread
      refine ⟨Slot.rewritten_bit fun hne => ?_, List.suffix_append p _⟩
      rw [hx]
      exact ofGroups_legal hne (groupsFit_unpackGroups _ _)
  | str sd d sel v =>
    rw [Slot.parse_str] at h
    cases hread : strDeserialize b nm with
    | error e => rw [hread] at h; cases h
    | ok q =>
      rw [hread] at h
      cases h
      obtain ⟨n, p, rfl, -, -⟩ := strDeserialize_ok_iff.mp hread
      exact ⟨Slot.rewritten_str nm sd d sel _ v _, (List.suffix_append p _).trans (List.suffix_cons _ _)⟩

/-! ### All slots -/

/-- Writing a slot to which the old one is related relates the slots before and after. -/
theorem forall₂_set {R : Slot → Slot → Prop} (hR : ∀ sl, R sl sl) {slots : List Slot} {i : Nat} {sl sl' : Slot}
    (hs : slots[i]? = some sl) (h : R sl sl') : List.Forall₂ R slots (slots.set i sl') := by
  induction slots generalizing i with
  | nil => simp at hs
  | cons a rest ih =>
    cases i with
    | zero =>
      obtain rfl : a = sl := by simpa using hs
      exact .cons h (List.forall₂_same.mpr fun x _ => hR x)
    | succ i => exact .cons (hR a) (ih (by simpa using hs))

theorem forall₂_trans {R : Slot → Slot → Prop} (hR : ∀ a b c, R a b → R b c → R a c) :
    ∀ {x y z : List Slot}, List.Forall₂ R x y → List.Forall₂ R y z → List.Forall₂ R x z
  | _, _, _, .nil, .nil => .nil
  | _, _, _, .cons hab hxy, .cons hbc hyz => .cons (hR _ _ _ hab hbc) (forall₂_trans hR hxy hyz)

theorem forall₂_drawSlots (n i : Nat) (slots : List Slot) :
    List.Forall₂ Slot.Rewritten slots (drawSlots n i slots) := by
  induction slots generalizing i with
  | nil => exact .nil
  | cons sl rest ih => exact .cons (sl.rewritten_draw n i) (ih (i + 1))

theorem forall₂_parseSlots {slots slots' : List Slot} {b r : Octets} (h : parseSlots slots b = .ok (slots', r)) :
    List.Forall₂ Slot.Rewritten slots slots' := by
  induction slots generalizing slots' b with
  | nil =>
    cases h
    exact .nil
  | cons sl rest ih =>
    rw [parseSlots] at h
    split at h
    · cases h
    · next hsl =>
      split at h
      · cases h
      · next hrest =>
        cases h
        exact .cons (Slot.parse_ok hsl).1 (ih hrest)

theorem map_entry_of_rewritten {slots slots' : List Slot} (h : List.Forall₂ Slot.Rewritten slots slots') :
    slots'.map Slot.entry = slots.map Slot.entry := by
  induction h with
  | nil => rfl
  | cons hsl _ ih => rw [List.map_cons, List.map_cons, hsl.entry, ih]

theorem legal_of_rewritten {slots slots' : List Slot} (h : List.Forall₂ Slot.Rewritten slots slots')
    (hentry : ∀ sl ∈ slots, sl.entry.Legal) (hlegal : ∀ sl ∈ slots, sl.field.legal = true) :
    ∀ sl ∈ slots', sl.field.legal = true := by
  induction h with
  | nil => simp
  | cons hsl _ ih =>
    rw [List.forall_mem_cons] at hlegal hentry ⊢
    exact ⟨hsl.legal hentry.1 hlegal.1, ih hentry.2 hlegal.2⟩

/-- The registers of t are those of s, written: SCHEMA is the same and the registers stay within their types. -/
def State.Rewritten (s t : State) : Prop := List.Forall₂ Slot.Rewritten s.slots t.slots

theorem State.Rewritten.of_slots_eq {s t : State} (h : t.slots = s.slots) : s.Rewritten t := by
  rw [State.Rewritten, h]
  exact List.forall₂_same.mpr fun sl _ => Slot.Rewritten.refl sl

theorem State.Rewritten.of_set {s t : State} {i : Nat} {sl sl' : Slot} (hs : s.slots[i]? = some sl)
    (h : sl.Rewritten sl') (ht : t.slots = s.slots.set i sl') : s.Rewritten t := by
  rw [State.Rewritten, ht]
  exact forall₂_set Slot.Rewritten.refl hs h

theorem State.Rewritten.schema {s t : State} (h : s.Rewritten t) : t.schema = s.schema := map_entry_of_rewritten h

theorem State.Rewritten.slots_length {s t : State} (h : s.Rewritten t) : t.slots.length = s.slots.length :=
  (List.Forall₂.length_eq h).symm

theorem entry_legal_of_mem {s : State} {sl : Slot} (h : checkSchema s.schema = none) (hm : sl ∈ s.slots) :
    sl.entry.Legal :=
  (checkSchema_none_iff.mp h).2 _ (List.mem_map_of_mem hm)

theorem State.Rewritten.registersLegal {s t : State} (h : s.Rewritten t) (hschema : checkSchema s.schema = none)
    (hlegal : s.registersLegal = true) : t.registersLegal = true := by
  rw [State.registersLegal, List.all_eq_true] at hlegal ⊢
  exact legal_of_rewritten h (fun _ hm => entry_legal_of_mem hschema hm) hlegal

/-! ### SET and UPDATE -/

/-- A write that keeps the selector, as SET's and SERIALIZE's do (R27, R30). -/
def Slot.ValueWritten (sl sl' : Slot) : Prop := sl.Rewritten sl' ∧ selectorOf sl' = selectorOf sl

theorem Slot.ValueWritten.refl (sl : Slot) : sl.ValueWritten sl := ⟨.refl sl, rfl⟩

theorem Slot.ValueWritten.trans {a b c : Slot} (hab : a.ValueWritten b) (hbc : b.ValueWritten c) : a.ValueWritten c :=
  ⟨hab.1.trans hbc.1, hbc.2.trans hab.2⟩

theorem Slot.valueWritten_bit {nm : Name} {layout : List Nat} {d x x' : BitVal}
    (h : layout ≠ [] → x'.legal layout = true) : Slot.ValueWritten ⟨nm, .bit layout d x⟩ ⟨nm, .bit layout d x'⟩ :=
  ⟨Slot.rewritten_bit h, rfl⟩

/-- R104: BF.CHECK gives only values R26 allows. -/
theorem bfCheck_legal {layout : List Nat} {e : ExtValue} {name : Name} {x : BitVal} (hne : layout ≠ [])
    (h : bfCheck layout e name = .ok x) : x.legal layout = true := by
  match layout, e with
  | [], _ => exact absurd rfl hne
  | [w], .int z =>
    simp only [bfCheck] at h
    split at h
    · next hfit =>
      cases h
      obtain ⟨v, hv, rfl⟩ := intFits_iff.mp hfit
      simpa [BitVal.legal, groupsFit] using hv
    · cases h
  | [_], .list _ | [_], .str _ => cases h
  | _ :: _ :: _, .list zs =>
    simp only [bfCheck] at h
    split at h
    · next hfit =>
      cases h
      obtain ⟨vs, hvs, rfl⟩ := intsFit_iff.mp hfit
      simpa [BitVal.legal, Function.comp_def] using hvs
    · cases h
  | _ :: _ :: _, .int _ | _ :: _ :: _, .str _ => cases h

theorem Slot.check_ok {sl : Slot} {e : ExtValue} {f : Field} (h : sl.check e = .ok f) :
    sl.ValueWritten { sl with field := f } := by
  obtain ⟨nm, field⟩ := sl
  cases field with
  | bit layout d x =>
    rw [check_bit] at h
    cases hx : bfCheck layout e nm with
    | error err => rw [hx] at h; cases h
    | ok x' =>
      rw [hx] at h
      cases h
      exact Slot.valueWritten_bit fun hne => bfCheck_legal hne hx
  | str sd d sel val =>
    rw [check_str] at h
    cases hv : strCheck e nm with
    | error err => rw [hv] at h; cases h
    | ok v =>
      rw [hv] at h
      cases h
      exact ⟨Slot.rewritten_str nm sd d sel sel val v, rfl⟩

/-- A number in range is a legal value of FR[AL] (R28). -/
theorem areaEntry_valueWritten {s : State} {i w u : Nat} {sl : Slot} {x : BitVal}
    (h : s.areaEntry = some (i, sl, w, x)) (hu : u < 2 ^ w) :
    s.slots[i]? = some sl ∧ sl.ValueWritten { sl with field := sl.field.withBits (.scalar u) } := by
  obtain ⟨hfind, d, hfield⟩ := State.areaEntry_eq_some_iff.mp h
  obtain ⟨hs, -⟩ := findSlot_some hfind
  obtain ⟨nm, field⟩ := sl
  subst hfield
  exact ⟨hs, Slot.valueWritten_bit fun _ => by simpa [BitVal.legal, groupsFit] using hu⟩

theorem setArea_ok {i w : Nat} {sl : Slot} {e : ExtValue} {s s' : State} (h : setArea i sl w e s = .ok s') :
    ∃ u, u < 2 ^ w ∧ s' = s.putField i sl (sl.field.withBits (.scalar u)) := by
  cases e with
  | int z =>
    simp only [setArea] at h
    split at h
    · cases h
    · split at h
      · cases h
      · next hrange =>
        cases h
        rw [not_or, not_lt, ge_iff_le, not_le] at hrange
        obtain ⟨hlow, hhigh⟩ := hrange
        exact ⟨_, (Int.toNat_lt hlow).mpr (by exact_mod_cast hhigh), rfl⟩
  | list zs => cases h
  | str v => cases h

theorem setVersion_ok {e : ExtValue} {s s' : State} (h : setVersion e s = .ok s') : ∃ v, s' = { s with ver := v } := by
  cases e with
  | int z =>
    simp only [setVersion] at h
    split at h <;> cases h
    exact ⟨_, rfl⟩
  | list zs => cases h
  | str v => cases h

/-- What a name can resolve to (R220). -/
theorem resolve_ok_cases {nm : Name} {s : State} {target : Target} (h : resolve nm s = .ok target) :
    (nm = nameFormatVersion ∧ target = .version) ∨
    (∃ i sl w x, s.areaEntry = some (i, sl, w, x) ∧ target = .area i sl w x) ∨
    ∃ i sl, s.slots[i]? = some sl ∧ target = .field i sl := by
  unfold resolve at h
  split at h
  · next hversion =>
    cases h
    exact .inl ⟨hversion, rfl⟩
  · split at h
    · split at h
      · next harea =>
        cases h
        exact .inr (.inl ⟨_, _, _, _, harea, rfl⟩)
      · cases h
    · split at h
      · next hfind =>
        cases h
        exact .inr (.inr ⟨_, _, (findSlot_some hfind).1, rfl⟩)
      · cases h

/-- What SET does: it writes VER under its own name, or one register, whose selector it keeps (R222). -/
theorem setValue_ok_cases {nm : Name} {e : ExtValue} {s s' : State} (h : setValue nm e s = .ok s') :
    (nm = nameFormatVersion ∧ ∃ v, s' = { s with ver := v }) ∨
    ∃ i sl f, s.slots[i]? = some sl ∧ s' = s.putField i sl f ∧ sl.ValueWritten { sl with field := f } := by
  rw [setValue] at h
  cases hresolve : resolve nm s with
  | error err => rw [hresolve] at h; cases h
  | ok target =>
    rw [hresolve] at h
    obtain ⟨hversion, rfl⟩ | ⟨i, sl, w, x, harea, rfl⟩ | ⟨i, sl, hs, rfl⟩ := resolve_ok_cases hresolve
    · exact .inl ⟨hversion, setVersion_ok h⟩
    · obtain ⟨u, hu, rfl⟩ := setArea_ok h
      obtain ⟨hs, hwritten⟩ := areaEntry_valueWritten harea hu
      exact .inr ⟨i, sl, _, hs, rfl, hwritten⟩
    · cases hcheck : sl.check e with
      | error err => simp [hcheck] at h
      | ok f =>
        simp only [hcheck, Except.ok.injEq] at h
        exact .inr ⟨i, sl, f, hs, h.symm, Slot.check_ok hcheck⟩

/-- The state t is s after some SETs, of the given names: only registers are written, no selector, and VER under its name. -/
structure State.AfterSets (names : List Name) (s t : State) : Prop where
  slots : List.Forall₂ Slot.ValueWritten s.slots t.slots
  ver : t.ver ≠ s.ver → nameFormatVersion ∈ names
  xfer : t.xfer = s.xfer
  pending : t.pending = s.pending

theorem State.AfterSets.refl (names : List Name) (s : State) : s.AfterSets names s :=
  ⟨List.forall₂_same.mpr fun sl _ => .refl sl, fun h => absurd rfl h, rfl, rfl⟩

theorem State.AfterSets.trans {names : List Name} {s t u : State} (hst : s.AfterSets names t) (htu : t.AfterSets names u) :
    s.AfterSets names u where
  slots := forall₂_trans (fun _ _ _ hab hbc => hab.trans hbc) hst.slots htu.slots
  ver h := by
    by_cases hver : t.ver = s.ver
    · exact htu.ver (by rwa [hver])
    · exact hst.ver hver
  xfer := htu.xfer.trans hst.xfer
  pending := htu.pending.trans hst.pending

theorem setValue_afterSets {nm : Name} {e : ExtValue} {s s' : State} (h : setValue nm e s = .ok s') :
    s.AfterSets [nm] s' := by
  obtain ⟨rfl, v, rfl⟩ | ⟨i, sl, f, hs, rfl, hwritten⟩ := setValue_ok_cases h
  · exact ⟨List.forall₂_same.mpr fun sl _ => .refl sl, fun _ => List.mem_singleton_self _, rfl, rfl⟩
  · exact ⟨forall₂_set Slot.ValueWritten.refl hs hwritten, fun hver => absurd rfl hver, rfl, rfl⟩

theorem State.AfterSets.mono {names names' : List Name} {s t : State} (h : s.AfterSets names t) (hsub : names ⊆ names') :
    s.AfterSets names' t :=
  ⟨h.slots, fun hver => hsub (h.ver hver), h.xfer, h.pending⟩

/-- The registers UPDATE leaves are those after the SETs of its entries, as far as they succeed (R228). -/
theorem updateAll_afterSets (m : Mapping) (s : State) : s.AfterSets (m.map Prod.fst) (updateAll m s).1 := by
  induction m generalizing s with
  | nil => exact .refl _ s
  | cons p m ih =>
    obtain ⟨nm, e⟩ := p
    rw [updateAll]
    cases hset : setValue nm e s with
    | error err => exact .refl _ s
    | ok s' =>
      exact ((setValue_afterSets hset).mono (by simp)).trans ((ih s').mono (by simp))

end Sys2Proof.Machine
end

section
/-! The commands that read a name or a field's bytes (R220, R228, R233): unknown names, an UPDATE of two registers, and
FIELD_DESERIALIZE as the parse of its one entry. -/
namespace Sys2Proof.Machine
open Sys2Proof.Claims

/-! ### Unknown names -/

theorem setValue_unknown {s : State} {nm : Name} (hv : nm ≠ nameFormatVersion) (h : ∀ sl ∈ s.slots, sl.name ≠ nm)
    (e : ExtValue) : setValue nm e s = .error (.unknownField nm) := by
  rw [setValue, resolve_unknown hv h]

/-- Settles O27: neither RESOLVE nor the search of SCHEMA finds the name. -/
theorem unknownNamesAreRefused : Obligations.UnknownNamesAreRefused := by
  unfold Obligations.UnknownNamesAreRefused
  intro s nm e buf h refused
  have hfind := findSlot_none_iff.mpr h
  refine ⟨fun hv => ⟨?get, ?set⟩, ?size, ?serialize, ?deserialize⟩
  case get => exact exec_get_of_error (by rw [getValue, resolve_unknown hv h])
  case set => exact exec_set_of_error (setValue_unknown hv h e)
  case size => simp only [exec, execFieldSize, hfind, State.raise, refused]
  case serialize => simp only [exec, execFieldSerialize, hfind, State.raise, refused]
  case deserialize => simp only [exec, execFieldDeserialize, hfind, State.raise, refused]

/-! ### UPDATE -/

/-- Settles O30: UPDATE is the SET of VER and then the SET of the string (O29, O23, O26). -/
theorem updateWritesTwoRegisters : Obligations.UpdateWritesTwoRegisters := by
  unfold Obligations.UpdateWritesTwoRegisters
  intro s i nm sd sel d val v ver h hs
  let s₁ : State := { s with ver := ver, response := some (.ok .none) }
  let s₂ : State := { s₁ with slots := s.slots.set i ⟨nm, .str sd d sel v⟩, response := some (.ok .none) }
  have hversion : exec (.set nameFormatVersion (.int ver.toNat)) s = .next s₁ := (setVersionWritesVer s).1 ver
  have hstring : exec (.set nm (.str v)) s₁ = .next s₂ := (setStringKeepsTheSelector s₁ i nm sd sel d val h hs).1 v
  calc exec (.update [(nameFormatVersion, .int ver.toNat), (nm, .str v)]) s
    _ = exec (.update [(nm, .str v)]) s₁ := ((updateIsSetInOrder s).2 _ _ _ _ hversion).1 rfl
    _ = exec (.update []) s₂ := ((updateIsSetInOrder s₁).2 _ _ _ _ hstring).1 rfl
    _ = _ := (updateIsSetInOrder s₂).1

/-! ### FIELD_DESERIALIZE -/

section
variable {s : State} {i : Nat} {sl : Slot} {buf : Octets}

theorem exec_fieldDeserialize_found {nm : Name} (hfind : findSlot nm s.slots = some (i, sl)) :
    (∃ e, sl.parse buf = .error e ∧ exec (.fieldDeserialize nm buf) s = .next ((s.drawField i sl).raise e)) ∨
    ∃ sl' r, sl.parse buf = .ok (sl', r) ∧
      exec (.fieldDeserialize nm buf) s = .next ((s.putField i sl sl'.field).answer (.bytes r)) := by
  simp only [exec, execFieldDeserialize, hfind]
  cases sl.parse buf with
  | error e => exact .inl ⟨e, rfl, rfl⟩
  | ok q => exact .inr ⟨q.1, q.2, rfl, rfl⟩

variable (h : checkSchema s.schema = none) (hs : s.slots[i]? = some sl)
include h hs

theorem exec_fieldDeserialize_of_ok {sl' : Slot} {r : Octets} (hparse : sl.parse buf = .ok (sl', r)) :
    exec (.fieldDeserialize sl.name buf) s = .next ((s.putField i sl sl'.field).answer (.bytes r)) := by
  simp only [exec, execFieldDeserialize, findSlot_of_legal h hs, hparse]

theorem exec_fieldDeserialize_of_error {e : Err} (hparse : sl.parse buf = .error e) :
    exec (.fieldDeserialize sl.name buf) s = .next ((s.drawField i sl).raise e) := by
  simp only [exec, execFieldDeserialize, findSlot_of_legal h hs, hparse]

end

/-- The name found, FIELD_DESERIALIZE writes that one register. -/
theorem exec_fieldDeserialize_writes {s t : State} {nm : Name} {buf : Octets} {i : Nat} {sl : Slot}
    (hfind : findSlot nm s.slots = some (i, sl)) (h : exec (.fieldDeserialize nm buf) s = .next t) :
    t.ver = s.ver ∧ t.xfer = s.xfer ∧ t.pending = s.pending ∧
      ∃ f, sl.Rewritten { sl with field := f } ∧ t.slots = s.slots.set i { sl with field := f } := by
  obtain ⟨e, -, heq⟩ | ⟨sl', r, hparse, heq⟩ := exec_fieldDeserialize_found (buf := buf) hfind
  · obtain rfl := Host.Outcome.next.inj (h.symm.trans heq)
    exact ⟨rfl, rfl, rfl, _, sl.rewritten_draw _ _, rfl⟩
  · obtain rfl := Host.Outcome.next.inj (h.symm.trans heq)
    obtain ⟨hwritten, -⟩ := Slot.parse_ok hparse
    have hname : sl'.name = sl.name := congrArg Entry.name hwritten.entry
    exact ⟨rfl, rfl, rfl, sl'.field, by rwa [← hname], rfl⟩

theorem exec_fieldDeserialize_unknown {s : State} {nm : Name} (hfind : findSlot nm s.slots = none) (buf : Octets) :
    exec (.fieldDeserialize nm buf) s = .next (s.raise (.unknownField nm)) := by
  simp only [exec, execFieldDeserialize, hfind]

theorem exec_fieldDeserialize_rewritten {s t : State} {nm : Name} {buf : Octets}
    (h : exec (.fieldDeserialize nm buf) s = .next t) : s.Rewritten t := by
  cases hfind : findSlot nm s.slots with
  | none =>
    obtain rfl := Host.Outcome.next.inj (h.symm.trans (exec_fieldDeserialize_unknown hfind buf))
    exact .of_slots_eq rfl
  | some q =>
    obtain ⟨i, sl⟩ := q
    obtain ⟨-, -, -, f, hwritten, hslots⟩ := exec_fieldDeserialize_writes hfind h
    exact .of_set (findSlot_some hfind).1 hwritten hslots

/-- Settles O47: the one slot that is set is the one found under the name. -/
theorem fieldDeserializeTouchesOneRegister : Obligations.FieldDeserializeTouchesOneRegister := by
  unfold Obligations.FieldDeserializeTouchesOneRegister
  intro s t nm buf h hlegal hexec
  have hwritten := exec_fieldDeserialize_rewritten hexec
  suffices hframe : t.ver = s.ver ∧
      ∀ (j : Nat) (sl : Slot), s.slots[j]? = some sl → sl.name ≠ nm → t.slots[j]? = some sl from
    ⟨hframe.1, hwritten.schema, hwritten.registersLegal h hlegal, hframe.2⟩
  cases hfind : findSlot nm s.slots with
  | none =>
    obtain rfl := Host.Outcome.next.inj (hexec.symm.trans (exec_fieldDeserialize_unknown hfind buf))
    exact ⟨rfl, fun j sl hj _ => hj⟩
  | some q =>
    obtain ⟨i, found⟩ := q
    obtain ⟨hver, -, -, f, -, hslots⟩ := exec_fieldDeserialize_writes hfind hexec
    obtain ⟨hi, hname, -⟩ := findSlot_some hfind
    refine ⟨hver, fun j sl hj hne => ?_⟩
    have hij : i ≠ j := by
      rintro rfl
      rw [hi] at hj
      cases hj
      exact hne hname
    rw [hslots, List.getElem?_set_ne hij, hj]

/-! ### A BitField's bytes -/

/-- R103: B bytes are read as the value that BF.PACK turns back into them. -/
theorem Slot.parse_bit_append {nm : Name} {layout : List Nat} {d x : BitVal} {p : Octets} (hne : layout ≠ [])
    (hsum : layout.sum % 8 = 0) (hp : p.length = bfSize layout) (r : Octets) :
    ∃ x', x' ≠ .unset ∧ x'.legal layout = true ∧ bfPack layout x' nm = .ok p ∧
      Slot.parse ⟨nm, .bit layout d x⟩ (p ++ r) = .ok (⟨nm, .bit layout d x'⟩, r) := by
  obtain ⟨hset, hlegal⟩ := (BitVal.set_legal_iff hne).mpr ⟨_, rfl, groupsFit_unpackGroups (leNat p) layout⟩
  refine ⟨_, hset, hlegal, bfPack_unpacked hsum hp nm, ?_⟩
  rw [Slot.parse_bit, bfUnpack_append hp]
  rfl

theorem Slot.parse_bit_short {nm : Name} {layout : List Nat} {d x : BitVal} {b : Octets} (hb : b.length < bfSize layout) :
    Slot.parse ⟨nm, .bit layout d x⟩ b = .error (.truncated nm (bfSize layout) b.length) := by
  rw [Slot.parse_bit, bfUnpack, memRead, if_pos hb]
  rfl

/-- R352: a BitField of a legal SCHEMA is a whole number of bytes long, and not empty. -/
theorem bit_layout_of_legal {s : State} {i : Nat} {nm : Name} {layout : List Nat} {d x : BitVal}
    (h : checkSchema s.schema = none) (hs : s.slots[i]? = some ⟨nm, .bit layout d x⟩) :
    layout ≠ [] ∧ layout.sum % 8 = 0 ∧ 0 < bfSize layout := by
  obtain ⟨-, hne, hzero, hsum, -⟩ := entry_legal_of_mem h (List.mem_of_getElem? hs)
  refine ⟨hne, hsum, ?_⟩
  have hpos : 0 < layout.sum := by
    obtain ⟨w, ws, rfl⟩ := List.exists_cons_of_ne_nil hne
    have hw : w ≠ 0 := fun hw => hzero (hw ▸ List.mem_cons_self)
    rw [List.sum_cons]
    omega
  have := eight_mul_bfSize hsum
  omega

/-- Settles O45: BF.UNPACK reads the bytes, or finds too few. -/
theorem fieldDeserializeLoadsBitField : Obligations.FieldDeserializeLoadsBitField := by
  unfold Obligations.FieldDeserializeLoadsBitField
  intro s i nm layout d x h hs
  obtain ⟨hne, hsum, -⟩ := bit_layout_of_legal h hs
  constructor
  · intro p r hp
    obtain ⟨x', hset, hlegal, hpack, hparse⟩ := Slot.parse_bit_append hne hsum hp r
    exact ⟨x', hset, hlegal, hpack, exec_fieldDeserialize_of_ok h hs hparse⟩
  · intro b hb
    exact ⟨_, exec_fieldDeserialize_of_error h hs (Slot.parse_bit_short hb), rfl⟩

/-! ### A string's bytes -/

/-- R141: a header and a payload that decodes are read as the header's selector and the value. -/
theorem Slot.parse_str_append {nm : Name} {sd sel0 sel : Selector} {d v0 v p : Octets} {n : BitVec 6}
    (hp : p.length = n.toNat) (hdec : decPayload sel p nm = .ok v) (r : Octets) :
    Slot.parse ⟨nm, .str sd d sel0 v0⟩ (headerByte sel n :: (p ++ r)) = .ok (⟨nm, .str sd d sel v⟩, r) := by
  rw [Slot.parse_str, strDeserialize_header_append hp, hdec]
  rfl

/-- Settles O46: STR.DESERIALIZE takes the selector and the value from the header and the payload. -/
theorem fieldDeserializeLoadsString : Obligations.FieldDeserializeLoadsString := by
  unfold Obligations.FieldDeserializeLoadsString
  intro s i nm sd sel0 sel d v0 v p r n h hs hp hdec
  exact exec_fieldDeserialize_of_ok h hs (Slot.parse_str_append hp hdec r)

theorem strDeserialize_short {n : BitVec 6} {p : Octets} (hp : p.length < n.toNat) (sel : Selector) (name : Name) :
    strDeserialize (headerByte sel n :: p) name = .error (.truncated name (1 + n.toNat) (1 + p.length)) := by
  have hread : memRead name (headerByte sel n :: p) (1 + n.toNat) =
      .error (.truncated name (1 + n.toNat) (1 + p.length)) := by
    rw [memRead_error_iff, List.length_cons, Nat.add_comm p.length]
    exact ⟨by omega, rfl⟩
  simp only [strDeserialize, headerLen_headerByte, strElement, hread]

theorem strDeserialize_of_payload_error {sel : Selector} {n : BitVec 6} {p : Octets} {name : Name} {e : Err}
    (hp : p.length = n.toNat) (h : decPayload sel p name = .error e) (r : Octets) :
    strDeserialize (headerByte sel n :: (p ++ r)) name = .error e := by
  rw [strDeserialize_header_append hp, h]
  rfl

/-- R76: the nibbles above 0xC stand for no character. -/
theorem bcdChar_isSome_iff (d : BitVec 4) : (bcdChar d).isSome ↔ d.toNat ≤ 0xC := by
  revert d
  decide

theorem bcdChar_eq_none {d : BitVec 4} (h : 0xC < d.toNat) : bcdChar d = none := by
  rw [← Option.not_isSome_iff_eq_none, bcdChar_isSome_iff]
  omega

/-- R144: behind bytes of good nibbles the loop goes on, and what it then raises is the error. -/
theorem decBcdFrom_append_error {name : Name} {good bs : Octets} {e : Err}
    (hgood : ∀ g ∈ good, (highNibble g).toNat ≤ 0xC ∧ (lowNibble g).toNat ≤ 0xC) {j : Nat}
    (h : decBcdFrom name (j + good.length) bs = .error e) : decBcdFrom name j (good ++ bs) = .error e := by
  induction good generalizing j with
  | nil => exact h
  | cons g good ih =>
    rw [List.forall_mem_cons] at hgood
    obtain ⟨⟨hhigh, hlow⟩, hgood⟩ := hgood
    obtain ⟨hi, hhi⟩ := Option.isSome_iff_exists.mp ((bcdChar_isSome_iff _).mpr hhigh)
    obtain ⟨lo, hlo⟩ := Option.isSome_iff_exists.mp ((bcdChar_isSome_iff _).mpr hlow)
    have hrest := ih (j := j + 1) hgood (by rwa [Nat.add_assoc, Nat.add_comm 1])
    simp only [List.cons_append, decBcdFrom, hhi, hlo, hrest]

theorem decPayload_bcd_append_error {name : Name} {good bs : Octets} {e : Err}
    (hgood : ∀ g ∈ good, (highNibble g).toNat ≤ 0xC ∧ (lowNibble g).toNat ≤ 0xC)
    (h : decBcdFrom name good.length bs = .error e) : decPayload .bcdPlus (good ++ bs) name = .error e :=
  decBcdFrom_append_error hgood (by rwa [Nat.zero_add])

theorem decBcdFrom_of_high {b : Byte} (h : 0xC < (highNibble b).toNat) (name : Name) (j : Nat) (bs : Octets) :
    decBcdFrom name j (b :: bs) = .error (.lookupNibble name j (highNibble b)) := by
  simp only [decBcdFrom, bcdChar_eq_none h]

theorem decBcdFrom_of_low {b : Byte} (hhigh : (highNibble b).toNat ≤ 0xC) (h : 0xC < (lowNibble b).toNat) (name : Name)
    (j : Nat) (bs : Octets) : decBcdFrom name j (b :: bs) = .error (.lookupNibble name j (lowNibble b)) := by
  obtain ⟨hi, hhi⟩ := Option.isSome_iff_exists.mp ((bcdChar_isSome_iff _).mpr hhigh)
  simp only [decBcdFrom, hhi, bcdChar_eq_none h]

/-- Settles O21: each form is refused by the step of STR.DESERIALIZE that meets it. -/
theorem malformedStringInputIsRefused : Obligations.MalformedStringInputIsRefused := by
  unfold Obligations.MalformedStringInputIsRefused
  intro s i nm sd sel0 d v0 h hs
  have hrefused : ∀ {buf : Octets} {e : Err}, strDeserialize buf nm = .error e →
      ∃ t, exec (.fieldDeserialize nm buf) s = .next t ∧ t.response = some (.error e) := fun he =>
    ⟨_, exec_fieldDeserialize_of_error h hs (by rw [Slot.parse_str, he]; rfl), rfl⟩
  refine ⟨hrefused rfl, ?short, ?chunks, ?text, ?nibbles⟩
  case short =>
    intro sel n p hp
    exact hrefused (strDeserialize_short hp sel nm)
  case chunks =>
    intro n p r hp hn
    rw [← hp] at hn ⊢
    have hdec : decPayload .ascii6 p nm = .error (.payloadShape nm p.length) := if_neg hn
    exact hrefused (strDeserialize_of_payload_error hp hdec r)
  case text =>
    intro sel n p r hsel hp
    have hdec : decPayload sel p nm = if textValid p then .ok p else .error (.textCodec nm) := by
      obtain rfl | rfl := hsel <;> rfl
    by_cases htext : textValid p = true
    · rw [if_pos htext] at hdec ⊢
      exact ⟨_, exec_fieldDeserialize_of_ok h hs (Slot.parse_str_append hp hdec r), rfl⟩
    · rw [if_neg htext] at hdec ⊢
      exact hrefused (strDeserialize_of_payload_error hp hdec r)
  case nibbles =>
    intro n good more r b hp hgood
    constructor
    · intro hhigh
      exact hrefused (strDeserialize_of_payload_error hp
        (decPayload_bcd_append_error hgood (decBcdFrom_of_high hhigh nm _ more)) r)
    · intro hhigh hlow
      exact hrefused (strDeserialize_of_payload_error hp
        (decPayload_bcd_append_error hgood (decBcdFrom_of_low hhigh hlow nm _ more)) r)

end Sys2Proof.Machine
end

section
/-! The elements of an open transfer (R190 to R192, R233): what a step leaves when the bytes at its place are read, and when
they are too few or the epilogue is another. -/
namespace Sys2Proof.Machine
open Sys2Proof.Claims

/-! ### What is wanted -/

theorem State.wanted_bits {s : State} {t : Xfer} {sl : Slot} (h : s.wanted = .bits t sl) : s.AtEntry t sl := by
  cases hx : s.xfer with
  | none => simp [State.wanted_of_no_transfer hx] at h
  | some t' =>
    obtain ⟨hw, -⟩ | ⟨sl', he⟩ | ⟨hw, -⟩ | ⟨hw, -⟩ := State.wanted_cases hx
    · rw [hw] at h
      cases h
    · obtain hw | hw := he.wanted <;> rw [hw] at h <;> cases h
      exact he
    · rw [hw] at h
      cases h
    · rw [hw] at h
      cases h

theorem State.atEntry_of_wanted_header {s : State} {t : Xfer} {sl : Slot} (h : s.wanted = .header t sl) :
    s.AtEntry t sl := by
  obtain ⟨hx, hs, hbegun, -⟩ := State.wanted_header h
  exact ⟨hx, hs, hbegun⟩

/-! ### An element that is read -/

/-- IN[cur..] begins with the bytes that are read, so cur moves on by their number. -/
theorem Xfer.cur_after {t : Xfer} {p r : Octets} (h : t.rest = p ++ r) (hp : p ≠ []) :
    t.input.length - r.length = t.cur + p.length := by
  have hlen : t.input.length - t.cur = p.length + r.length := by
    rw [← List.length_drop, ← List.length_append, ← h, Xfer.rest]
  have hpos := List.length_pos_iff.mpr hp
  omega

theorem bitsElement_of_parse_ok {s : State} {t : Xfer} {sl sl' : Slot} {r : Octets} (h : sl.parse t.rest = .ok (sl', r)) :
    bitsElement t sl s = .next (advanceTransfer t r (s.putField t.entry sl sl'.field)) := by
  rw [bitsElement, h]

theorem bitsElement_of_parse_error {s : State} {t : Xfer} {sl : Slot} {e : Err} (h : sl.parse t.rest = .error e) :
    bitsElement t sl s = .next (failTransfer t (some sl) e s) := by
  rw [bitsElement, h]

/-- R190: a DESERIALIZE goes on behind the entry's bytes. -/
theorem bitsElement_record {s : State} {t : Xfer} {nm : Name} {f f' : Field} {p r : Octets} (hspan : t.span = .record)
    (hrest : t.rest = p ++ r) (hp : p ≠ []) (hparse : Slot.parse ⟨nm, f⟩ t.rest = .ok (⟨nm, f'⟩, r)) :
    bitsElement t ⟨nm, f⟩ s = .next { s with
      slots := s.slots.set t.entry ⟨nm, f'⟩
      xfer := some { t with cur := t.cur + p.length, entry := t.entry + 1 } } := by
  rw [bitsElement_of_parse_ok hparse]
  simp only [advanceTransfer, hspan, Xfer.cur_after hrest hp, State.putField]

/-- R233: a FIELD_DESERIALIZE ends behind the entry's bytes. -/
theorem bitsElement_field {s : State} {t : Xfer} {nm : Name} {f f' : Field} {r : Octets} (hspan : t.span = .field)
    (hparse : Slot.parse ⟨nm, f⟩ t.rest = .ok (⟨nm, f'⟩, r)) :
    bitsElement t ⟨nm, f⟩ s = .next { s with
      slots := s.slots.set t.entry ⟨nm, f'⟩
      xfer := none
      response := some (.ok (.bytes r)) } := by
  rw [bitsElement_of_parse_ok hparse]
  simp only [advanceTransfer, hspan, State.putField, State.answer]

theorem exec_headerInstr_wanted {s : State} {t : Xfer} {sl : Slot} {sel : Selector} {n : BitVec 6} {r : Octets}
    (hw : s.wanted = .header t sl) (hr : t.rest = headerByte sel n :: r) :
    exec (headerInstr sel n) s = bitsElement t sl s := by
  rw [exec_headerInstr, ← stringElement_eq_bitsElement hw hr, headerSel_headerByte, Selector.ofCode_code,
    headerLen_headerByte]

/-- Settles O48: a header's element is the parse of its string entry, whichever of the four it is. -/
theorem stringHeadersLoadTheirEntry : Obligations.StringHeadersLoadTheirEntry := by
  unfold Obligations.StringHeadersLoadTheirEntry
  intro s t nm sd sel0 d v0 v p r n hw hp loaded
  suffices hload : ∀ sel, t.rest = headerByte sel n :: (p ++ r) → decPayload sel p nm = .ok v →
      exec (headerInstr sel n) s = loaded sel from
    ⟨hload .bin, hload .bcdPlus, hload .ascii6, hload .ascii8⟩
  intro sel hr hdec
  have hparse := Slot.parse_str_append (sd := sd) (sel0 := sel0) (d := d) (v0 := v0) hp hdec r
  rw [← hr] at hparse
  rw [exec_headerInstr_wanted hw hr]
  simp only [loaded]
  cases hspan : t.span with
  | record =>
    rw [bitsElement_record hspan (p := headerByte sel n :: p) hr (List.cons_ne_nil _ _) hparse, List.length_cons, hp,
      Nat.add_comm n.toNat, Nat.add_assoc, hspan]
  | field => exact bitsElement_field hspan hparse

/-! ### An element that ends the command with an error -/

theorem failTransfer_endsTransfer {s : State} {t : Xfer} {o : Option Slot} (h : ∀ sl ∈ o, s.slots[t.entry]? = some sl)
    (e : Err) : EndsTransfer s (failTransfer t o e s) t e := by
  unfold failTransfer
  split
  · next hspan => exact ⟨rfl, rfl, drawSlots_entry _ _ _, rfl, by simp [hspan]⟩
  · next sl _ =>
    have hs := h sl rfl
    refine ⟨rfl, rfl, State.putField_schema hs (Field.draw_proto _ _ _), rfl, fun _ => ⟨rfl, fun j hj => ?_⟩⟩
    exact List.getElem?_set_ne hj.symm
  · exact ⟨rfl, rfl, rfl, rfl, fun _ => ⟨rfl, fun _ _ => rfl⟩⟩

theorem step_atEntry_error {s : State} {t : Xfer} {sl : Slot} {e : Err} (h : checkSchema s.schema = none)
    (he : s.AtEntry t sl) (hparse : sl.parse t.rest = .error e) : ∃ u, step s = .next u ∧ EndsTransfer s u t e :=
  ⟨_, (step_atEntry h he).trans (bitsElement_of_parse_error hparse),
    failTransfer_endsTransfer (by simpa using he.slot) e⟩

/-! ### All steps that are no instruction's -/

section
variable {s : State} {t : Xfer} (h : checkSchema s.schema = none)
include h

theorem step_epilogue_agrees {r : Octets} (hw : s.wanted = .epilogue t) (hr : t.rest = epilogue t.consumed ++ r) :
    step s = .next { s with xfer := none, response := some (.ok (.bytes r)) } := by
  rw [step_epilogue h hw, epilogueElement, hr, checkEpilogue_epilogue_append]
  rfl

theorem step_epilogue_differs (hw : s.wanted = .epilogue t)
    (hne : t.rest.take (epilogue t.consumed).length ≠ epilogue t.consumed) :
    ∃ u, step s = .next u ∧ EndsTransfer s u t
      (.checksumOrPadding (epilogue t.consumed) (t.rest.take (epilogue t.consumed).length)) := by
  rw [step_epilogue h hw, epilogueElement, checkEpilogue_of_ne hne]
  exact ⟨_, rfl, failTransfer_endsTransfer (by simp) _⟩

theorem step_prologue_missing (hw : s.wanted = .prologue t) (hr : t.rest = []) :
    ∃ u, step s = .next u ∧ EndsTransfer s u t (.truncated namePrologue 1 0) :=
  ⟨_, step_prologue_nil h hw hr, failTransfer_endsTransfer (by simp) _⟩

theorem step_header_missing {sl : Slot} (hw : s.wanted = .header t sl) (hr : t.rest = []) :
    ∃ u, step s = .next u ∧ EndsTransfer s u t (.truncated sl.name 1 0) := by
  obtain ⟨-, -, -, sd, d, sel, v, hfield⟩ := State.wanted_header hw
  refine step_atEntry_error h (State.atEntry_of_wanted_header hw) ?_
  simp only [Slot.parse, hfield, hr, strDeserialize]

theorem step_bits_missing {nm : Name} {layout : List Nat} {d x : BitVal} (hw : s.wanted = .bits t ⟨nm, .bit layout d x⟩)
    (hr : t.rest.length < bfSize layout) :
    ∃ u, step s = .next u ∧ EndsTransfer s u t (.truncated nm (bfSize layout) t.rest.length) :=
  step_atEntry_error h (State.wanted_bits hw) (Slot.parse_bit_short hr)

end

/-- Settles O6: a BitField's bytes and the epilogue are elements of the transfer, and an element that ends in an error ends
the command. -/
theorem stepOutsideInstructions : Obligations.StepOutsideInstructions := by
  unfold Obligations.StepOutsideInstructions
  intro s h
  refine ⟨fun hx hp => step_idle h hx hp, ?bits, ?epilogue, fun t hw hr => step_prologue_missing h hw hr,
    fun t sl hw hr => step_header_missing h hw hr⟩
  case bits =>
    intro t nm layout d x hw
    have he := State.wanted_bits hw
    obtain ⟨hne, hsum, hpos⟩ := bit_layout_of_legal h he.slot
    have hsize : bfSize layout = layout.sum / 8 := by rw [bfSize, layoutWidth_eq_sum]
    rw [← hsize]
    refine ⟨fun p r hr hp => ?_, step_bits_missing h hw⟩
    obtain ⟨x', hset, hlegal, hpack, hparse⟩ := Slot.parse_bit_append (nm := nm) (d := d) (x := x) hne hsum hp r
    rw [← hr] at hparse
    have hpne : p ≠ [] := List.length_pos_iff.mp (hp ▸ hpos)
    refine ⟨x', hset, hlegal, hpack, ?_⟩
    rw [step_atEntry h he]
    cases hspan : t.span with
    | record => rw [bitsElement_record hspan hr hpne hparse, hp, hspan]
    | field => exact bitsElement_field hspan hparse
  case epilogue =>
    intro t hw exp
    exact ⟨fun r hr => step_epilogue_agrees h hw hr, step_epilogue_differs h hw⟩

/-! ### FIELD_DESERIALIZE as one element -/

/-- Settles O52: the element at the one entry is its parse, and the transient state is gone after it. -/
theorem fieldDeserializeIsOneElement : Obligations.FieldDeserializeIsOneElement := by
  unfold Obligations.FieldDeserializeIsOneElement
  intro s i sl buf h hx hs
  have he : (s.openField buf i).AtEntry ⟨.field, buf, 0, i⟩ sl := ⟨rfl, hs, by simp⟩
  rw [step_atEntry (s := s.openField buf i) h he]
  obtain ⟨ver, slots, xfer, pending, response, draws⟩ := s
  obtain rfl : xfer = none := hx
  cases hparse : sl.parse buf with
  | error e =>
    rw [bitsElement_of_parse_error hparse, exec_fieldDeserialize_of_error h hs hparse]
    rfl
  | ok q =>
    rw [bitsElement_of_parse_ok hparse, exec_fieldDeserialize_of_ok h hs hparse]
    rfl

end Sys2Proof.Machine
end

section
/-! What SERIALIZE leaves and answers (R64, R81, R183, R186): when it completes, how its bytes are made of FSER's, and that
after it FR[AL] holds the length already. -/
namespace Sys2Proof.Machine
open Sys2Proof.Claims

/-! ### The fields' bytes -/

theorem serializeSlots_ok_iff {slots : List Slot} {fs : Octets} :
    serializeSlots slots = .ok fs ↔
      ∃ parts : List Octets, slots.map Slot.serialize = parts.map Except.ok ∧ fs = parts.flatten := by
  induction slots generalizing fs with
  | nil => simp [serializeSlots, eq_comm]
  | cons sl rest ih =>
    rw [serializeSlots_cons_ok_iff]
    constructor
    · rintro ⟨b, bs, hb, hbs, rfl⟩
      obtain ⟨parts, hparts, rfl⟩ := ih.mp hbs
      exact ⟨b :: parts, by simp [hb, hparts], rfl⟩
    · rintro ⟨parts, hparts, rfl⟩
      obtain ⟨b, parts, rfl, hb, hparts⟩ := List.map_eq_cons_iff.mp hparts.symm
      exact ⟨b, _, hb.symm, ih.mpr ⟨parts, hparts.symm, rfl⟩, rfl⟩

/-- Settles O35: the payload is FSER's bytes of the registers after the update of FR[AL], one after the other. -/
theorem serializedBytesFollowTheFrame : Obligations.SerializedBytesFollowTheFrame := by
  unfold Obligations.SerializedBytesFollowTheFrame
  intro s t out h hresp
  obtain ⟨-, fs, hfs, rfl, rfl⟩ := exec_serialize_bytes h hresp
  obtain ⟨parts, hparts, rfl⟩ := serializeSlots_ok_iff.mp hfs
  refine ⟨parts, hparts, ?_⟩
  simp [prologueByte_eq_ofNat, epilogue, Nat.add_comm]

/-! ### Completion -/

theorem serializeSlots_ok_of_serializable {slots : List Slot} (h : ∀ sl ∈ slots, Serializable sl) :
    ∃ fs, serializeSlots slots = .ok fs := by
  induction slots with
  | nil => exact ⟨[], rfl⟩
  | cons sl rest ih =>
    rw [List.forall_mem_cons] at h
    obtain ⟨b, hb⟩ := serializable_iff.mp h.1
    obtain ⟨bs, hbs⟩ := ih h.2
    exact ⟨_, serializeSlots_cons_ok_iff.mpr ⟨b, bs, hb, hbs, rfl⟩⟩

theorem exec_serialize_completes {s : State} (hfits : AreaFits s) (h : ∀ sl ∈ areaFilled s, Serializable sl) :
    ∃ out, out.length = s.sizeTotal ∧
      exec .serialize s = .next { s with slots := areaFilled s, response := some (.ok (.bytes out)) } := by
  obtain ⟨fs, hfs⟩ := serializeSlots_ok_of_serializable h
  have hexec := exec_serialize_of_ok hfits hfs
  exact ⟨_, (serializedRecordsAreFramed _ _ _ hexec rfl).1, hexec⟩

theorem areaEntry_of_legal {s : State} {i w : Nat} {d x : BitVal} (h : checkSchema s.schema = none)
    (hs : s.slots[i]? = some ⟨nameAreaLength, .bit [w] d x⟩) :
    s.areaEntry = some (i, ⟨nameAreaLength, .bit [w] d x⟩, w, x) :=
  State.areaEntry_eq_some_iff.mpr ⟨findSlot_of_legal h hs, d, rfl⟩

theorem areaEntry_of_no_area {s : State} (h : ∀ sl ∈ s.slots, sl.name ≠ nameAreaLength) : s.areaEntry = none := by
  rw [State.areaEntry, findSlot_none_iff.mpr h]

/-- In a legal SCHEMA only entry i is area_length, so every other register is asked to be serializable (R183). -/
theorem serializable_set_area {s : State} {i w : Nat} {d x : BitVal} (h : checkSchema s.schema = none)
    (hs : s.slots[i]? = some ⟨nameAreaLength, .bit [w] d x⟩)
    (hser : ∀ sl ∈ s.slots, sl.name ≠ nameAreaLength → Serializable sl) (u : Nat) :
    ∀ sl ∈ s.slots.set i ⟨nameAreaLength, .bit [w] d (.scalar u)⟩, Serializable sl := by
  intro sl hm
  obtain ⟨j, hj⟩ := List.mem_iff_getElem?.mp hm
  by_cases hij : i = j
  · subst hij
    rw [List.getElem?_set_self (List.getElem?_eq_some_iff.mp hs).1] at hj
    cases hj
    simp [Serializable]
  · rw [List.getElem?_set_ne hij] at hj
    refine hser sl (List.mem_of_getElem? hj) fun hname => hij ?_
    have hfound := findSlot_of_legal h hj
    rw [hname, findSlot_of_legal h hs] at hfound
    cases hfound
    rfl

/-- Settles O33: the range check passes, FR[AL] is written with a Scalar, and FSER writes every register. -/
theorem serializeCompletes : Obligations.SerializeCompletes := by
  unfold Obligations.SerializeCompletes
  intro s h hser
  constructor
  · intro i w d x hs hlt
    have harea := areaEntry_of_legal h hs
    have hfits : AreaFits s := fun j sl v y hj => by
      rw [harea] at hj
      cases hj
      exact hlt
    have hfilled : areaFilled s = s.slots.set i ⟨nameAreaLength, .bit [w] d (.scalar (s.sizeTotal / 8))⟩ := by
      simp [areaFilled, harea, Field.withBits]
    rw [← hfilled]
    exact exec_serialize_completes hfits (hfilled ▸ serializable_set_area h hs hser _)
  · intro hno
    have harea := areaEntry_of_no_area hno
    have hfits : AreaFits s := fun j sl v y hj => by
      rw [harea] at hj
      cases hj
    have hfilled : areaFilled s = s.slots := by simp [areaFilled, harea]
    obtain ⟨out, hlen, hexec⟩ :=
      exec_serialize_completes hfits (hfilled ▸ fun sl hm => hser sl hm (hno sl hm))
    rw [hfilled] at hexec
    exact ⟨out, hlen, hexec⟩

/-! ### After a SERIALIZE -/

theorem areaEntry_congr {s t : State} (h : t.slots = s.slots) : t.areaEntry = s.areaEntry := by
  rw [State.areaEntry, State.areaEntry, h]

section
variable {s t : State} (ht : t.slots = areaFilled s)
include ht

theorem sizeTotal_of_slots_eq_areaFilled : t.sizeTotal = s.sizeTotal := by
  rw [State.sizeTotal, State.sizeTotal, State.sizePayload, State.sizePayload, ht, slotsSize_areaFilled]

/-- R186: FR[AL], when there is one, holds the length already. -/
theorem areaEntry_cases_of_slots_eq_areaFilled :
    (s.areaEntry = none ∧ t.areaEntry = none) ∨
    ∃ i sl sl' w x, s.areaEntry = some (i, sl, w, x) ∧ t.areaEntry = some (i, sl', w, .scalar (s.sizeTotal / 8)) := by
  obtain ⟨hnone, hfilled⟩ | ⟨i, w, d, x, harea, -, -⟩ := areaFilled_cases s
  · exact .inl ⟨hnone, (areaEntry_congr (ht.trans hfilled)).trans hnone⟩
  · obtain ⟨sl', harea'⟩ := areaEntry_of_slots_eq_areaFilled ht harea
    exact .inr ⟨i, _, sl', w, x, harea, harea'⟩

theorem areaFits_of_slots_eq_areaFilled (hfits : AreaFits s) : AreaFits t := by
  intro j sl v y hj
  rw [sizeTotal_of_slots_eq_areaFilled ht]
  obtain ⟨-, hnone⟩ | ⟨i, _, sl', w, x, harea, harea'⟩ := areaEntry_cases_of_slots_eq_areaFilled ht
  · rw [hnone] at hj
    cases hj
  · rw [harea'] at hj
    cases hj
    exact hfits _ _ _ _ harea

/-- R64: a second update of FR[AL] writes the value that it holds. -/
theorem areaFilled_of_slots_eq_areaFilled : areaFilled t = t.slots := by
  obtain ⟨-, hfilled⟩ | ⟨j, v, d, y, hj, hget, hfilled⟩ := areaFilled_cases t
  · exact hfilled
  · obtain ⟨-, hnone⟩ | ⟨i, _, sl', w, x, -, harea'⟩ := areaEntry_cases_of_slots_eq_areaFilled ht
    · rw [hnone] at hj
      cases hj
    · rw [harea'] at hj
      cases hj
      obtain ⟨hi, hval⟩ := List.getElem?_eq_some_iff.mp hget
      rw [hfilled, sizeTotal_of_slots_eq_areaFilled ht, ← hval, List.set_getElem_self hi]

end

/-- Settles O37: neither VER nor a register differs from what the first SERIALIZE read and wrote. -/
theorem serializeTwiceIsSerializeOnce : Obligations.SerializeTwiceIsSerializeOnce := by
  unfold Obligations.SerializeTwiceIsSerializeOnce
  intro s t out h hresp
  obtain ⟨hfits, fs, hfs, rfl, ht⟩ := exec_serialize_bytes h hresp
  have hslots : t.slots = areaFilled s := by rw [ht, State.answer_slots]
  have hver : t.ver = s.ver := by rw [ht, State.answer_ver]
  have hfilled := areaFilled_of_slots_eq_areaFilled hslots
  rw [exec_serialize_of_ok (areaFits_of_slots_eq_areaFilled hslots hfits) (hfilled ▸ hslots ▸ hfs), hfilled, hver, ht]
  rfl

theorem getValue_area {s : State} {i w v : Nat} {sl : Slot} (h : s.areaEntry = some (i, sl, w, .scalar v)) :
    getValue nameAreaLength s = .ok (.int (8 * v)) := by
  simp [getValue, resolve, h]

/-- Settles O38: GET multiplies by 8 what SERIALIZE has divided by 8. -/
theorem areaLengthReadsTheTotalAfterSerialize : Obligations.AreaLengthReadsTheTotalAfterSerialize := by
  unfold Obligations.AreaLengthReadsTheTotalAfterSerialize
  intro s t out h hresp harea
  obtain ⟨-, fs, -, rfl, ht⟩ := exec_serialize_bytes h hresp
  have hslots : t.slots = areaFilled s := by rw [ht, State.answer_slots]
  obtain ⟨hnone, -⟩ | ⟨i, _, sl', w, x, -, harea'⟩ := areaEntry_cases_of_slots_eq_areaFilled hslots
  · exact absurd hnone harea
  · have hvalue := exec_get_of_ok (getValue_area harea')
    have htotal : (8 * (s.sizeTotal / 8 : Nat) : Int) = s.sizeTotal := by
      exact_mod_cast Nat.mul_div_cancel' s.eight_dvd_sizeTotal
    rw [htotal] at hvalue
    exact hvalue

end Sys2Proof.Machine
end

section
/-! DESERIALIZE (R190 to R192): its three ends, its independence of the registers' old values, and its refinement to the walk
over the wire elements, a step each. -/
namespace Sys2Proof.Machine
open Sys2Proof.Claims

/-! ### How DESERIALIZE ends -/

/-- R190, R192: DESERIALIZE ends with an error and free registers, or with the registers it has read. -/
theorem exec_deserialize_cases {s t : State} {buf : Octets} (h : exec (.deserialize buf) s = .next t) :
    (∃ e, t = s.drawAll.raise e) ∨
    ∃ v body slots' r rem, buf = v :: body ∧ parseSlots s.slots body = .ok (slots', r) ∧
      checkEpilogue (buf.take (buf.length - r.length)) r = .ok rem ∧
      t = State.answer { s with ver := lowNibble v, slots := slots' } (.bytes rem) := by
  cases buf with
  | nil =>
    cases h
    exact .inl ⟨_, rfl⟩
  | cons v body =>
    simp only [exec, execDeserialize] at h
    split at h
    · cases h
      exact .inl ⟨_, rfl⟩
    · next slots' r hparse =>
      split at h
      · cases h
        exact .inl ⟨_, rfl⟩
      · next rem hcheck =>
        cases h
        exact .inr ⟨v, body, slots', r, rem, rfl, hparse, hcheck, rfl⟩

theorem exec_deserialize_rewritten {s t : State} {buf : Octets} (h : exec (.deserialize buf) s = .next t) :
    s.Rewritten t ∧ t.xfer = s.xfer ∧ t.pending = s.pending := by
  obtain ⟨e, rfl⟩ | ⟨v, body, slots', r, rem, -, hparse, -, rfl⟩ := exec_deserialize_cases h
  · exact ⟨forall₂_drawSlots _ _ _, rfl, rfl⟩
  · exact ⟨forall₂_parseSlots hparse, rfl, rfl⟩

/-- Settles O41: parsing asks the slots for their schema entries only. -/
theorem deserializeForgetsTheOldRegisters : Obligations.DeserializeForgetsTheOldRegisters := by
  unfold Obligations.DeserializeForgetsTheOldRegisters
  intro s s' t buf r hschema h hresp
  obtain ⟨e, rfl⟩ | ⟨v, body, slots', q, rem, rfl, hparse, hcheck, rfl⟩ := exec_deserialize_cases h
  · simp at hresp
  · rw [parseSlots_congr hschema] at hparse
    simp only [exec, execDeserialize, hparse, hcheck]
    rfl

theorem parseSlots_append_error {pre post pre' : List Slot} {sl : Slot} {b r : Octets} {e : Err}
    (hpre : parseSlots pre b = .ok (pre', r)) (h : sl.parse r = .error e) :
    parseSlots (pre ++ sl :: post) b = .error e := by
  induction pre generalizing b pre' with
  | nil =>
    cases hpre
    simp only [List.nil_append, parseSlots, h]
  | cons p pre ih =>
    rw [parseSlots] at hpre
    split at hpre
    · cases hpre
    · next hp =>
      split at hpre
      · cases hpre
      · next hrest =>
        cases hpre
        simp only [List.cons_append, parseSlots, hp, ih hrest]

theorem drawAll_registersLegal {s : State} (h : checkSchema s.schema = none) : s.drawAll.registersLegal = true := by
  rw [State.registersLegal, List.all_eq_true]
  intro sl hm
  obtain ⟨j, hj⟩ := List.mem_iff_getElem?.mp hm
  rw [State.drawAll_slots, drawSlots_getElem?] at hj
  obtain ⟨old, hold, rfl⟩ := Option.map_eq_some_iff.mp hj
  exact Slot.draw_legal (entry_legal_of_mem h (List.mem_of_getElem? hold)) _ _

/-- Settles O42: the fields are read in schema order, and the free values of a failed command are within their types. -/
theorem failedDeserializeLeavesLegalRegisters : Obligations.FailedDeserializeLeavesLegalRegisters := by
  unfold Obligations.FailedDeserializeLeavesLegalRegisters
  intro s h
  refine ⟨⟨_, rfl, rfl⟩, ?field, ?frame⟩
  case field =>
    intro pre post sl v b r pre' e hslots hpre hsl
    exact ⟨_, exec_deserialize_of_parse_error (hslots ▸ parseSlots_append_error hpre hsl), rfl⟩
  case frame =>
    intro t buf e hexec hresp
    obtain ⟨e', rfl⟩ | ⟨v, body, slots', r, rem, -, -, -, rfl⟩ := exec_deserialize_cases hexec
    · exact ⟨drawAll_registersLegal h, drawSlots_entry _ _ _, rfl, rfl⟩
    · simp at hresp

/-! ### The walk -/

/-- k steps of the machine. -/
def run (k : Nat) (s : State) : Out := Host.Core.run core k s

theorem run_succ_of_step {s s' : State} (h : step s = .next s') (k : Nat) : run (k + 1) s = run k s' := by
  have hstep : core.step s = .next s' := h
  simp only [run, Host.Core.run, hstep]
  rfl

theorem run_one_of_step {s s' : State} (h : step s = .next s') : run 1 s = .next s' := run_succ_of_step h 0

/-- The state inside a DESERIALIZE of buf when the bytes b are left and n schema entries are read. -/
def State.reading (s : State) (slots : List Slot) (buf b : Octets) (n : Nat) : State :=
  { s with slots := slots, xfer := some ⟨.record, buf, buf.length - b.length, n⟩ }

theorem rest_of_suffix {buf b : Octets} (h : b <:+ buf) (n : Nat) :
    Xfer.rest ⟨.record, buf, buf.length - b.length, n⟩ = b :=
  (List.suffix_iff_eq_drop.mp h).symm

theorem reading_atEntry (s : State) (done rest : List Slot) (sl : Slot) {buf b : Octets} (hlt : b.length < buf.length) :
    (s.reading (done ++ sl :: rest) buf b done.length).AtEntry ⟨.record, buf, buf.length - b.length, done.length⟩ sl where
  xfer := rfl
  slot := by simp [State.reading]
  begun _ := by simp only; omega

/-- Drawing asks the slots for their schema entries only. -/
theorem Slot.draw_congr {sl sl' : Slot} (h : sl.entry = sl'.entry) (n i : Nat) :
    ({ sl with field := sl.field.draw n i } : Slot) = { sl' with field := sl'.field.draw n i } := by
  obtain ⟨name, field⟩ := sl
  obtain ⟨name', field'⟩ := sl'
  simp only [Slot.entry, Entry.mk.injEq] at h
  obtain ⟨rfl, hproto⟩ := h
  cases field <;> cases field' <;> cases hproto <;> rfl

theorem drawSlots_congr {slots slots' : List Slot} (h : slots.map Slot.entry = slots'.map Slot.entry) (n i : Nat) :
    drawSlots n i slots = drawSlots n i slots' := by
  induction slots generalizing slots' i with
  | nil =>
    obtain rfl := List.map_eq_nil_iff.mp h.symm
    rfl
  | cons sl rest ih =>
    obtain ⟨sl', rest', rfl, hsl, hrest⟩ := List.map_eq_cons_iff.mp h.symm
    rw [drawSlots, drawSlots, ih hrest.symm, Slot.draw_congr hsl.symm]

section
variable {s : State} {buf b : Octets} (hb : b <:+ buf) (hlt : b.length < buf.length)
include hb hlt

/-- R190: a schema entry that parses is one step of the walk. -/
theorem step_reading_ok {done rest : List Slot} {sl sl' : Slot} {r : Octets}
    (h : checkSchema ((done ++ sl :: rest).map Slot.entry) = none) (hparse : sl.parse b = .ok (sl', r)) :
    step (s.reading (done ++ sl :: rest) buf b done.length) =
      .next (s.reading (done ++ [sl'] ++ rest) buf r (done ++ [sl']).length) := by
  have hname : sl'.name = sl.name := congrArg Entry.name (Slot.parse_ok hparse).1.entry
  have hslot : ({ sl with field := sl'.field } : Slot) = sl' := by rw [← hname]
  have hset : (done ++ sl :: rest).set done.length sl' = done ++ [sl'] ++ rest := by simp
  rw [← rest_of_suffix hb done.length] at hparse
  rw [step_atEntry (s := s.reading _ _ _ _) h (reading_atEntry s done rest sl hlt), bitsElement_of_parse_ok hparse]
  simp only [advanceTransfer, State.reading, State.putField, hslot, hset, List.length_append, List.length_singleton]

/-- R192: a schema entry that does not parse ends the walk. -/
theorem step_reading_error {done rest : List Slot} {sl : Slot} {e : Err}
    (h : checkSchema ((done ++ sl :: rest).map Slot.entry) = none) (hparse : sl.parse b = .error e) :
    step (s.reading (done ++ sl :: rest) buf b done.length) =
      .next (State.raise (State.drawAll { s with slots := done ++ sl :: rest, xfer := none }) e) := by
  rw [← rest_of_suffix hb done.length] at hparse
  rw [step_atEntry (s := s.reading _ _ _ _) h (reading_atEntry s done rest sl hlt), bitsElement_of_parse_error hparse]
  rfl

end

theorem parseSlots_suffix {slots slots' : List Slot} {b r : Octets} (h : parseSlots slots b = .ok (slots', r)) :
    r <:+ b := by
  induction slots generalizing slots' b with
  | nil =>
    cases h
    exact List.suffix_refl _
  | cons sl rest ih =>
    rw [parseSlots] at h
    split at h
    · cases h
    · next hsl =>
      split at h
      · cases h
      · next hrest =>
        cases h
        exact (ih hrest).trans (Slot.parse_ok hsl).2

section
variable {s : State} {buf : Octets}

/-- R190: the walk over schema entries that all parse, one step for each. -/
theorem run_reading_ok {todo done todo' : List Slot} {b r : Octets}
    (h : checkSchema ((done ++ todo).map Slot.entry) = none) (hb : b <:+ buf) (hlt : b.length < buf.length)
    (hparse : parseSlots todo b = .ok (todo', r)) (k : Nat) :
    run (todo.length + k) (s.reading (done ++ todo) buf b done.length) =
      run k (s.reading (done ++ todo') buf r (done ++ todo).length) := by
  induction todo generalizing done b todo' with
  | nil =>
    cases hparse
    simp
  | cons sl rest ih =>
    rw [parseSlots] at hparse
    split at hparse
    · cases hparse
    · next sl' q hsl =>
      split at hparse
      · cases hparse
      · next rest' r' hrest =>
        cases hparse
        obtain ⟨hwritten, hsuffix⟩ := Slot.parse_ok hsl
        have h' : checkSchema ((done ++ [sl'] ++ rest).map Slot.entry) = none := by
          simpa [hwritten.entry] using h
        have hwalk := ih h' (hsuffix.trans hb) (hsuffix.length_le.trans_lt hlt) hrest
        rw [List.length_cons, Nat.add_right_comm, run_succ_of_step (step_reading_ok hb hlt h hsl), hwalk]
        simp

/-- R192: the walk up to the first schema entry that does not parse. -/
theorem run_reading_error {todo done : List Slot} {b : Octets} {e : Err}
    (h : checkSchema ((done ++ todo).map Slot.entry) = none) (hb : b <:+ buf) (hlt : b.length < buf.length)
    (hparse : parseSlots todo b = .error e) :
    ∃ k, k ≤ todo.length ∧ run k (s.reading (done ++ todo) buf b done.length) =
      .next (State.raise (State.drawAll { s with slots := done ++ todo, xfer := none }) e) := by
  induction todo generalizing done b with
  | nil => cases hparse
  | cons sl rest ih =>
    rw [parseSlots] at hparse
    split at hparse
    · next hsl =>
      cases hparse
      exact ⟨1, by simp, run_one_of_step (step_reading_error hb hlt h hsl)⟩
    · next sl' q hsl =>
      split at hparse
      · next hrest =>
        cases hparse
        obtain ⟨hwritten, hsuffix⟩ := Slot.parse_ok hsl
        have hentries : (done ++ [sl'] ++ rest).map Slot.entry = (done ++ sl :: rest).map Slot.entry := by
          simp [hwritten.entry]
        obtain ⟨k, hk, hrun⟩ := ih (hentries ▸ h) (hsuffix.trans hb) (hsuffix.length_le.trans_lt hlt) hrest
        refine ⟨k + 1, by simpa using hk, ?_⟩
        rw [run_succ_of_step (step_reading_ok hb hlt h hsl), hrun]
        simp only [State.drawAll, drawSlots_congr hentries]
      · cases hparse

/-- R190: the prologue byte is the first step of the walk. -/
theorem step_openRecord_cons {v : Byte} {body : Octets} (h : checkSchema s.schema = none) :
    step (s.openRecord (v :: body)) =
      .next (State.reading { s with ver := lowNibble v } s.slots (v :: body) body 0) := by
  have hw : (s.openRecord (v :: body)).wanted = .prologue ⟨.record, v :: body, 0, 0⟩ := rfl
  rw [step_prologue_cons (s := s.openRecord _) h hw rfl, decodePrologue, exec_prologue_wanted hw]
  simp [State.reading, State.openRecord]

/-- R191: the epilogue is the last step of the walk. -/
theorem step_reading_epilogue {slots : List Slot} {r : Octets} (h : checkSchema (slots.map Slot.entry) = none)
    (hlt : r.length < buf.length) :
    step (s.reading slots buf r slots.length) =
      epilogueElement ⟨.record, buf, buf.length - r.length, slots.length⟩ (s.reading slots buf r slots.length) := by
  have hcur : buf.length - r.length ≠ 0 := by omega
  exact step_epilogue (s := s.reading _ _ _ _) h (by simp [State.wanted, State.reading, hcur])

end

/-- R191: the epilogue step ends the walk as the command ends. -/
theorem step_reading_epilogue_eq_exec {s : State} {v : Byte} {body r : Octets} {slots' : List Slot}
    (h : checkSchema s.schema = none) (hx : s.xfer = none) (hparse : parseSlots s.slots body = .ok (slots', r)) :
    step (State.reading { s with ver := lowNibble v } slots' (v :: body) r slots'.length) =
      exec (.deserialize (v :: body)) s := by
  have hwritten := forall₂_parseSlots hparse
  have hr : r <:+ v :: body := (parseSlots_suffix hparse).trans (List.suffix_cons v body)
  have hlt : r.length < (v :: body).length := by
    have := (parseSlots_suffix hparse).length_le
    rw [List.length_cons]
    omega
  have hschema : checkSchema (slots'.map Slot.entry) = none := by rwa [map_entry_of_rewritten hwritten]
  rw [step_reading_epilogue hschema hlt, epilogueElement, rest_of_suffix hr, Xfer.consumed]
  simp only [exec, execDeserialize, hparse]
  cases checkEpilogue ((v :: body).take ((v :: body).length - r.length)) r with
  | error e =>
    simp only [failTransfer, State.drawAll, State.reading, drawSlots_congr (map_entry_of_rewritten hwritten), State.raise,
      hx]
  | ok rem => simp only [State.reading, State.answer, hx]

theorem run_openRecord_nil {s t : State} (h : checkSchema s.schema = none) (hx : s.xfer = none)
    (hexec : exec (.deserialize []) s = .next t) : run 1 (s.openRecord []) = .next t := by
  refine run_one_of_step (Eq.trans ?_ hexec)
  rw [step_prologue_nil (s := s.openRecord []) (t := ⟨.record, [], 0, 0⟩) h rfl rfl]
  simp only [failTransfer, State.drawAll, State.openRecord, State.raise, exec, execDeserialize, hx]

theorem run_openRecord_cons {s t : State} {v : Byte} {body : Octets} (h : checkSchema s.schema = none)
    (hx : s.xfer = none) (hexec : exec (.deserialize (v :: body)) s = .next t) :
    ∃ k, k ≤ s.slots.length + 2 ∧ run k (s.openRecord (v :: body)) = .next t := by
  have hfirst := step_openRecord_cons (v := v) (body := body) h
  have hb : body <:+ v :: body := List.suffix_cons v body
  have hlt : body.length < (v :: body).length := by simp
  cases hparse : parseSlots s.slots body with
  | error e =>
    obtain ⟨k, hk, hrun⟩ :=
      run_reading_error (s := { s with ver := lowNibble v }) (todo := s.slots) (done := []) h hb hlt hparse
    refine ⟨k + 1, by omega, ?_⟩
    rw [run_succ_of_step hfirst, ← hexec, exec_deserialize_of_parse_error hparse]
    refine hrun.trans ?_
    simp only [State.drawAll, State.raise, List.nil_append, hx]
  | ok q =>
    obtain ⟨slots', r⟩ := q
    have hwalk :=
      run_reading_ok (s := { s with ver := lowNibble v }) (todo := s.slots) (done := []) h hb hlt hparse 1
    rw [List.nil_append, List.nil_append, (forall₂_parseSlots hparse).length_eq] at hwalk
    refine ⟨s.slots.length + 1 + 1, by omega, ?_⟩
    rw [run_succ_of_step hfirst, (forall₂_parseSlots hparse).length_eq]
    exact hwalk.trans (run_one_of_step ((step_reading_epilogue_eq_exec h hx hparse).trans hexec))

/-- Settles O51, by induction over the schema entries left: an entry's element does what the command's loop does there, and
a failed walk draws the registers of the same schema. -/
theorem deserializeIsTheElementWalk : Obligations.DeserializeIsTheElementWalk := by
  unfold Obligations.DeserializeIsTheElementWalk
  intro s t buf h hx hexec
  cases buf with
  | nil => exact ⟨1, by omega, run_openRecord_nil h hx hexec⟩
  | cons v body => exact run_openRecord_cons h hx hexec

end Sys2Proof.Machine
end

section
/-! The frame of the commands (R25, R27, R30, R31, R34, R64): one lemma says once what every command does to the response, the
transfer, the host's list, VER, the selectors and the registers; another that no command reads an earlier response. -/
namespace Sys2Proof.Machine
open Sys2Proof.Claims

/-! ### What a command does -/

/-- The instructions that may write VER (R25, R30). -/
def WritesVer (i : Instr) : Prop :=
  i = .reset ∨ (∃ e, i = .set nameFormatVersion e) ∨ (∃ m, i = .update m ∧ nameFormatVersion ∈ m.map Prod.fst) ∨
    (∃ b, i = .deserialize b) ∨ isCommand i = false

/-- The instructions that may write a selector (R27, R30). -/
def WritesSelector (i : Instr) : Prop :=
  i = .reset ∨ (∃ b, i = .deserialize b) ∨ (∃ nm b, i = .fieldDeserialize nm b) ∨ isCommand i = false

/-- What command i may do on its way from s to t (R20, R30, R34, R300). -/
structure CommandFrame (i : Instr) (s t : State) : Prop where
  answered : ∃ r, t.response = some r
  xfer : t.xfer = s.xfer
  pending : t.pending = s.pending
  registers : s.Rewritten t
  ver : t.ver ≠ s.ver → WritesVer i
  selectors : t.slots.map selectorOf ≠ s.slots.map selectorOf → WritesSelector i

/-- A command that only answers. -/
theorem CommandFrame.of_response (i : Instr) (s : State) (r : Response) :
    CommandFrame i s { s with response := some r } where
  answered := ⟨r, rfl⟩
  xfer := rfl
  pending := rfl
  registers := .of_slots_eq rfl
  ver h := absurd rfl h
  selectors h := absurd rfl h

theorem CommandFrame.of_finish (i : Instr) (s : State) (r : Except Err Result) : CommandFrame i s (s.finish r) := by
  rw [State.finish_eq]
  exact .of_response i s _

theorem map_selectorOf_of_valueWritten {slots slots' : List Slot} (h : List.Forall₂ Slot.ValueWritten slots slots') :
    slots'.map selectorOf = slots.map selectorOf := by
  induction h with
  | nil => rfl
  | cons hsl _ ih => rw [List.map_cons, List.map_cons, hsl.2, ih]

/-- A command that writes as SET does. -/
theorem CommandFrame.of_afterSets {i : Instr} {names : List Name} {s t : State} (h : s.AfterSets names t)
    (hver : nameFormatVersion ∈ names → WritesVer i) (r : Response) (n : Nat) :
    CommandFrame i s { t with response := some r, draws := n } where
  answered := ⟨r, rfl⟩
  xfer := h.xfer
  pending := h.pending
  registers := List.Forall₂.imp (fun _ _ hsl => hsl.1) h.slots
  ver hne := hver (h.ver hne)
  selectors hne := absurd (map_selectorOf_of_valueWritten h.slots) hne

/-! ### Each command -/

theorem exec_reset_frame (s : State) : CommandFrame .reset s (s.resetRegisters.answer .none) where
  answered := ⟨_, rfl⟩
  xfer := rfl
  pending := rfl
  registers := List.forall₂_map_right_iff.mpr (List.forall₂_same.mpr fun sl _ => sl.rewritten_reset)
  ver _ := .inl rfl
  selectors _ := .inl rfl

theorem exec_set_frame (nm : Name) (e : ExtValue) (s : State) :
    ∃ t, exec (.set nm e) s = .next t ∧ CommandFrame (.set nm e) s t := by
  cases hset : setValue nm e s with
  | error err => exact ⟨_, exec_set_of_error hset, .of_response _ s _⟩
  | ok s' =>
    refine ⟨_, exec_set_of_ok hset, .of_afterSets (setValue_afterSets hset) (fun hmem => ?_) _ s'.draws⟩
    exact .inr (.inl ⟨e, by rw [List.mem_singleton.mp hmem]⟩)

theorem exec_update_frame (m : Mapping) (s : State) :
    ∃ t, exec (.update m) s = .next t ∧ CommandFrame (.update m) s t := by
  have hsets := updateAll_afterSets m s
  have hver : nameFormatVersion ∈ m.map Prod.fst → WritesVer (.update m) := fun hmem =>
    .inr (.inr (.inl ⟨m, rfl, hmem⟩))
  simp only [exec, execUpdate]
  generalize updateAll m s = q at hsets
  obtain ⟨s', o⟩ := q
  cases o with
  | none => exact ⟨_, rfl, .of_afterSets hsets hver _ s'.draws⟩
  | some err => exact ⟨_, rfl, .of_afterSets hsets hver _ s'.draws⟩

/-- R186: the update of FR[AL] is a write as SET's. -/
theorem areaFilled_afterSets {s : State} (hfits : AreaFits s) : s.AfterSets [] { s with slots := areaFilled s } := by
  obtain ⟨-, hfilled⟩ | ⟨i, w, d, x, harea, -, hfilled⟩ := areaFilled_cases s
  · rw [hfilled]
    exact .refl [] s
  · obtain ⟨hs, hwritten⟩ := areaEntry_valueWritten harea (hfits _ _ _ _ harea)
    rw [hfilled]
    exact ⟨forall₂_set Slot.ValueWritten.refl hs hwritten, fun hver => absurd rfl hver, rfl, rfl⟩

theorem exec_serialize_next (s : State) : ∃ t, exec .serialize s = .next t := by
  simp only [exec, execSerialize]
  cases s.updateArea with
  | error e => exact ⟨_, rfl⟩
  | ok s1 =>
    simp only
    cases s1.recordBytes <;> exact ⟨_, rfl⟩

theorem exec_serialize_frame (s : State) : ∃ t, exec .serialize s = .next t ∧ CommandFrame .serialize s t := by
  obtain ⟨t, ht⟩ := exec_serialize_next s
  refine ⟨t, ht, ?_⟩
  obtain ⟨-, e, rfl⟩ | ⟨hfits, e, -, rfl⟩ | ⟨hfits, fs, -, rfl⟩ := exec_serialize_cases ht
  · exact .of_response _ s _
  · obtain hold | hnew := s.afterFailedSerialize_cases { s with slots := areaFilled s }
    · rw [hold]
      exact .of_afterSets (.refl [] s) (by simp) _ _
    · rw [hnew]
      exact .of_afterSets (areaFilled_afterSets hfits) (by simp) _ _
  · exact .of_afterSets (areaFilled_afterSets hfits) (by simp) _ s.draws

theorem exec_deserialize_next (buf : Octets) (s : State) : ∃ t, exec (.deserialize buf) s = .next t := by
  simp only [exec, execDeserialize]
  cases buf with
  | nil => exact ⟨_, rfl⟩
  | cons v body =>
    simp only
    cases parseSlots s.slots body with
    | error e => exact ⟨_, rfl⟩
    | ok q =>
      simp only
      cases checkEpilogue ((v :: body).take ((v :: body).length - q.2.length)) q.2 <;> exact ⟨_, rfl⟩

theorem exec_deserialize_frame (buf : Octets) (s : State) :
    ∃ t, exec (.deserialize buf) s = .next t ∧ CommandFrame (.deserialize buf) s t := by
  obtain ⟨t, ht⟩ := exec_deserialize_next buf s
  obtain ⟨hwritten, hxfer, hpending⟩ := exec_deserialize_rewritten ht
  have hanswered : ∃ r, t.response = some r := by
    obtain ⟨e, rfl⟩ | ⟨v, body, slots', r, rem, -, -, -, rfl⟩ := exec_deserialize_cases ht <;> exact ⟨_, rfl⟩
  exact ⟨t, ht, hanswered, hxfer, hpending, hwritten, fun _ => .inr (.inr (.inr (.inl ⟨buf, rfl⟩))),
    fun _ => .inr (.inl ⟨buf, rfl⟩)⟩

theorem exec_fieldDeserialize_frame (nm : Name) (buf : Octets) (s : State) :
    ∃ t, exec (.fieldDeserialize nm buf) s = .next t ∧ CommandFrame (.fieldDeserialize nm buf) s t := by
  cases hfind : findSlot nm s.slots with
  | none => exact ⟨_, exec_fieldDeserialize_unknown hfind buf, .of_response _ s _⟩
  | some q =>
    obtain ⟨t, ht, hanswered⟩ : ∃ t, exec (.fieldDeserialize nm buf) s = .next t ∧ ∃ r, t.response = some r := by
      obtain ⟨e, -, ht⟩ | ⟨sl', r, -, ht⟩ := exec_fieldDeserialize_found (buf := buf) hfind <;>
        exact ⟨_, ht, _, rfl⟩
    obtain ⟨hver, hxfer, hpending, -⟩ := exec_fieldDeserialize_writes hfind ht
    exact ⟨t, ht, hanswered, hxfer, hpending, exec_fieldDeserialize_rewritten ht, fun hne => absurd hver hne,
      fun _ => .inr (.inr (.inl ⟨nm, buf, rfl⟩))⟩

theorem exec_fieldSize_answers (nm : Name) (s : State) :
    ∃ r, exec (.fieldSize nm) s = .next { s with response := some r } := by
  simp only [exec, execFieldSize]
  cases findSlot nm s.slots <;> exact ⟨_, rfl⟩

theorem exec_fieldSerialize_answers (nm : Name) (s : State) :
    ∃ r, exec (.fieldSerialize nm) s = .next { s with response := some r } := by
  simp only [exec, execFieldSerialize, State.finish_eq]
  cases findSlot nm s.slots <;> exact ⟨_, rfl⟩

/-- Every command goes on to a next state, and touches no more than its frame allows. -/
theorem exec_command {i : Instr} (h : isCommand i = true) (s : State) : ∃ t, exec i s = .next t ∧ CommandFrame i s t := by
  cases i with
  | reset => exact ⟨_, rfl, exec_reset_frame s⟩
  | get nm => exact ⟨_, rfl, .of_finish _ s _⟩
  | set nm e => exact exec_set_frame nm e s
  | contains nm => exact ⟨_, rfl, .of_response _ s _⟩
  | update m => exact exec_update_frame m s
  | toDict => exact ⟨_, rfl, .of_finish _ s _⟩
  | sizePayload => exact ⟨_, rfl, .of_response _ s _⟩
  | sizeTotal => exact ⟨_, rfl, .of_response _ s _⟩
  | serialize => exact exec_serialize_frame s
  | deserialize buf => exact exec_deserialize_frame buf s
  | fieldSize nm =>
    obtain ⟨r, hr⟩ := exec_fieldSize_answers nm s
    exact ⟨_, hr, .of_response _ s r⟩
  | fieldSerialize nm =>
    obtain ⟨r, hr⟩ := exec_fieldSerialize_answers nm s
    exact ⟨_, hr, .of_response _ s r⟩
  | fieldDeserialize nm buf => exact exec_fieldDeserialize_frame nm buf s
  | strBin | strBcdPlus | strAscii6 | strAscii8 | prologue => cases h

theorem commandFrame_of_exec {i : Instr} {s t : State} (h : isCommand i = true) (hexec : exec i s = .next t) :
    CommandFrame i s t := by
  obtain ⟨t', hexec', hframe⟩ := exec_command h s
  obtain rfl := Host.Outcome.next.inj (hexec.symm.trans hexec')
  exact hframe

/-- Settles O57: the frame of every command. -/
theorem everyCommandAnswers : Obligations.EveryCommandAnswers := by
  unfold Obligations.EveryCommandAnswers
  intro i s h
  obtain ⟨t, hexec, hframe⟩ := exec_command h s
  obtain ⟨r, hr⟩ := hframe.answered
  exact ⟨t, r, hexec, hr, hframe.xfer, hframe.pending⟩

/-- Settles O60: a command's frame says which ones may write VER or a selector. -/
theorem onlyTheseInstructionsWriteVerAndSelectors : Obligations.OnlyTheseInstructionsWriteVerAndSelectors := by
  unfold Obligations.OnlyTheseInstructionsWriteVerAndSelectors
  intro i s t hexec
  cases hi : isCommand i with
  | true =>
    have hframe := commandFrame_of_exec hi hexec
    rw [← hi]
    exact ⟨hframe.ver, hframe.selectors⟩
  | false => exact ⟨fun _ => .inr (.inr (.inr (.inr rfl))), fun _ => .inr (.inr (.inr rfl))⟩

/-! ### The stored response -/

theorem State.finish_response_irrelevant (s : State) (q : Option Response) (r : Except Err Result) :
    State.finish { s with response := q } r = s.finish r := by
  cases r <;> rfl

theorem exec_serialize_response (s : State) (q : Option Response) :
    exec .serialize { s with response := q } = exec .serialize s := by
  by_cases hfits : AreaFits s
  · cases hser : serializeSlots (areaFilled s) with
    | error e =>
      rw [exec_serialize_of_error (s := { s with response := q }) hfits hser, exec_serialize_of_error hfits hser]
      unfold State.afterFailedSerialize
      split <;> rfl
    | ok fs =>
      rw [exec_serialize_of_ok (s := { s with response := q }) hfits hser, exec_serialize_of_ok hfits hser]
      rfl
  · obtain ⟨i, sl, w, x, harea, hover⟩ : ∃ i sl w x, s.areaEntry = some (i, sl, w, x) ∧ 2 ^ w ≤ s.sizeTotal / 8 := by
      simpa [AreaFits] using hfits
    rw [exec_serialize_of_area_overflow (s := { s with response := q }) harea hover,
      exec_serialize_of_area_overflow harea hover]
    rfl

theorem exec_deserialize_response (buf : Octets) (s : State) (q : Option Response) :
    exec (.deserialize buf) { s with response := q } = exec (.deserialize buf) s := by
  cases buf with
  | nil => rfl
  | cons v body =>
    simp only [exec, execDeserialize]
    cases parseSlots s.slots body with
    | error e => rfl
    | ok p =>
      simp only
      cases checkEpilogue ((v :: body).take ((v :: body).length - p.2.length)) p.2 <;> rfl

/-- R31: no command reads the response that stands in the state. -/
theorem exec_response {i : Instr} (h : isCommand i = true) (s : State) (q : Option Response) :
    exec i { s with response := q } = exec i s := by
  cases i with
  | reset | contains | sizePayload | sizeTotal => rfl
  | get nm =>
    have hvalue : getValue nm { s with response := q } = getValue nm s := getValue_congr rfl rfl nm
    simp only [exec, execGet, State.finish_response_irrelevant, hvalue]
  | set nm e =>
    have hq := setValue_response nm e s q
    cases hset : setValue nm e s with
    | error err =>
      rw [hset] at hq
      rw [exec_set_of_error hq, exec_set_of_error hset, State.raise_response_irrelevant]
    | ok s' =>
      rw [hset] at hq
      rw [exec_set_of_ok hq, exec_set_of_ok hset, State.answer_response_irrelevant]
  | update m => exact exec_update_response m s q
  | toDict =>
    have hall : ∀ nms, getAll { s with response := q } nms = getAll s nms := getAll_congr rfl rfl
    simp only [exec, execToDict, State.finish_response_irrelevant, hall]
  | serialize => exact exec_serialize_response s q
  | deserialize buf => exact exec_deserialize_response buf s q
  | fieldSize nm =>
    simp only [exec, execFieldSize]
    cases findSlot nm s.slots <;> rfl
  | fieldSerialize nm =>
    simp only [exec, execFieldSerialize, State.finish_response_irrelevant]
    cases findSlot nm s.slots <;> rfl
  | fieldDeserialize nm buf =>
    simp only [exec, execFieldDeserialize]
    cases findSlot nm s.slots with
    | none => rfl
    | some p =>
      simp only
      cases p.2.parse buf <;> rfl
  | strBin | strBcdPlus | strAscii6 | strAscii8 | prologue => cases h

/-- Settles O58: the response is written, and read by none. -/
theorem noCommandReadsAResponse : Obligations.NoCommandReadsAResponse := by
  unfold Obligations.NoCommandReadsAResponse
  exact fun i s q h => exec_response h s q

/-- A command that only answers answers the same a second time. -/
theorem exec_twice_of_response {i : Instr} {s t : State} {q : Option Response} (hi : isCommand i = true)
    (hread : exec i s = .next { s with response := q }) (h : exec i s = .next t) :
    t = { s with response := t.response } ∧ exec i t = .next t := by
  obtain rfl := Host.Outcome.next.inj (h.symm.trans hread)
  exact ⟨rfl, (exec_response hi s q).trans hread⟩

/-- Settles O59: these commands end with an answer or an error and write no register. -/
theorem readersHaveNoSideEffects : Obligations.ReadersHaveNoSideEffects := by
  unfold Obligations.ReadersHaveNoSideEffects
  intro i s t hi h
  cases i with
  | get nm => exact exec_twice_of_response rfl (by rw [exec, execGet, State.finish_eq]) h
  | contains nm => exact exec_twice_of_response rfl rfl h
  | toDict => exact exec_twice_of_response rfl (by rw [exec, execToDict, State.finish_eq]) h
  | sizePayload => exact exec_twice_of_response rfl rfl h
  | sizeTotal => exact exec_twice_of_response rfl rfl h
  | fieldSize nm =>
    obtain ⟨r, hr⟩ := exec_fieldSize_answers nm s
    exact exec_twice_of_response rfl hr h
  | fieldSerialize nm =>
    obtain ⟨r, hr⟩ := exec_fieldSerialize_answers nm s
    exact exec_twice_of_response rfl hr h
  | _ => exact hi.elim

end Sys2Proof.Machine
end

section
/-! The whole machine (R20, R25 to R28, R304, R352): no instruction changes SCHEMA, and from every state of the invariant the
step goes on to a state of the invariant. -/
namespace Sys2Proof.Machine

/-! ### The wire elements -/

theorem failTransfer_rewritten {s : State} {t : Xfer} {o : Option Slot} (h : ∀ sl ∈ o, s.slots[t.entry]? = some sl)
    (e : Err) : s.Rewritten (failTransfer t o e s) := by
  unfold failTransfer
  split
  · exact forall₂_drawSlots _ _ _
  · exact .of_set (h _ rfl) (Slot.rewritten_draw _ _ _) rfl
  · exact .of_slots_eq rfl

@[simp] theorem failTransfer_xfer (t : Xfer) (o : Option Slot) (e : Err) (s : State) :
    (failTransfer t o e s).xfer = none := by
  unfold failTransfer
  split <;> rfl

@[simp] theorem advanceTransfer_slots (t : Xfer) (r : Octets) (s : State) : (advanceTransfer t r s).slots = s.slots := by
  unfold advanceTransfer
  split <;> rfl

theorem stringElement_rewritten {s u : State} {sel : Selector} {n : BitVec 6} (h : stringElement sel n s = .next u) :
    s.Rewritten u := by
  unfold stringElement at h
  split at h
  · next t sl hw =>
    have hs := (State.atEntry_of_wanted_header hw).slot
    split at h
    · cases h
      exact failTransfer_rewritten (by simpa using hs) _
    · cases h
      exact .of_set hs (sl.rewritten_withString _ _) (advanceTransfer_slots _ _ _)
  · cases h
  · cases h

theorem exec_prologue_slots {s u : State} {reserved version : BitVec 4}
    (h : exec (.prologue reserved version) s = .next u) : u.slots = s.slots := by
  simp only [exec, execPrologue] at h
  split at h <;> cases h
  rfl

theorem exec_rewritten {i : Instr} {s t : State} (h : exec i s = .next t) : s.Rewritten t := by
  cases hi : isCommand i with
  | true => exact (commandFrame_of_exec hi h).registers
  | false =>
    obtain ⟨sel, n, rfl⟩ | ⟨reserved, version, rfl⟩ := wireInstr_cases hi
    · rw [exec_headerInstr] at h
      exact stringElement_rewritten h
    · exact .of_slots_eq (exec_prologue_slots h)

/-- Settles O56: every write of a register keeps its slot's schema entry. -/
theorem noInstructionChangesSchema : Obligations.NoInstructionChangesSchema := by
  unfold Obligations.NoInstructionChangesSchema
  exact fun i s t h => (exec_rewritten h).schema

/-! ### Legal transfers -/

theorem xferLegal_of_none {s : State} (h : s.xfer = none) : s.xferLegal = true := by
  rw [State.xferLegal, h]

theorem xferLegal_of_some {s : State} {t : Xfer} (h : s.xfer = some t) : s.xferLegal = t.legal s.slots.length := by
  rw [State.xferLegal, h]

theorem Xfer.legal_record_iff {n : Nat} {t : Xfer} (h : t.span = .record) :
    t.legal n = true ↔ t.cur ≤ t.input.length ∧ t.entry ≤ n ∧ (t.cur ≠ 0 ∨ t.entry = 0) := by
  simp [Xfer.legal, h]

theorem Xfer.legal_field_iff {n : Nat} {t : Xfer} (h : t.span = .field) :
    t.legal n = true ↔ t.cur ≤ t.input.length ∧ t.entry < n := by
  simp [Xfer.legal, h]

theorem Xfer.legal_cur_le {n : Nat} {t : Xfer} (h : t.legal n = true) : t.cur ≤ t.input.length := by
  rw [Xfer.legal, Bool.and_eq_true, decide_eq_true_eq] at h
  exact h.1

/-- R190: behind the prologue byte a record's transfer is legal. -/
theorem Xfer.legal_after_prologue {n : Nat} {t : Xfer} {b : Byte} {r : Octets} (h : t.legal n = true)
    (hspan : t.span = .record) (hcur : t.cur = 0) (hr : t.rest = b :: r) :
    Xfer.legal n { t with cur := 1 } = true := by
  obtain ⟨-, hentry, -⟩ := (Xfer.legal_record_iff hspan).mp h
  have hlen : t.input.length = r.length + 1 := by
    rw [← List.length_cons, ← hr, Xfer.rest, hcur, List.drop_zero]
  exact (Xfer.legal_record_iff (t := { t with cur := 1 }) hspan).mpr ⟨by simp only; omega, hentry, .inl one_ne_zero⟩

/-- R190: behind a schema entry a record's transfer is legal. -/
theorem Xfer.legal_after_entry {n : Nat} {t : Xfer} {r : Octets} (hcur : t.cur ≤ t.input.length)
    (hspan : t.span = .record) (hbegun : t.cur ≠ 0) (hentry : t.entry < n) (hr : r <:+ t.rest) :
    Xfer.legal n { t with cur := t.input.length - r.length, entry := t.entry + 1 } = true := by
  have hlen : r.length ≤ t.input.length - t.cur := by
    rw [← List.length_drop]
    exact hr.length_le
  exact (Xfer.legal_record_iff (t := { t with cur := t.input.length - r.length, entry := t.entry + 1 }) hspan).mpr
    ⟨Nat.sub_le _ _, hentry, .inl (by simp only; omega)⟩

/-! ### The invariant -/

theorem State.Inv.schema_legal {s : State} (h : s.Inv) : checkSchema s.schema = none := h.1

theorem State.Inv.transfer_legal {s : State} {t : Xfer} (h : s.Inv) (hx : s.xfer = some t) :
    t.legal s.slots.length = true := by
  obtain ⟨-, -, hlegal⟩ := h
  rwa [xferLegal_of_some hx] at hlegal

theorem State.Inv.of_rewritten {s t : State} (h : s.Inv) (hwritten : s.Rewritten t) (hx : t.xferLegal = true) : t.Inv := by
  obtain ⟨hschema, hlegal, -⟩ := h
  exact ⟨by rwa [hwritten.schema], hwritten.registersLegal hschema hlegal, hx⟩

theorem isCommand_of_decode {c : Command} {i : Instr} (h : decode ⟨.command, c.op, c.operands⟩ = .ok i) :
    isCommand i = true := by
  simp only [decode, decodeCommand] at h
  split at h <;> cases h <;> rfl

theorem CommandFrame.xferLegal {i : Instr} {s t : State} (h : CommandFrame i s t) (hx : s.xferLegal = true) :
    t.xferLegal = true := by
  rwa [State.xferLegal, h.xfer, h.registers.slots_length]

section
variable {s : State} (hinv : s.Inv)
include hinv

/-- R50: between two commands the block waits, or runs a command to its response. -/
theorem step_between_commands_inv (hx : s.xfer = none) : ∃ u, step s = .next u ∧ u.Inv := by
  have hschema := hinv.schema_legal
  cases hp : s.pending with
  | nil => exact ⟨s, step_idle hschema hx hp, hinv⟩
  | cons c rest =>
    have hinv' : State.Inv { s with pending := rest } := hinv
    cases hd : decode ⟨.command, c.op, c.operands⟩ with
    | error err =>
      obtain ⟨op⟩ := err
      exact ⟨_, step_illegal_command hschema hx hp hd, hinv'⟩
    | ok i =>
      obtain ⟨u, hexec, hframe⟩ := exec_command (isCommand_of_decode hd) { s with pending := rest }
      refine ⟨u, (step_command hschema hx hp hd).trans hexec, hinv'.of_rewritten hframe.registers ?_⟩
      exact hframe.xferLegal (xferLegal_of_none hx)

theorem failTransfer_inv {t : Xfer} {o : Option Slot} (h : ∀ sl ∈ o, s.slots[t.entry]? = some sl) (e : Err) :
    (failTransfer t o e s).Inv :=
  hinv.of_rewritten (failTransfer_rewritten h e) (xferLegal_of_none (failTransfer_xfer t o e s))

theorem step_prologue_inv {t : Xfer} (hw : s.wanted = .prologue t) : ∃ u, step s = .next u ∧ u.Inv := by
  have hschema := hinv.schema_legal
  obtain ⟨hx, hspan, hcur⟩ := State.wanted_prologue hw
  cases hr : t.rest with
  | nil => exact ⟨_, step_prologue_nil hschema hw hr, failTransfer_inv hinv (by simp) _⟩
  | cons b r =>
    refine ⟨_, (step_prologue_cons hschema hw hr).trans (exec_prologue_wanted hw _ _), ?_⟩
    exact hinv.of_rewritten (.of_slots_eq rfl) (Xfer.legal_after_prologue (hinv.transfer_legal hx) hspan hcur hr)

theorem step_atEntry_inv {t : Xfer} {sl : Slot} (he : s.AtEntry t sl) : ∃ u, step s = .next u ∧ u.Inv := by
  have hschema := hinv.schema_legal
  cases hparse : sl.parse t.rest with
  | error e =>
    exact ⟨_, (step_atEntry hschema he).trans (bitsElement_of_parse_error hparse),
      failTransfer_inv hinv (by simpa using he.slot) e⟩
  | ok q =>
    obtain ⟨sl', r⟩ := q
    obtain ⟨hwritten, hsuffix⟩ := Slot.parse_ok hparse
    have hname : sl'.name = sl.name := congrArg Entry.name hwritten.entry
    refine ⟨_, (step_atEntry hschema he).trans (bitsElement_of_parse_ok hparse), ?_⟩
    refine hinv.of_rewritten (.of_set he.slot (by rwa [← hname]) (advanceTransfer_slots _ _ _)) ?_
    cases hspan : t.span with
    | record =>
      have hentry : t.entry < s.slots.length := (List.getElem?_eq_some_iff.mp he.slot).1
      have hxfer : (advanceTransfer t r (s.putField t.entry sl sl'.field)).xfer =
          some { t with cur := t.input.length - r.length, entry := t.entry + 1 } := by
        simp only [advanceTransfer, hspan]
      rw [xferLegal_of_some hxfer, advanceTransfer_slots, State.putField_slots, List.length_set]
      exact Xfer.legal_after_entry (Xfer.legal_cur_le (hinv.transfer_legal he.xfer)) hspan (he.begun hspan) hentry hsuffix
    | field => exact xferLegal_of_none (by simp [advanceTransfer, hspan])

theorem step_epilogue_inv {t : Xfer} (hw : s.wanted = .epilogue t) : ∃ u, step s = .next u ∧ u.Inv := by
  have hstep := step_epilogue hinv.schema_legal hw
  rw [epilogueElement] at hstep
  cases hcheck : checkEpilogue t.consumed t.rest with
  | error e =>
    rw [hcheck] at hstep
    exact ⟨_, hstep, failTransfer_inv hinv (by simp) e⟩
  | ok rem =>
    rw [hcheck] at hstep
    exact ⟨_, hstep, hinv.of_rewritten (.of_slots_eq rfl) rfl⟩

theorem step_inv : ∃ u, step s = .next u ∧ u.Inv := by
  cases hx : s.xfer with
  | none => exact step_between_commands_inv hinv hx
  | some t =>
    obtain ⟨hw, -⟩ | ⟨sl, he⟩ | ⟨hw, -⟩ | ⟨-, hspan, hs⟩ := State.wanted_cases hx
    · exact step_prologue_inv hinv hw
    · exact step_atEntry_inv hinv he
    · exact step_epilogue_inv hinv hw
    · obtain ⟨-, hentry⟩ := (Xfer.legal_field_iff hspan).mp (hinv.transfer_legal hx)
      rw [List.getElem?_eq_none_iff] at hs
      omega

end

/-- Settles O54: a command and a wire element write registers within their types, and a transfer moves on inside its buffer
and its schema, or ends. -/
theorem everyStepKeepsTheInvariant : Obligations.EveryStepKeepsTheInvariant := by
  unfold Obligations.EveryStepKeepsTheInvariant
  intro s s' hinv h
  obtain ⟨u, hstep, hu⟩ := step_inv hinv
  obtain rfl := Host.Outcome.next.inj (h.symm.trans hstep)
  exact hu

/-- Settles O55: the invariant leaves no place where nothing can be read. -/
theorem noStepStopsTheBlock : Obligations.NoStepStopsTheBlock := by
  unfold Obligations.NoStepStopsTheBlock
  intro s hinv
  obtain ⟨u, hstep, -⟩ := step_inv hinv
  exact ⟨u, hstep⟩

end Sys2Proof.Machine
end
